-- ==== Sys2Proof/Word.lean ====
section
/-! DEFINITION. The two value types of the model: a 64-bit word (an element, a general register, an address: spec rules
R21, R32, R34, R36) and a byte. -/

namespace Sys2Proof

/-- A 64-bit value: one vector element (R21), one general register (R32), the program counter (R34) or an address (R36). -/
abbrev Word := BitVec 64

/-- One byte of memory (R50). -/
abbrev Byte := BitVec 8

end Sys2Proof
end

