-- ==== Sys2Proof/Config.lean ====
section
/-! DEFINITION. What an implementation fixes (R4) and the values the spec leaves open. A constant declared `opaque` has no
body: nothing in Lean can evaluate it, so whatever is proved holds for every function the hardware might have. -/

namespace Sys2Proof

/-- The four sign controls of VMAC (R149): whether the signs of `Va`, `Vb`, `Vc` and of the whole result are inverted. -/
structure Signs where
  na : Bool
  nb : Bool
  nc : Bool
  nr : Bool
  deriving DecidableEq, Repr

/-- No sign is inverted: the reading of `Sn` = 0 (R149, D18). -/
def Signs.plain : Signs := ⟨false, false, false, false⟩

namespace Config

/-- `IDiv(a, b)`, the integer quotient (R135, D16): OPEN. -/
opaque iDiv : Word → Word → Word

/-- `FAdd(T, a, b)` (R136, D17): OPEN. -/
opaque fAdd : BitVec 3 → Word → Word → Word

/-- `FSub(T, a, b)` (R136, D17): OPEN. -/
opaque fSub : BitVec 3 → Word → Word → Word

/-- `FMul(T, a, b)` (R136, D17): OPEN. -/
opaque fMul : BitVec 3 → Word → Word → Word

/-- `FDiv(T, a, b)` (R136, D17): OPEN. -/
opaque fDiv : BitVec 3 → Word → Word → Word

/-- `FMac(T, sn, a, b, c)` (R136, R149, D17): OPEN. -/
opaque fMac : BitVec 3 → Signs → Word → Word → Word → Word

/-- `FLt(T, a, b)` (R136, R180, D37): OPEN. -/
opaque fLt : BitVec 3 → Word → Word → Bool

/-- `FEq(T, a, b)` (R136, R180, D37): OPEN. -/
opaque fEq : BitVec 3 → Word → Word → Bool

/-- `FUnord(T, a, b)` (R136, R180, D37): OPEN. -/
opaque fUnord : BitVec 3 → Word → Word → Bool

/-- `Recip(a)`, the reciprocal VREC computes (R150, D19): OPEN. It stands for whichever of `IRecip`, `FRecip(1, .)`,
`FRecip(2, .)` or another total function a configuration picks. -/
opaque recip : Word → Word

/-- `FltToInt(a)` (R197, D19): OPEN. -/
opaque fltToInt : Word → Word

/-- `IntToFlt(a)` (R198, D19): OPEN. -/
opaque intToFlt : Word → Word

/-- The draw of PSIG's external signal (R37, R131, D11): draw number, then element. -/
opaque signal : Nat → Nat → Bool

/-- The draw of the bits V2BITS assigns to no active element (R196, D31): draw number. -/
opaque freeBits : Nat → Word

/-- The draw of which of several active elements' stores to one address survives (R63, D22): draw number, then the address. Only
its remainder by the number of those elements is used. -/
opaque storeDraw : Nat → Word → Nat

/-- The draw of which faulting element is reported (R210, R237): draw number. Only its remainder by the number of faulting
elements is used. -/
opaque faultDraw : Nat → Nat

/-- The draw of whether an element that did not fault was transferred before the exception (R218): draw number, then
element. -/
opaque partialDraw : Nat → Nat → Bool

end Config

end Sys2Proof
end

