-- ==== Sys2Proof/Syntax.lean ====
section
/-! DEFINITION. The instructions as data: the predicate byte, the sixteen predicate conditions, and one constructor for each of
the 33 rows of the opcode table. A field has the width its format gives it (rule R85), so an instruction may be ill-formed: the
static checks of rule R134 say which are refused. -/

namespace Sys2Proof

/-- The sixteen rows of the Predicate Conditions table (R121), in order: row n is condition code n. Rows 12, 14 and 15 are
blank in the source. -/
inductive Cond where
  | pf | pt | peq | pne | ple | pgt | pge | plt
  | pleu | pgtu | pgeu | pltu | rsv12 | psig | rsv14 | rsv15
  deriving DecidableEq, Repr

/-- The predicate byte (R81): `vpn`, bits 7:4, the predicating vector predicate register, and `cond`, bits 3:0. -/
structure Pred where
  vpn  : BitVec 4
  cond : Cond
  deriving DecidableEq, Repr

/-- The instructions, one constructor per row of the opcode table. `p` is the predicate byte, `t` the operand type `T` (R88; for
VCMP it is `O` less 8, R89), `vt va vb vc vs` vector register fields, `vpt` the target predicate register, `ra rb rt` general
register fields, `seg` the segment number, `sn` VMAC's sign control. -/
inductive Instr where
  | vadd    (p : Pred) (t : BitVec 3) (vt va vb : BitVec 6)
  | vadds   (p : Pred) (t : BitVec 3) (vt va rb : BitVec 6)
  | vsub    (p : Pred) (t : BitVec 3) (vt va vb : BitVec 6)
  | vsubs   (p : Pred) (t : BitVec 3) (vt va rb : BitVec 6)
  | vsubrs  (p : Pred) (t : BitVec 3) (vt va rb : BitVec 6)
  | vmul    (p : Pred) (t : BitVec 3) (vt va vb : BitVec 6)
  | vmuls   (p : Pred) (t : BitVec 3) (vt va rb : BitVec 6)
  | vdiv    (p : Pred) (t : BitVec 3) (vt va vb : BitVec 6)
  | vdivs   (p : Pred) (t : BitVec 3) (vt va rb : BitVec 6)
  | vmac    (p : Pred) (sn : BitVec 5) (t : BitVec 3) (vt va vb vc : BitVec 6)
  | vrec    (p : Pred) (vt va : BitVec 6)
  | vand    (p : Pred) (t : BitVec 3) (vt va vb : BitVec 6)
  | vands   (p : Pred) (t : BitVec 3) (vt va rb : BitVec 6)
  | vor     (p : Pred) (t : BitVec 3) (vt va vb : BitVec 6)
  | vors    (p : Pred) (t : BitVec 3) (vt va rb : BitVec 6)
  | veor    (p : Pred) (t : BitVec 3) (vt va vb : BitVec 6)
  | veors   (p : Pred) (t : BitVec 3) (vt va rb : BitVec 6)
  | vcmp    (p : Pred) (t : BitVec 3) (vpt : BitVec 4) (va vb : BitVec 6)
  | vcmps   (p : Pred) (t : BitVec 3) (vpt : BitVec 4) (va rb : BitVec 6)
  | vex     (p : Pred) (rt va ra : BitVec 6)
  | veins   (p : Pred) (vt rb ra : BitVec 6)
  | vshlv   (p : Pred) (vt va ra : BitVec 6)
  | vshrv   (p : Pred) (vt va ra : BitVec 6)
  | vbits2v (p : Pred) (vt ra : BitVec 6)
  | v2bits  (p : Pred) (rt va : BitVec 6)
  | vflt2int (p : Pred) (vt va : BitVec 6)
  | vint2flt (p : Pred) (vt va : BitVec 6)
  | lv      (p : Pred) (seg : BitVec 3) (vt ra : BitVec 6)
  | lvws    (p : Pred) (seg : BitVec 3) (vt ra rb : BitVec 6)
  | lvx     (p : Pred) (seg : BitVec 3) (vt ra vb : BitVec 6)
  | sv      (p : Pred) (seg : BitVec 3) (vs ra : BitVec 6)
  | svws    (p : Pred) (seg : BitVec 3) (vs ra rb : BitVec 6)
  | svx     (p : Pred) (seg : BitVec 3) (vs ra vb : BitVec 6)
  deriving DecidableEq, Repr

/-- The eleven refusals that depend on the instruction's bytes alone (93_implementation_defined.md section 2). -/
inductive StaticRefusal where
  /-- An instruction of the base set, which no source describes (R82, R89, R91), or one that straddles the top of the address
  space (R34). Safe: the model stops. -/
  | notInScope
  /-- Predicate condition 12, 14 or 15 (R122). Safe: the model stops. -/
  | reservedCondition
  /-- A function value with no member, a non-zero unused field, or bytes missing at the end of the program text (R86, R102,
  U29). Safe: the model stops. -/
  | reservedEncoding
  /-- A type value the instruction's table does not list (R88, R89). Safe: the model stops. -/
  | reservedType
  /-- Float quad in a 64-bit element (R127). Safe: the model stops. -/
  | quadNotRepresentable
  /-- A vector register field of 8 or more (R23). Safe: the model stops. -/
  | vectorRegisterOutOfRange
  /-- A predicate register field of 8 or more that is read or written (R31). Safe: the model stops. -/
  | predicateRegisterOutOfRange
  /-- Bytes that two or more rows of the opcode table match (R100, R101). Safe: the model stops. -/
  | ambiguousEncoding
  /-- One of the five `Pn` instructions under a predicate byte other than 01h and 90h (R124). Safe: the model stops. -/
  | pnReadingOpen
  /-- VMAC with a non-zero `Sn` and no `SnDecode` (R149). Safe: the model stops. -/
  | snNotDecoded
  /-- VSHLV or VSHRV with its target equal to its source (R193, R194). Safe: the model stops. -/
  | shiftAliasing
  deriving DecidableEq, Repr

/-- The nine members of opcode 56h (R91), as a platform's `Decode56` names them. -/
inductive Member56 where
  | vex | veins | vshlv | vshrv | v2bits | vflt2int | vint2flt | vrec | vbits2v
  deriving DecidableEq, Repr

/-- One row of a platform's own rule for opcode 56h (the OPEN parameter `Decode56`, R4, R101, D1): where as many bytes of
program text are present as `present` lists, and the bits under `mask` equal `bits`, the word is `member`. Every function from
the bytes present to a member is a finite list of such rows. A member that is longer than the bytes present is refused (DESIGN
CHOICE, log entry 18). -/
structure Rule56 where
  present : List Nat
  mask    : BitVec 48
  bits    : BitVec 48
  member  : Member56
  deriving DecidableEq, Repr

end Sys2Proof
end

