-- ==== Sys2Proof/Decode.lean ====
section
/-! DEFINITION. From bytes to an instruction (R82, R91 to R101) and back (R107). Decoding is total: it answers an instruction, or
one of the refusals by name. Bit 0 of a word is the lowest bit of the byte at the lowest address (R5, R54). -/

namespace Sys2Proof

/-! ## Lengths and the predicate byte -/

/-- The length in bytes of each instruction (R83). -/
def Instr.ilen : Instr → Nat
  | .vadd .. => 5 | .vadds .. => 5 | .vsub .. => 5 | .vsubs .. => 5 | .vsubrs .. => 5
  | .vmul .. => 5 | .vmuls .. => 5 | .vdiv .. => 5 | .vdivs .. => 5
  | .vmac .. => 6 | .vrec .. => 4
  | .vand .. => 5 | .vands .. => 5 | .vor .. => 5 | .vors .. => 5 | .veor .. => 5 | .veors .. => 5
  | .vcmp .. => 4 | .vcmps .. => 5
  | .vex .. => 5 | .veins .. => 5 | .vshlv .. => 5 | .vshrv .. => 5
  | .vbits2v .. => 4 | .v2bits .. => 5 | .vflt2int .. => 4 | .vint2flt .. => 4
  | .lv .. => 4 | .lvws .. => 5 | .lvx .. => 5 | .sv .. => 4 | .svws .. => 5 | .svx .. => 5

/-- The predicate byte of each instruction (R81). -/
def Instr.pred : Instr → Pred
  | .vadd p .. => p | .vadds p .. => p | .vsub p .. => p | .vsubs p .. => p | .vsubrs p .. => p
  | .vmul p .. => p | .vmuls p .. => p | .vdiv p .. => p | .vdivs p .. => p
  | .vmac p .. => p | .vrec p .. => p
  | .vand p .. => p | .vands p .. => p | .vor p .. => p | .vors p .. => p | .veor p .. => p | .veors p .. => p
  | .vcmp p .. => p | .vcmps p .. => p
  | .vex p .. => p | .veins p .. => p | .vshlv p .. => p | .vshrv p .. => p
  | .vbits2v p .. => p | .v2bits p .. => p | .vflt2int p .. => p | .vint2flt p .. => p
  | .lv p .. => p | .lvws p .. => p | .lvx p .. => p | .sv p .. => p | .svws p .. => p | .svx p .. => p

/-- The condition code of a condition: its row number in the Predicate Conditions table (R121). -/
def Cond.code : Cond → BitVec 4
  | .pf => 0 | .pt => 1 | .peq => 2 | .pne => 3 | .ple => 4 | .pgt => 5 | .pge => 6 | .plt => 7
  | .pleu => 8 | .pgtu => 9 | .pgeu => 10 | .pltu => 11 | .rsv12 => 12 | .psig => 13 | .rsv14 => 14 | .rsv15 => 15

/-- The condition a code names (R121). -/
def Cond.ofCode (c : BitVec 4) : Cond :=
  match c.toNat with
  | 0 => .pf | 1 => .pt | 2 => .peq | 3 => .pne | 4 => .ple | 5 => .pgt | 6 => .pge | 7 => .plt
  | 8 => .pleu | 9 => .pgtu | 10 => .pgeu | 11 => .pltu | 12 => .rsv12 | 13 => .psig | 14 => .rsv14 | _ => .rsv15

/-- Whether a condition reads the flags of `VP[Vpn]`: codes 2 to 11 (R31, R122). -/
def Cond.readsFlags : Cond → Bool
  | .peq | .pne | .ple | .pgt | .pge | .plt | .pleu | .pgtu | .pgeu | .pltu => true
  | .pf | .pt | .rsv12 | .psig | .rsv14 | .rsv15 => false

/-- Which predicate bytes begin a vector instruction (R82) and which conditions are reserved (R102): the refusal, if any. -/
def Pred.reject (p : Pred) : Option StaticRefusal :=
  match p.cond with
  | .pf => if p.vpn = 9#4 then none else some .notInScope
  | .pt => if p.vpn = 0#4 then none else some .notInScope
  | .rsv12 | .rsv14 | .rsv15 => some .reservedCondition
  | .peq | .pne | .ple | .pgt | .pge | .plt | .pleu | .pgtu | .pgeu | .pltu | .psig => none

/-- The predicate byte as a byte: `Vpn` in bits 7:4, `Pc` in bits 3:0 (R81). -/
def Pred.byte (p : Pred) : Byte := p.vpn ++ p.cond.code

/-! ## Words and bytes -/

/-- Byte `k` of a sequence of bytes, 0 where there is none. -/
def byteAt (bs : List Byte) (k : Nat) : Byte := bs.getD k 0

/-- The first six bytes as one number, the byte at the lowest address lowest (R54). -/
def wordOf (bs : List Byte) : BitVec 48 :=
  byteAt bs 5 ++ byteAt bs 4 ++ byteAt bs 3 ++ byteAt bs 2 ++ byteAt bs 1 ++ byteAt bs 0

/-- The low `n` bytes of a word, low byte first (R54). -/
def toBytes (n : Nat) (w : BitVec 48) : List Byte := (List.range n).map fun k => w.extractLsb' (8 * k) 8

/-- The field of `len` bits whose lowest bit is bit `lo` (R5). -/
def field (w : BitVec 48) (lo len : Nat) : BitVec len := w.extractLsb' lo len

/-- The predicate byte of a word (R81). -/
def predOf (w : BitVec 48) : Pred := ⟨field w 4 4, Cond.ofCode (field w 0 4)⟩

/-! ## The opcode map -/

/-- Opcode 52h, formats VVV and VVS (R91, R92, R93): the logical instructions. -/
def rows52 (w : BitVec 48) : List Instr :=
  let p := predOf w
  let t := field w 34 3
  let vt := field w 28 6
  let b := field w 22 6
  let va := field w 16 6
  let f := field w 37 3
  if f = 0#3 then [.vand p t vt va b]
  else if f = 1#3 then [.vor p t vt va b]
  else if f = 2#3 then [.veor p t vt va b]
  else if f = 4#3 then [.vands p t vt va b]
  else if f = 5#3 then [.vors p t vt va b]
  else if f = 6#3 then [.veors p t vt va b]
  else []

/-- Opcode 57h, formats VVV and VVS (R91, R92, R93): addition and subtraction. -/
def rows57 (w : BitVec 48) : List Instr :=
  let p := predOf w
  let t := field w 34 3
  let vt := field w 28 6
  let b := field w 22 6
  let va := field w 16 6
  let f := field w 37 3
  if f = 0#3 then [.vadd p t vt va b]
  else if f = 2#3 then [.vsub p t vt va b]
  else if f = 4#3 then [.vadds p t vt va b]
  else if f = 5#3 then [.vsubs p t vt va b]
  else if f = 6#3 then [.vsubrs p t vt va b]
  else []

/-- Opcode 5Eh, formats VVV and VVS (R91, R92, R93): multiplication and division. -/
def rows5E (w : BitVec 48) : List Instr :=
  let p := predOf w
  let t := field w 34 3
  let vt := field w 28 6
  let b := field w 22 6
  let va := field w 16 6
  let f := field w 37 3
  if f = 0#3 then [.vmul p t vt va b]
  else if f = 1#3 then [.vdiv p t vt va b]
  else if f = 4#3 then [.vmuls p t vt va b]
  else if f = 5#3 then [.vdivs p t vt va b]
  else []

/-- Format MAC (R96). -/
def rows5A (w : BitVec 48) : List Instr :=
  [.vmac (predOf w) (field w 43 5) (field w 40 3) (field w 34 6) (field w 16 6) (field w 22 6) (field w 28 6)]

/-- Format CMPS (R95); bits 39:35 are unused and zero (R86). -/
def rows5C (w : BitVec 48) : List Instr :=
  if field w 35 5 = 0#5 then [.vcmps (predOf w) (field w 32 3) (field w 28 4) (field w 16 6) (field w 22 6)] else []

/-- Format CMP (R94), matched on bit 31 as well (R89, R100): the type is `O` less 8. -/
def rowsCmp (w : BitVec 48) : List Instr :=
  if field w 31 1 = 1#1 then [.vcmp (predOf w) (field w 28 3) (field w 8 4) (field w 16 6) (field w 22 6)] else []

/-- The fields of a member of opcode 56h: formats M3 (R97) and M2 (R98). The `Ra` field of V2BITS is not read (R86, D14). -/
def Member56.build (m : Member56) (w : BitVec 48) : Instr :=
  let p := predOf w
  match m with
  | .vex => .vex p (field w 28 6) (field w 22 6) (field w 16 6)
  | .veins => .veins p (field w 28 6) (field w 22 6) (field w 16 6)
  | .vshlv => .vshlv p (field w 28 6) (field w 22 6) (field w 16 6)
  | .vshrv => .vshrv p (field w 28 6) (field w 22 6) (field w 16 6)
  | .v2bits => .v2bits p (field w 28 6) (field w 22 6)
  | .vflt2int => .vflt2int p (field w 22 6) (field w 16 6)
  | .vint2flt => .vint2flt p (field w 22 6) (field w 16 6)
  | .vrec => .vrec p (field w 22 6) (field w 16 6)
  | .vbits2v => .vbits2v p (field w 22 6) (field w 16 6)

/-- The 32-bit members of opcode 56h that a word matches, by `func4`, bits 31:28 (R98). -/
def short56 (w : BitVec 48) : List Member56 :=
  let f := field w 28 4
  if f = 4#4 then [.vflt2int]
  else if f = 5#4 then [.vint2flt]
  else if f = 6#4 then [.vrec, .vbits2v]
  else []

/-- The 40-bit members of opcode 56h that a word matches, by `func6`, bits 39:34 (R97). -/
def long56 (w : BitVec 48) : List Member56 :=
  let f := field w 34 6
  if f = 0#6 then [.vex]
  else if f = 1#6 then [.veins]
  else if f = 2#6 then [.vshlv]
  else if f = 3#6 then [.vshrv]
  else if f = 6#6 then [.v2bits]
  else []

/-- Format LS2 (R99); bit 28 is unused and zero (R86). -/
def rowsLS2 (w : BitVec 48) (build : Pred → BitVec 3 → BitVec 6 → BitVec 6 → Instr) : List Instr :=
  if field w 28 1 = 0#1 then [build (predOf w) (field w 29 3) (field w 22 6) (field w 16 6)] else []

/-- Format LS3 (R99); bits 36:34 are unused and zero (R86). The arguments of `build` are `Seg`, the vector register, `Ra`, and
`Rb` or `Vb`. -/
def rowsLS3 (w : BitVec 48) (build : Pred → BitVec 3 → BitVec 6 → BitVec 6 → BitVec 6 → Instr) : List Instr :=
  if field w 34 3 = 0#3 then [build (predOf w) (field w 37 3) (field w 28 6) (field w 16 6) (field w 22 6)] else []

/-- A list, where at least `k` of the bytes are present. -/
def whenPresent (n k : Nat) (rows : List Instr) : List Instr := if k ≤ n then rows else []

/-- The set `C` of rule R100: the rows of the opcode table that match the word, all of whose bytes are among the `n` present,
each with its fields extracted (R91). -/
def candidates (n : Nat) (w : BitVec 48) : List Instr :=
  let b1 := field w 8 8
  if field w 12 4 = 1#4 then whenPresent n 4 (rowsCmp w)
  else if b1 = 0x52#8 then whenPresent n 5 (rows52 w)
  else if b1 = 0x56#8 then
    whenPresent n 4 ((short56 w).map fun m => m.build w) ++ whenPresent n 5 ((long56 w).map fun m => m.build w)
  else if b1 = 0x57#8 then whenPresent n 5 (rows57 w)
  else if b1 = 0x5A#8 then whenPresent n 6 (rows5A w)
  else if b1 = 0x5C#8 then whenPresent n 5 (rows5C w)
  else if b1 = 0x5E#8 then whenPresent n 5 (rows5E w)
  else if b1 = 0xBD#8 then whenPresent n 4 (rowsLS2 w .lv)
  else if b1 = 0xBE#8 then whenPresent n 5 (rowsLS3 w .lvws)
  else if b1 = 0xBF#8 then whenPresent n 5 (rowsLS3 w .lvx)
  else if b1 = 0xCD#8 then whenPresent n 4 (rowsLS2 w .sv)
  else if b1 = 0xCE#8 then whenPresent n 5 (rowsLS3 w .svws)
  else if b1 = 0xCF#8 then whenPresent n 5 (rowsLS3 w .svx)
  else []

/-- The length of the longest row whose second byte is `b1`, 0 where rule R91 has no such row. -/
def longestRow (b1 : Byte) : Nat :=
  if b1.extractLsb' 4 4 = 1#4 then 4
  else if b1 ∈ [0x52#8, 0x56#8, 0x57#8, 0x5C#8, 0x5E#8, 0xBE#8, 0xBF#8, 0xCE#8, 0xCF#8] then 5
  else if b1 = 0x5A#8 then 6
  else if b1 ∈ [0xBD#8, 0xCD#8] then 4
  else 0

/-- The refusal of a word no row matches (R100): `notInScope` for a second byte in no row of rule R91 and for 1xh with `O` below
8 (R89), `reservedEncoding` otherwise, bytes that are missing among them (U29). -/
def noRowReason (n : Nat) (w : BitVec 48) : StaticRefusal :=
  let b1 := field w 8 8
  if 2 ≤ n ∧ longestRow b1 = 0 then .notInScope
  else if 4 ≤ n ∧ field w 12 4 = 1#4 ∧ field w 31 1 = 0#1 then .notInScope
  else .reservedEncoding

/-! ## Decode -/

/-- What decoding answers: an instruction, or a refusal by name. -/
inductive Decoded where
  | instr  (i : Instr)
  | reject (r : StaticRefusal)
  deriving DecidableEq, Repr

/-- A refusal found by decoding gives way to the refusal of the predicate byte, which rules R100 and R134 look for first
(DEDUCED, log entry 15). -/
def rejectAfterPred (n : Nat) (w : BitVec 48) (r : StaticRefusal) : Decoded :=
  .reject (if n = 0 then r else (predOf w).reject.getD r)

/-- Rule R100's choice: one row, the instruction; none, refused; several, ambiguous (R101). -/
def decodeByTable (n : Nat) (w : BitVec 48) : Decoded :=
  match candidates n w with
  | [] => rejectAfterPred n w (noRowReason n w)
  | [i] => .instr i
  | _ => rejectAfterPred n w .ambiguousEncoding

/-- A platform's own rule for opcode 56h: the first row that applies (R101, D1). R101 leaves open what such a rule says of a word
whose bytes are not all present. DESIGN CHOICE (log entry 18): a row that names a member longer than the `n` bytes present, and a word
that no row names, are refused as R100 and U29 refuse missing bytes. -/
def decodeByRules (rules : List Rule56) (n : Nat) (w : BitVec 48) : Decoded :=
  match rules.find? (fun r => r.present.contains n && (w &&& r.mask == r.bits)) with
  | some r =>
    if (r.member.build w).ilen ≤ n then .instr (r.member.build w) else rejectAfterPred n w .reservedEncoding
  | none => rejectAfterPred n w .reservedEncoding

/-- `Decode` (R100, R101) on the bytes of program text that stand at the program counter, at most six of them. `rules` is the
OPEN parameter `Decode56`; `none` is the unique-candidate rule. The predicate byte, type and register checks of an instruction
that is found are the static checks (R134), which run on its fields before it has any effect. -/
def decode (rules : Option (List Rule56)) (bs : List Byte) : Decoded :=
  let n := bs.length
  let w := wordOf bs
  match rules with
  | some rs => if 2 ≤ n ∧ field w 8 8 = 0x56#8 then decodeByRules rs n w else decodeByTable n w
  | none => decodeByTable n w

/-! ## Encode -/

/-- Formats VVV and VVS (R92, R93). -/
def encVV (op : Byte) (func3 t : BitVec 3) (vt b va : BitVec 6) (p : Pred) : BitVec 40 :=
  func3 ++ t ++ vt ++ b ++ va ++ op ++ p.byte

/-- Format M3 (R97). -/
def encM3 (func6 fa fb ra : BitVec 6) (p : Pred) : BitVec 40 := func6 ++ fa ++ fb ++ ra ++ 0x56#8 ++ p.byte

/-- Format M2 (R98). -/
def encM2 (func4 : BitVec 4) (vt a : BitVec 6) (p : Pred) : BitVec 32 := func4 ++ vt ++ a ++ 0x56#8 ++ p.byte

/-- Format CMP (R94): the constant 1 in bits 15:12, and `O` = 8 + `T` (R89). -/
def encCmp (t : BitVec 3) (vb va : BitVec 6) (vpt : BitVec 4) (p : Pred) : BitVec 32 :=
  1#1 ++ t ++ vb ++ va ++ 1#4 ++ vpt ++ p.byte

/-- Format CMPS (R95), its unused field zero. -/
def encCmps (t : BitVec 3) (vpt : BitVec 4) (rb va : BitVec 6) (p : Pred) : BitVec 40 :=
  0#5 ++ t ++ vpt ++ rb ++ va ++ 0x5C#8 ++ p.byte

/-- Format MAC (R96). -/
def encMac (sn : BitVec 5) (t : BitVec 3) (vt vc vb va : BitVec 6) (p : Pred) : BitVec 48 :=
  sn ++ t ++ vt ++ vc ++ vb ++ va ++ 0x5A#8 ++ p.byte

/-- Format LS2 (R99), its unused field zero. -/
def encLS2 (op : Byte) (seg : BitVec 3) (v ra : BitVec 6) (p : Pred) : BitVec 32 := seg ++ 0#1 ++ v ++ ra ++ op ++ p.byte

/-- Format LS3 (R99), its unused field zero. -/
def encLS3 (op : Byte) (seg : BitVec 3) (v b ra : BitVec 6) (p : Pred) : BitVec 40 :=
  seg ++ 0#3 ++ v ++ b ++ ra ++ op ++ p.byte

/-- The word of an instruction, zero above its own bits (R107, R91 to R99). The unused `Ra` field of V2BITS is written 0. -/
def encodeWord : Instr → BitVec 48
  | .vadd p t vt va vb => (encVV 0x57 0 t vt vb va p).setWidth 48
  | .vadds p t vt va rb => (encVV 0x57 4 t vt rb va p).setWidth 48
  | .vsub p t vt va vb => (encVV 0x57 2 t vt vb va p).setWidth 48
  | .vsubs p t vt va rb => (encVV 0x57 5 t vt rb va p).setWidth 48
  | .vsubrs p t vt va rb => (encVV 0x57 6 t vt rb va p).setWidth 48
  | .vmul p t vt va vb => (encVV 0x5E 0 t vt vb va p).setWidth 48
  | .vmuls p t vt va rb => (encVV 0x5E 4 t vt rb va p).setWidth 48
  | .vdiv p t vt va vb => (encVV 0x5E 1 t vt vb va p).setWidth 48
  | .vdivs p t vt va rb => (encVV 0x5E 5 t vt rb va p).setWidth 48
  | .vmac p sn t vt va vb vc => encMac sn t vt vc vb va p
  | .vrec p vt va => (encM2 6 vt va p).setWidth 48
  | .vand p t vt va vb => (encVV 0x52 0 t vt vb va p).setWidth 48
  | .vands p t vt va rb => (encVV 0x52 4 t vt rb va p).setWidth 48
  | .vor p t vt va vb => (encVV 0x52 1 t vt vb va p).setWidth 48
  | .vors p t vt va rb => (encVV 0x52 5 t vt rb va p).setWidth 48
  | .veor p t vt va vb => (encVV 0x52 2 t vt vb va p).setWidth 48
  | .veors p t vt va rb => (encVV 0x52 6 t vt rb va p).setWidth 48
  | .vcmp p t vpt va vb => (encCmp t vb va vpt p).setWidth 48
  | .vcmps p t vpt va rb => (encCmps t vpt rb va p).setWidth 48
  | .vex p rt va ra => (encM3 0 rt va ra p).setWidth 48
  | .veins p vt rb ra => (encM3 1 vt rb ra p).setWidth 48
  | .vshlv p vt va ra => (encM3 2 vt va ra p).setWidth 48
  | .vshrv p vt va ra => (encM3 3 vt va ra p).setWidth 48
  | .vbits2v p vt ra => (encM2 6 vt ra p).setWidth 48
  | .v2bits p rt va => (encM3 6 rt va 0 p).setWidth 48
  | .vflt2int p vt va => (encM2 4 vt va p).setWidth 48
  | .vint2flt p vt va => (encM2 5 vt va p).setWidth 48
  | .lv p seg vt ra => (encLS2 0xBD seg vt ra p).setWidth 48
  | .lvws p seg vt ra rb => (encLS3 0xBE seg vt rb ra p).setWidth 48
  | .lvx p seg vt ra vb => (encLS3 0xBF seg vt vb ra p).setWidth 48
  | .sv p seg vs ra => (encLS2 0xCD seg vs ra p).setWidth 48
  | .svws p seg vs ra rb => (encLS3 0xCE seg vs rb ra p).setWidth 48
  | .svx p seg vs ra vb => (encLS3 0xCF seg vs vb ra p).setWidth 48

/-- `Encode` (R107): the bytes of an instruction, low byte first (R54). -/
def encode (i : Instr) : List Byte := toBytes i.ilen (encodeWord i)

/-! ## The host's numbering -/

/-- The first `nbits / 8` bytes of a word numbered as the opcode table numbers it, bit 0 lowest. -/
def tableBytes (nbits w : Nat) : List Byte := toBytes (nbits / 8) (BitVec.ofNat 48 w)

/-- The instruction `decode` reads from the `nbits` bits of `w`, nothing following them in the program text. -/
def decodeTableWord (nbits w : Nat) : Option Instr :=
  match decode none (tableBytes nbits w) with
  | .instr i => some i
  | .reject _ => none

end Sys2Proof
end

