-- ==== Sys2Proof/Machine/State.lean ====
section
/-! DEFINITION. The machine's state as plain data, the reasons a step can stop, and the state after reset. The architectural
state is the tuple (V, VP, VL, x, pc, Mem) of 10_state.md; beside it stand the launch record `Env` (R260: what the user of the
machine supplies and no instruction changes), the environment's pending `SetVL` actions (R27) and the model's own count of the
instructions that have completed. -/

namespace Sys2Proof.Machine

/-! ## Registers -/

/-- One element of a vector predicate register: the three flags (R30). -/
structure Flags where
  eq  : Bool
  lt  : Bool
  ltu : Bool
  deriving DecidableEq, Repr

/-- A vector register: sixteen 64-bit elements (R20, R21). -/
abbrev VReg := Vector Word 16

/-- A vector predicate register: sixteen elements of flags (R29). -/
abbrev PReg := Vector Flags 16

/-- Byte-addressed memory (R50): the bytes that hold a value, by strictly rising address. A byte that is not listed holds no
value (R52). -/
abbrev Memory := List Host.Cell

/-! ## The launch record -/

/-- The addresses `lo` to `lo + size - 1`. -/
structure ByteRange where
  lo   : Nat
  size : Nat
  deriving DecidableEq, Repr

/-- The two kinds of element access (R210). -/
inductive AccessKind where
  | load | store
  deriving DecidableEq, Repr

/-- The three faults the environment may report for an access (R231). -/
inductive BusFault where
  | dbe | dbg | tlb
  deriving DecidableEq, Repr

/-- One row of `SegMap` (R57): segment `seg` maps the offsets `lo` to `hi` to the addresses from `base` on, or answers LMT where
there is no base. -/
structure SegRule where
  seg  : BitVec 3
  lo   : Word
  hi   : Word
  base : Option Word
  deriving DecidableEq, Repr

/-- One row of `MemFault` (R231): its answer for accesses of `kind` at the addresses `lo` to `hi`. -/
structure MemRule where
  kind   : AccessKind
  lo     : Word
  hi     : Word
  answer : Option BusFault
  deriving DecidableEq, Repr

/-- The launch record (R260): the program text, the end address, the allocated bytes, and the OPEN parameters of R4 on which
control depends, each as a finite table. No instruction changes it. -/
structure Env where
  /-- The byte ranges of memory that hold the program text (R66). -/
  text     : List ByteRange
  /-- The program text at the assembly level: instructions with their addresses (R120, R260). -/
  listing  : List (Word × Instr)
  /-- The address at which the run ends once an instruction has completed there (R262), where one is supplied. -/
  endAddr  : Option Word
  /-- The allocated bytes (R59). -/
  alloc    : List ByteRange
  /-- `GPR0_ZERO`: whether general register 0 is hard-wired to zero (R32). -/
  gpr0Zero : Bool
  /-- `SegMap`: the first row that applies; the identity where none does (R57). -/
  segRules : List SegRule
  /-- `MemFault`: the first row that applies; where none does, DBE outside the allocated bytes and nothing else (R231). -/
  memRules : List MemRule
  /-- `SnDecode`: entry `n` is the meaning of `Sn` = `n + 1`; absent where not supplied (R149). -/
  snDecode : Option (Vector Signs 31)
  /-- `Decode56`: a platform's own rule for opcode 56h; absent, the unique-candidate rule (R101). -/
  decode56 : Option (List Rule56)
  deriving DecidableEq, Repr

/-! ## The environment's actions -/

/-- One action `SetVL(vl)` of the environment (R27): it is due when `after` instructions have completed. -/
structure SetVLAction where
  after : Nat
  vl    : Fin 17
  deriving DecidableEq, Repr

/-! ## The state -/

/-- The machine's state. -/
structure State where
  /-- The eight vector registers (R20). -/
  v         : Vector VReg 8
  /-- The eight vector predicate registers (R29). -/
  vp        : Vector PReg 8
  /-- The vector length register, a number 0 to 16 (R26, R27). -/
  vl        : Fin 17
  /-- The 64 general registers as stored (R32); `State.gpr` reads them. -/
  x         : Vector Word 64
  /-- The program counter (R34). -/
  pc        : Word
  /-- Memory (R50). -/
  mem       : Memory
  /-- The launch record (R260). -/
  env       : Env
  /-- The environment's schedule: the `SetVL` actions still to be taken, in their order, each a step of its own between two
  instructions (R27; DESIGN CHOICE, log entry 12). -/
  pendingVL : List SetVLAction
  /-- The MODEL's own counter: how many instructions of the run have completed, 0 at its launch. Every draw is taken from it, the
  environment's actions are timed by it, and it says whether any instruction has completed (DESIGN CHOICE, log entries 8, 12,
  14). -/
  count     : Nat
  deriving DecidableEq, Repr

/-! ## The reasons a step stops -/

/-- The four exceptions the source names (R230, R233). -/
inductive Cause where
  | dbe | dbg | lmt | tlb
  deriving DecidableEq, Repr

/-- The fault outcomes (93_implementation_defined.md section 3). -/
inductive Fault where
  /-- An exception of an element's access (R231, R234): its cause, the address of the instruction, the element, the address the
  exception records, and the state left behind, in which `pc` is not advanced (R218, R238). Raised by LV, LVWS, LVX, SV, SVWS
  and SVX. Safe: the spec's exceptions are terminal. -/
  | exception (cause : Cause) (pc : Word) (elem : Fin 16) (addr : Word) (after : State)
  /-- A byte that holds no value was read (R40, R52). Raised by LV, LVWS and LVX. Safe: the model stops. -/
  | noValue
  deriving DecidableEq, Repr

/-- The refusals: the spec gives the situation no meaning, or the run has ended. -/
inductive Refusal where
  /-- An instruction that has no meaning in this model yet. Raised by no arm. Safe: the model stops. -/
  | notModelled (mnemonic : String)
  /-- One of the eleven static refusals (R102, R134), raised by decoding and by every instruction's static checks. Safe: the
  model stops. -/
  | static (r : StaticRefusal)
  /-- VEX or VEINS with an element index of 16 or more (R191, R192). Safe: the model stops. -/
  | elementIndexOutOfRange
  /-- VSHLV with a count above 15, VSHRV with a count of 0 or above 16 (R193, R194). Safe: the model stops. -/
  | shiftCountOutOfRange
  /-- An active element's address that is not a multiple of 8 (R55, R210). Safe: the model stops. -/
  | misalignedAccess
  /-- A store whose bytes meet the program text (R66, R210). Safe: the model stops. -/
  | storeToProgramText
  /-- An instruction has completed and `pc` is the end address: the run has ended normally, the state is final, and no further step
  exists (R262). Raised by `step`. Safe: the model stops. -/
  | runEnded
  deriving DecidableEq, Repr

/-- The outcome of a step of this machine. -/
abbrev Result := Host.Outcome State Fault Refusal

/-! ## Reset -/

/-- The launch record before anything is supplied: no program, the whole address space allocated, and the defaults of R4. DESIGN
CHOICE (log entry 5): the spec gives no launch record for reset. -/
def Env.initial : Env where
  text := []
  listing := []
  endAddr := none
  alloc := [⟨0, 2 ^ 64⟩]
  gpr0Zero := false
  segRules := []
  memRules := []
  snDecode := none
  decode56 := none

/-- The machine right after reset. The spec gives no reset value for anything (R40, R260). DESIGN CHOICE (log entries 1, 2, 3):
every register, flag and the vector length hold zero, and memory lists nothing. -/
def State.reset : State where
  v := Vector.replicate 8 (Vector.replicate 16 0#64)
  vp := Vector.replicate 8 (Vector.replicate 16 ⟨false, false, false⟩)
  vl := 0
  x := Vector.replicate 64 0#64
  pc := 0#64
  mem := []
  env := Env.initial
  pendingVL := []
  count := 0

end Sys2Proof.Machine
end

