-- ==== Sys2Proof/Machine/Flags.lean ====
section
/-! DEFINITION. The predicate flags: what a compare writes (R180) and what each condition tests (R121). -/

namespace Sys2Proof.Machine

/-- `Compare(T, a, b)` (R180): signed and unsigned order and equality for integers; the OPEN functions for floats, where `ltu`
means unordered. -/
def compareFlags (t : BitVec 3) (a b : Word) : Flags :=
  if t = 0#3 then ⟨a == b, a.slt b, a.ult b⟩
  else ⟨Config.fEq t a b, Config.fLt t a b, Config.fUnord t a b⟩

/-- The test of a condition on an element's flags and the external signal (R121). The blank rows 12, 14 and 15 have no test: an
instruction under one is refused before any test is made (R134). -/
def condTest (c : Cond) (f : Flags) (signal : Bool) : Bool :=
  match c with
  | .pf => false
  | .pt => true
  | .peq => f.eq
  | .pne => !f.eq
  | .ple => f.lt || f.eq
  | .pgt => !(f.lt || f.eq)
  | .pge => !f.lt
  | .plt => f.lt
  | .pleu => f.ltu || f.eq
  | .pgtu => !(f.ltu || f.eq)
  | .pgeu => !f.ltu
  | .pltu => f.ltu
  | .psig => signal
  | .rsv12 | .rsv14 | .rsv15 => false

end Sys2Proof.Machine
end

