-- ==== Sys2Proof/Machine/Operands.lean ====
section
/-! DEFINITION. The operand forms: how an instruction reads elements, scalars and the mask, and the operation each arithmetic
instruction performs on one pair of elements, by operand type (R126, R135, R136, the table at the head of 41_arithmetic.md). -/

namespace Sys2Proof.Machine

/-! ## Reading operands -/

/-- Element `x` of vector register `r` (R7). A field of 8 or more names no register; the static checks refuse it before any
element is read (R23). -/
def State.elem (s : State) (r : BitVec 6) (x : Fin 16) : Word :=
  (s.v[r.toNat]?.getD (Vector.replicate 16 0#64))[x.val]

/-- The flags of element `x` of vector predicate register `r` (R7, R30). A field of 8 or more names no register; the static
checks refuse it wherever its flags would be read (R31). -/
def State.flags (s : State) (r : BitVec 4) (x : Fin 16) : Flags :=
  (s.vp[r.toNat]?.getD (Vector.replicate 16 ⟨false, false, false⟩))[x.val]

/-- General register `r` (R7, R32): register 0 reads as zero where it is hard-wired. -/
def State.gpr (s : State) (r : BitVec 6) : Word :=
  if s.env.gpr0Zero ∧ r = 0#6 then 0#64 else s.x[r.toNat]'(r.isLt)

/-- The mask bit `VM(x)` (R122). PSIG is a fresh draw for each element (R131; log entry 8). -/
def State.mask (s : State) (p : Pred) (x : Fin 16) : Bool :=
  condTest p.cond (s.flags p.vpn x) (Config.signal s.count x.val)

/-- Whether element `x` is active: below `VL`, its mask bit true (R125). -/
def State.active (s : State) (p : Pred) (x : Fin 16) : Bool := decide (x.val < s.vl.val) && s.mask p x

/-! ## The element operations -/

/-- Addition: modulo 2^64, or `FAdd` (R135, R140). -/
def addOp (t : BitVec 3) (a b : Word) : Word := if t = 0#3 then a + b else Config.fAdd t a b

/-- Subtraction: modulo 2^64, or `FSub` (R135, R142). -/
def subOp (t : BitVec 3) (a b : Word) : Word := if t = 0#3 then a - b else Config.fSub t a b

/-- Reverse subtraction: the second operand less the first (R144). -/
def revSubOp (t : BitVec 3) (a b : Word) : Word := subOp t b a

/-- Multiplication: the low 64 bits of the product, or `FMul` (R135, R145). -/
def mulOp (t : BitVec 3) (a b : Word) : Word := if t = 0#3 then a * b else Config.fMul t a b

/-- Division: `IDiv`, or `FDiv` (R135, R147). -/
def divOp (t : BitVec 3) (a b : Word) : Word := if t = 0#3 then Config.iDiv a b else Config.fDiv t a b

/-- The sign, inverted where asked (R149). -/
def negateIf (c : Bool) (a : Word) : Word := if c then -a else a

/-- Multiply and accumulate with sign controls (R149). -/
def macOp (t : BitVec 3) (sg : Signs) (a b c : Word) : Word :=
  if t = 0#3 then negateIf sg.nr (negateIf sg.na a * negateIf sg.nb b + negateIf sg.nc c)
  else Config.fMac t sg a b c

/-- The sign controls of a value of `Sn` (R149): none for 0; otherwise what `SnDecode` says. Without `SnDecode` a non-zero value
is refused by the static checks before its signs are looked up. -/
def signsOf (table : Option (Vector Signs 31)) (sn : BitVec 5) : Signs :=
  if sn = 0#5 then Signs.plain
  else (table.bind fun v => v[sn.toNat - 1]?).getD Signs.plain

/-- The 64-bit number whose bit `k` is `f k`, for the low `n` bits. -/
def packBits (f : Nat → Bool) : Nat → Word
  | 0 => 0#64
  | n + 1 => packBits f n ||| (if f n then BitVec.twoPow 64 n else 0#64)

/-- What V2BITS leaves in its target (R196): bit `k` is the least significant bit of element `k` where that element is active, and
a draw everywhere else. -/
def boolBits (s : State) (p : Pred) (va : BitVec 6) : Word :=
  packBits (fun k =>
    if h : k < 16 then
      if s.active p ⟨k, h⟩ then (s.elem va ⟨k, h⟩).getLsbD 0 else (Config.freeBits s.count).getLsbD k
    else (Config.freeBits s.count).getLsbD k) 64

/-- One bit as the 64-bit number 0 or 1 (R195). -/
def bitWord (a : Word) (k : Nat) : Word := if a.getLsbD k then 1#64 else 0#64

end Sys2Proof.Machine
end

