-- ==== Sys2Proof/Machine/Static.lean ====
section
/-! DEFINITION. The static checks (R134): what makes an instruction refused on its fields alone, before it has any effect, and in
which order the reasons are looked for. -/

namespace Sys2Proof.Machine

/-- The operand types of the arithmetic instructions and the compares (R88, R127): 0, 1, 2; 4 is Float quad. -/
def arithmeticType (t : BitVec 3) : Option StaticRefusal :=
  if t = 0#3 ∨ t = 1#3 ∨ t = 2#3 then none
  else if t = 4#3 then some .quadNotRepresentable
  else some .reservedType

/-- The operand type of the logical instructions (R88): 0 alone. -/
def logicalType (t : BitVec 3) : Option StaticRefusal := if t = 0#3 then none else some .reservedType

/-- Check 4 of R134: the type is legal for the instruction and representable. -/
def typeCheck : Instr → Option StaticRefusal
  | .vadd _ t .. | .vadds _ t .. | .vsub _ t .. | .vsubs _ t .. | .vsubrs _ t .. => arithmeticType t
  | .vmul _ t .. | .vmuls _ t .. | .vdiv _ t .. | .vdivs _ t .. | .vmac _ _ t .. => arithmeticType t
  | .vcmp _ t .. | .vcmps _ t .. => arithmeticType t
  | .vand _ t .. | .vands _ t .. | .vor _ t .. | .vors _ t .. | .veor _ t .. | .veors _ t .. => logicalType t
  | .vrec .. | .vex .. | .veins .. | .vshlv .. | .vshrv .. | .vbits2v .. | .v2bits .. => none
  | .vflt2int .. | .vint2flt .. | .lv .. | .lvws .. | .lvx .. | .sv .. | .svws .. | .svx .. => none

/-- The vector register fields of an instruction (R85). -/
def vectorFields : Instr → List (BitVec 6)
  | .vadd _ _ vt va vb | .vsub _ _ vt va vb | .vmul _ _ vt va vb | .vdiv _ _ vt va vb => [vt, va, vb]
  | .vand _ _ vt va vb | .vor _ _ vt va vb | .veor _ _ vt va vb => [vt, va, vb]
  | .vadds _ _ vt va _ | .vsubs _ _ vt va _ | .vsubrs _ _ vt va _ | .vmuls _ _ vt va _ | .vdivs _ _ vt va _ => [vt, va]
  | .vands _ _ vt va _ | .vors _ _ vt va _ | .veors _ _ vt va _ => [vt, va]
  | .vmac _ _ _ vt va vb vc => [vt, va, vb, vc]
  | .vrec _ vt va | .vflt2int _ vt va | .vint2flt _ vt va => [vt, va]
  | .vcmp _ _ _ va vb => [va, vb]
  | .vcmps _ _ _ va _ => [va]
  | .vex _ _ va _ => [va]
  | .veins _ vt _ _ => [vt]
  | .vshlv _ vt va _ | .vshrv _ vt va _ => [vt, va]
  | .vbits2v _ vt _ => [vt]
  | .v2bits _ _ va => [va]
  | .lv _ _ vt _ | .lvws _ _ vt _ _ => [vt]
  | .lvx _ _ vt _ vb => [vt, vb]
  | .sv _ _ vs _ | .svws _ _ vs _ _ => [vs]
  | .svx _ _ vs _ vb => [vs, vb]

/-- The target predicate register field of the compares (R85). -/
def targetPredicate : Instr → Option (BitVec 4)
  | .vcmp _ _ vpt _ _ | .vcmps _ _ vpt _ _ => some vpt
  | .vadd .. | .vadds .. | .vsub .. | .vsubs .. | .vsubrs .. | .vmul .. | .vmuls .. | .vdiv .. | .vdivs .. => none
  | .vmac .. | .vrec .. | .vand .. | .vands .. | .vor .. | .vors .. | .veor .. | .veors .. => none
  | .vex .. | .veins .. | .vshlv .. | .vshrv .. | .vbits2v .. | .v2bits .. | .vflt2int .. | .vint2flt .. => none
  | .lv .. | .lvws .. | .lvx .. | .sv .. | .svws .. | .svx .. => none

/-- Check 5 of R134, first part: every vector register field names one of the eight registers (R23). -/
def vectorCheck (i : Instr) : Option StaticRefusal :=
  if (vectorFields i).all (fun r => decide (r.toNat < 8)) then none else some .vectorRegisterOutOfRange

/-- Check 5 of R134, second part: `Vpt`, and `Vpn` where the condition reads flags, name one of the eight predicate registers
(R31). -/
def predicateCheck (i : Instr) : Option StaticRefusal :=
  if (targetPredicate i).all (fun r => decide (r.toNat < 8)) && (!i.pred.cond.readsFlags || decide (i.pred.vpn.toNat < 8)) then
    none
  else some .predicateRegisterOutOfRange

/-- The five instructions whose format labels the field `Pn` (R124). -/
def isPn : Instr → Bool
  | .vbits2v .. | .veins .. | .vex .. | .vshlv .. | .vshrv .. => true
  | .vadd .. | .vadds .. | .vsub .. | .vsubs .. | .vsubrs .. | .vmul .. | .vmuls .. | .vdiv .. | .vdivs .. => false
  | .vmac .. | .vrec .. | .vand .. | .vands .. | .vor .. | .vors .. | .veor .. | .veors .. => false
  | .vcmp .. | .vcmps .. | .v2bits .. | .vflt2int .. | .vint2flt .. => false
  | .lv .. | .lvws .. | .lvx .. | .sv .. | .svws .. | .svx .. => false

/-- Check 6 of R134: a `Pn` instruction stands under the byte 01h or 90h (R124). -/
def pnCheck (i : Instr) : Option StaticRefusal :=
  if isPn i && !(i.pred.byte == 0x01#8 || i.pred.byte == 0x90#8) then some .pnReadingOpen else none

/-- Checks 7 and 8 of R134: VMAC's sign control can be decoded (R149), and a shift's target is not its source (R193, R194). -/
def ownCheck (snSupplied : Bool) : Instr → Option StaticRefusal
  | .vmac _ sn .. => if sn = 0#5 ∨ snSupplied then none else some .snNotDecoded
  | .vshlv _ vt va _ | .vshrv _ vt va _ => if vt = va then some .shiftAliasing else none
  | .vadd .. | .vadds .. | .vsub .. | .vsubs .. | .vsubrs .. | .vmul .. | .vmuls .. | .vdiv .. | .vdivs .. => none
  | .vrec .. | .vand .. | .vands .. | .vor .. | .vors .. | .veor .. | .veors .. | .vcmp .. | .vcmps .. => none
  | .vex .. | .veins .. | .vbits2v .. | .v2bits .. | .vflt2int .. | .vint2flt .. => none
  | .lv .. | .lvws .. | .lvx .. | .sv .. | .svws .. | .svx .. => none

/-- The static checks in the order of R134: the first that fails, if any. Checks 2 and 3 are about bits that an instruction as
data does not have; decoding looks at them (R86, R91). `snSupplied` says whether `SnDecode` is supplied. -/
def staticCheck (snSupplied : Bool) (i : Instr) : Option StaticRefusal :=
  i.pred.reject.or <| (typeCheck i).or <| (vectorCheck i).or <| (predicateCheck i).or <| (pnCheck i).or (ownCheck snSupplied i)

end Sys2Proof.Machine
end

