-- ==== Sys2Proof/Machine/Ops.lean ====
section
/-! DEFINITION. The named operations over memory and registers, the skeleton every instruction runs in (R120), taking an exception
(R231, R234, R238), and the common procedure of the vector loads and stores (R210). -/

namespace Sys2Proof.Machine

/-! ## Memory -/

/-- The byte at an address, where it holds a value (R50, R52). -/
def Memory.read : Memory → Nat → Option Byte
  | [], _ => none
  | c :: m, a => if c.1 = a then some c.2 else Memory.read m a

/-- One byte written; the canonical form is kept. -/
def Memory.write : Memory → Nat → Byte → Memory
  | [], a, b => [(a, b)]
  | c :: m, a, b =>
    if a < c.1 then (a, b) :: c :: m
    else if a = c.1 then (a, b) :: m
    else c :: Memory.write m a b

/-- The addresses rise strictly, from `lo` on, below 2^64. -/
def Memory.risesFrom : Nat → Memory → Bool
  | _, [] => true
  | lo, c :: m => decide (lo ≤ c.1) && decide (c.1 < 2 ^ 64) && Memory.risesFrom (c.1 + 1) m

/-- The canonical form of memory: strictly rising addresses of the 64-bit address space. An unlisted byte holds no value, so no
entry can equal what an unlisted address reads as. -/
def Memory.wf (m : Memory) : Bool := Memory.risesFrom 0 m

/-- The 64-bit datum at an address, little-endian (R51, R52); none where one of its bytes holds no value. -/
def Memory.readWord (m : Memory) (a : Nat) : Option Word :=
  (m.read a).bind fun b0 => (m.read (a + 1)).bind fun b1 => (m.read (a + 2)).bind fun b2 => (m.read (a + 3)).bind fun b3 =>
  (m.read (a + 4)).bind fun b4 => (m.read (a + 5)).bind fun b5 => (m.read (a + 6)).bind fun b6 => (m.read (a + 7)).bind fun b7 =>
  some (b7 ++ b6 ++ b5 ++ b4 ++ b3 ++ b2 ++ b1 ++ b0 : BitVec 64)

/-- Byte `k` of a 64-bit datum, byte 0 lowest (R51). -/
def byteOf (w : Word) (k : Nat) : Byte := w.extractLsb' (8 * k) 8

/-- The 64-bit datum written at an address, little-endian (R51, R53). -/
def Memory.writeWord (m : Memory) (a : Nat) (w : Word) : Memory :=
  (List.range 8).foldl (fun m k => m.write (a + k) (byteOf w k)) m

/-! ## The launch record -/

/-- Whether an address lies in a range. -/
def ByteRange.has (r : ByteRange) (a : Nat) : Bool := decide (r.lo ≤ a) && decide (a < r.lo + r.size)

/-- Whether an address lies in a range of text bytes, from which instructions are decoded (R66, R100). -/
def Env.inTextBytes (e : Env) (a : Nat) : Bool := e.text.any fun r => r.has a

/-- Whether a byte is program text (R66): in a range of text bytes, or covered by an instruction of the listing (R260). -/
def Env.inText (e : Env) (a : Nat) : Bool :=
  e.inTextBytes a ||
  e.listing.any (fun l => decide (l.1.toNat ≤ a) && decide (a < l.1.toNat + l.2.ilen))

/-- Whether the eight bytes at an address meet the program text (R53, R210). -/
def Env.meetsText (e : Env) (a : Nat) : Bool := (List.range 8).any fun k => e.inText (a + k)

/-- Whether the eight bytes at an address are all allocated (R59, R231). -/
def Env.allocated (e : Env) (a : Nat) : Bool := (List.range 8).all fun k => e.alloc.any fun r => r.has (a + k)

/-- `SegMap` (R57): an address, or none for LMT. Flat where no row applies. -/
def Env.segMap (e : Env) (seg : BitVec 3) (off : Word) : Option Word :=
  match e.segRules.find? (fun r => r.seg == seg && decide (r.lo ≤ off) && decide (off ≤ r.hi)) with
  | some r => r.base.map fun b => b + (off - r.lo)
  | none => some off

/-- `MemFault` (R231): DBE outside the allocated bytes where no row applies. -/
def Env.memFault (e : Env) (kind : AccessKind) (a : Word) : Option BusFault :=
  match e.memRules.find? (fun r => decide (r.kind = kind) && decide (r.lo ≤ a) && decide (a ≤ r.hi)) with
  | some r => r.answer
  | none => if e.allocated a.toNat then none else some .dbe

/-! ## Registers -/

/-- General register `r` written (R7); a write of register 0 is discarded where it is hard-wired (R32). -/
def State.setGpr (s : State) (r : BitVec 6) (w : Word) : State :=
  if s.env.gpr0Zero ∧ r = 0#6 then s else { s with x := s.x.set r.toNat w r.isLt }

/-- Vector register `r` replaced. -/
def State.setV (s : State) (r : BitVec 6) (w : VReg) : State := { s with v := s.v.setIfInBounds r.toNat w }

/-- Vector predicate register `r` replaced. -/
def State.setP (s : State) (r : BitVec 4) (w : PReg) : State := { s with vp := s.vp.setIfInBounds r.toNat w }

/-- Memory replaced. -/
def State.setMem (s : State) (m : Memory) : State := { s with mem := m }

/-- The elements that `written` selects are written, every other keeps its value (R25). All of `value` is read from the state
before any element is written (R133). -/
def State.writeElems (s : State) (r : BitVec 6) (written : Fin 16 → Bool) (value : Fin 16 → Word) : State :=
  s.setV r (Vector.ofFn fun x => if written x then value x else s.elem r x)

/-- The flags that `written` selects are written, every other element keeps all three (R25, R180). -/
def State.writeFlags (s : State) (r : BitVec 4) (written : Fin 16 → Bool) (value : Fin 16 → Flags) : State :=
  s.setP r (Vector.ofFn fun x => if written x then value x else s.flags r x)

/-! ## The step of one instruction -/

/-- An instruction completes: the program counter moves past it (R34, R120, R129), and the model counts it, which uses up its
draws (log entry 8). Under the always-false byte nothing else happens (R130). -/
def State.retire (s : State) (i : Instr) : State :=
  { s with pc := s.pc + BitVec.ofNat 64 i.ilen, count := s.count + 1 }

/-- The skeleton of rule R120: the static checks, then the always-false condition, then the instruction's own effect. -/
def perform (i : Instr) (s : State) (effect : Result) : Result :=
  match staticCheck s.env.snDecode.isSome i with
  | some r => .refused (.static r)
  | none => if i.pred.cond = .pf then .next (s.retire i) else effect

/-- An instruction that writes `value x` to every active element `x` of a vector register (R125). -/
def writeVector (i : Instr) (r : BitVec 6) (value : Fin 16 → Word) (s : State) : Result :=
  perform i s (.next ((s.writeElems r (s.active i.pred) value).retire i))

/-- An instruction that writes `value x` to every active element `x` of a vector predicate register (R125, R180). -/
def writePredicate (i : Instr) (r : BitVec 4) (value : Fin 16 → Flags) (s : State) : Result :=
  perform i s (.next ((s.writeFlags r (s.active i.pred) value).retire i))

/-! ## Exceptions -/

/-- TAKING AN EXCEPTION (R231, R234, R238): terminal. The fault records the cause, the address of the instruction, which is not
advanced, the element, the recorded address, and the state left behind. The spec names no register that receives any of it and no
return from an exception (R239). -/
def takeException (s : State) (cause : Cause) (elem : Fin 16) (addr : Word) (after : State) : Result :=
  .fault (.exception cause s.pc elem addr after)

/-! ## The common procedure of the vector loads and stores -/

/-- The access of one active element: its offset, and its address, none for LMT (R210). -/
structure Access where
  elem : Fin 16
  off  : Word
  addr : Option Word
  deriving DecidableEq, Repr

/-- The accesses of the active elements, lowest element first (R210). -/
def accesses (s : State) (p : Pred) (seg : BitVec 3) (off : Fin 16 → Word) : List Access :=
  ((List.finRange 16).filter fun x => s.active p x).map fun x => ⟨x, off x, s.env.segMap seg (off x)⟩

/-- Whether an access has an address that is not a multiple of 8 (R55). -/
def Access.misaligned (c : Access) : Bool :=
  match c.addr with
  | some a => decide (a.toNat % 8 ≠ 0)
  | none => false

/-- Whether the bytes of an access meet the program text (R66). -/
def Access.meetsText (e : Env) (c : Access) : Bool :=
  match c.addr with
  | some a => e.meetsText a.toNat
  | none => false

/-- The cause a fault of the environment stands for (R231). -/
def BusFault.cause : BusFault → Cause
  | .dbe => .dbe
  | .dbg => .dbg
  | .tlb => .tlb

/-- The exception of an access, if any (R231, R237): LMT first, then what the environment reports. -/
def Access.cause (e : Env) (kind : AccessKind) (c : Access) : Option Cause :=
  match c.addr with
  | none => some .lmt
  | some a => (e.memFault kind a).map BusFault.cause

/-- The address an exception of an access records (R231): the offset for LMT, the address otherwise. -/
def Access.recorded (c : Access) : Word := c.addr.getD c.off

/-- The datum an access loads, where its bytes all hold a value (R52). -/
def Access.loaded (m : Memory) (c : Access) : Option Word := c.addr.bind fun a => m.readWord a.toNat

/-- The faulting accesses, each with its cause (the set `F` of R210). -/
def faulting (e : Env) (kind : AccessKind) (cs : List Access) : List (Access × Cause) :=
  cs.filterMap fun c => (c.cause e kind).map fun k => (c, k)

/-- The accesses that do not fault and that the draw says were performed before the exception (R218). -/
def partlyDone (s : State) (kind : AccessKind) (cs : List Access) : List Access :=
  cs.filter fun c => (c.cause s.env kind).isNone && Config.partialDraw s.count c.elem.val

/-- A member of a list that a draw chooses; the draw is not looked at where there is no choice. -/
def chooseOne {α : Type} (draw : Nat) (xs : List α) : Option α :=
  match xs with
  | [] => none
  | [y] => some y
  | ys => ys[draw % ys.length]?

/-- The loads of some accesses performed (R210): each of their elements takes the datum loaded; every other element, and one whose
bytes hold no value, keeps its own. -/
def State.loadElems (s : State) (r : BitVec 6) (cs : List Access) : State :=
  s.setV r (Vector.ofFn fun x =>
    match cs.find? (fun c => c.elem == x) with
    | some c => (c.loaded s.mem).getD (s.elem r x)
    | none => s.elem r x)

/-- Which of the accesses that store to one address survives: a draw among them (R63). -/
def survivor (s : State) (cs : List Access) (c : Access) (a : Word) : Access :=
  (chooseOne (Config.storeDraw s.count a) (cs.filter fun d => d.addr == some a)).getD c

/-- The stores of some accesses performed (R210): the bytes at each address take the element of the access that survives there
(R63). All elements are read from `s`. -/
def State.storeElems (s : State) (r : BitVec 6) (cs : List Access) : State :=
  s.setMem (cs.foldl (fun m c =>
    match c.addr with
    | some a => m.writeWord a.toNat (s.elem r (survivor s cs c a).elem)
    | none => m) s.mem)

/-- `VecMem` of rule R210 for a load: refusals over all active elements, then exceptions, then the accesses. A byte that holds no
value faults where no exception was raised (R52; DESIGN CHOICE, log entry 4). -/
def vecLoad (i : Instr) (seg : BitVec 3) (vt : BitVec 6) (off : Fin 16 → Word) (s : State) : Result :=
  perform i s <|
    let cs := accesses s i.pred seg off
    if cs.any Access.misaligned then .refused .misalignedAccess
    else
      match chooseOne (Config.faultDraw s.count) (faulting s.env .load cs) with
      | some f => takeException s f.2 f.1.elem f.1.recorded (s.loadElems vt (partlyDone s .load cs))
      | none =>
        if cs.all (fun c => (c.loaded s.mem).isSome) then .next ((s.loadElems vt cs).retire i)
        else .fault .noValue

/-- `VecMem` of rule R210 for a store: refusals over all active elements, then exceptions, then the accesses. -/
def vecStore (i : Instr) (seg : BitVec 3) (vs : BitVec 6) (off : Fin 16 → Word) (s : State) : Result :=
  perform i s <|
    let cs := accesses s i.pred seg off
    if cs.any Access.misaligned then .refused .misalignedAccess
    else if cs.any (Access.meetsText s.env) then .refused .storeToProgramText
    else
      match chooseOne (Config.faultDraw s.count) (faulting s.env .store cs) with
      | some f => takeException s f.2 f.1.elem f.1.recorded (s.storeElems vs (partlyDone s .store cs))
      | none => .next ((s.storeElems vs cs).retire i)

/-! ## Offsets -/

/-- The offset of element `x` with unit stride: base and 8 times `x`, modulo 2^64 (R58, R211, R214). -/
def unitOffset (base : Word) (x : Fin 16) : Word := base + 8#64 * BitVec.ofNat 64 x.val

/-- The offset of element `x` with a stride in bytes, modulo 2^64 (R58, R212, R215). -/
def strideOffset (base stride : Word) (x : Fin 16) : Word := base + stride * BitVec.ofNat 64 x.val

/-- The offset of element `x` from a vector of byte offsets, modulo 2^64 (R58, R213, R216). -/
def indexOffset (s : State) (base : Word) (vb : BitVec 6) (x : Fin 16) : Word := base + s.elem vb x

/-! ## The end of a run -/

/-- Whether the run has ended normally (R262): an instruction has completed and the program counter is the end address. -/
def State.ended (s : State) : Bool := decide (0 < s.count) && decide (s.env.endAddr = some s.pc)

/-! ## The environment -/

/-- The environment action `SetVL` (R27). -/
def State.setVL (s : State) (n : Fin 17) : State := { s with vl := n }

/-- The environment's action that is due (R27): the first of its schedule, once as many instructions have completed as it waits
for (log entry 12). -/
def State.actionDue (s : State) : Option SetVLAction := s.pendingVL.head?.filter fun a => decide (a.after ≤ s.count)

/-- The action is taken and leaves the schedule (R27). -/
def State.takeAction (s : State) (a : SetVLAction) : State := { s.setVL a.vl with pendingVL := s.pendingVL.tail }

end Sys2Proof.Machine
end

