-- ==== Sys2Proof/Machine/Arithmetic.lean ====
section
/-! DEFINITION. The arithmetic instructions (41_arithmetic.md). -/

namespace Sys2Proof.Machine

/-- VADD (R140). -/
def execVadd (p : Pred) (t : BitVec 3) (vt va vb : BitVec 6) (s : State) : Result :=
  writeVector (.vadd p t vt va vb) vt (fun x => addOp t (s.elem va x) (s.elem vb x)) s

/-- VADDS (R141). -/
def execVadds (p : Pred) (t : BitVec 3) (vt va rb : BitVec 6) (s : State) : Result :=
  writeVector (.vadds p t vt va rb) vt (fun x => addOp t (s.elem va x) (s.gpr rb)) s

/-- VSUB (R142). -/
def execVsub (p : Pred) (t : BitVec 3) (vt va vb : BitVec 6) (s : State) : Result :=
  writeVector (.vsub p t vt va vb) vt (fun x => subOp t (s.elem va x) (s.elem vb x)) s

/-- VSUBS (R143). -/
def execVsubs (p : Pred) (t : BitVec 3) (vt va rb : BitVec 6) (s : State) : Result :=
  writeVector (.vsubs p t vt va rb) vt (fun x => subOp t (s.elem va x) (s.gpr rb)) s

/-- VSUBRS (R144). -/
def execVsubrs (p : Pred) (t : BitVec 3) (vt va rb : BitVec 6) (s : State) : Result :=
  writeVector (.vsubrs p t vt va rb) vt (fun x => revSubOp t (s.elem va x) (s.gpr rb)) s

/-- VMUL (R145). -/
def execVmul (p : Pred) (t : BitVec 3) (vt va vb : BitVec 6) (s : State) : Result :=
  writeVector (.vmul p t vt va vb) vt (fun x => mulOp t (s.elem va x) (s.elem vb x)) s

/-- VMULS (R146). -/
def execVmuls (p : Pred) (t : BitVec 3) (vt va rb : BitVec 6) (s : State) : Result :=
  writeVector (.vmuls p t vt va rb) vt (fun x => mulOp t (s.elem va x) (s.gpr rb)) s

/-- VDIV (R147). -/
def execVdiv (p : Pred) (t : BitVec 3) (vt va vb : BitVec 6) (s : State) : Result :=
  writeVector (.vdiv p t vt va vb) vt (fun x => divOp t (s.elem va x) (s.elem vb x)) s

/-- VDIVS (R148). -/
def execVdivs (p : Pred) (t : BitVec 3) (vt va rb : BitVec 6) (s : State) : Result :=
  writeVector (.vdivs p t vt va rb) vt (fun x => divOp t (s.elem va x) (s.gpr rb)) s

/-- VMAC (R149). -/
def execVmac (p : Pred) (sn : BitVec 5) (t : BitVec 3) (vt va vb vc : BitVec 6) (s : State) : Result :=
  writeVector (.vmac p sn t vt va vb vc) vt
    (fun x => macOp t (signsOf s.env.snDecode sn) (s.elem va x) (s.elem vb x) (s.elem vc x)) s

/-- VREC (R150). -/
def execVrec (p : Pred) (vt va : BitVec 6) (s : State) : Result :=
  writeVector (.vrec p vt va) vt (fun x => Config.recip (s.elem va x)) s

end Sys2Proof.Machine
end

