-- ==== Sys2Proof/Machine/Compare.lean ====
section
/-! DEFINITION. The compare instructions (43_compare.md). -/

namespace Sys2Proof.Machine

/-- VCMP (R181). -/
def execVcmp (p : Pred) (t : BitVec 3) (vpt : BitVec 4) (va vb : BitVec 6) (s : State) : Result :=
  writePredicate (.vcmp p t vpt va vb) vpt (fun x => compareFlags t (s.elem va x) (s.elem vb x)) s

/-- VCMPS (R182). -/
def execVcmps (p : Pred) (t : BitVec 3) (vpt : BitVec 4) (va rb : BitVec 6) (s : State) : Result :=
  writePredicate (.vcmps p t vpt va rb) vpt (fun x => compareFlags t (s.elem va x) (s.gpr rb)) s

end Sys2Proof.Machine
end

