-- ==== Sys2Proof/Machine/LoadStore.lean ====
section
/-! DEFINITION. The vector loads and stores (45_load_store.md), each over the common procedure of R210. -/

namespace Sys2Proof.Machine

/-- LV (R211). -/
def execLv (p : Pred) (seg : BitVec 3) (vt ra : BitVec 6) (s : State) : Result :=
  vecLoad (.lv p seg vt ra) seg vt (unitOffset (s.gpr ra)) s

/-- LVWS (R212). -/
def execLvws (p : Pred) (seg : BitVec 3) (vt ra rb : BitVec 6) (s : State) : Result :=
  vecLoad (.lvws p seg vt ra rb) seg vt (strideOffset (s.gpr ra) (s.gpr rb)) s

/-- LVX (R213). -/
def execLvx (p : Pred) (seg : BitVec 3) (vt ra vb : BitVec 6) (s : State) : Result :=
  vecLoad (.lvx p seg vt ra vb) seg vt (indexOffset s (s.gpr ra) vb) s

/-- SV (R214). -/
def execSv (p : Pred) (seg : BitVec 3) (vs ra : BitVec 6) (s : State) : Result :=
  vecStore (.sv p seg vs ra) seg vs (unitOffset (s.gpr ra)) s

/-- SVWS (R215). -/
def execSvws (p : Pred) (seg : BitVec 3) (vs ra rb : BitVec 6) (s : State) : Result :=
  vecStore (.svws p seg vs ra rb) seg vs (strideOffset (s.gpr ra) (s.gpr rb)) s

/-- SVX (R216). -/
def execSvx (p : Pred) (seg : BitVec 3) (vs ra vb : BitVec 6) (s : State) : Result :=
  vecStore (.svx p seg vs ra vb) seg vs (indexOffset s (s.gpr ra) vb) s

end Sys2Proof.Machine
end

