-- ==== Sys2Proof/Machine/Logical.lean ====
section
/-! DEFINITION. The logical instructions (42_logical.md). -/

namespace Sys2Proof.Machine

/-- VAND (R170). -/
def execVand (p : Pred) (t : BitVec 3) (vt va vb : BitVec 6) (s : State) : Result :=
  writeVector (.vand p t vt va vb) vt (fun x => s.elem va x &&& s.elem vb x) s

/-- VANDS (R171). -/
def execVands (p : Pred) (t : BitVec 3) (vt va rb : BitVec 6) (s : State) : Result :=
  writeVector (.vands p t vt va rb) vt (fun x => s.elem va x &&& s.gpr rb) s

/-- VOR (R172). -/
def execVor (p : Pred) (t : BitVec 3) (vt va vb : BitVec 6) (s : State) : Result :=
  writeVector (.vor p t vt va vb) vt (fun x => s.elem va x ||| s.elem vb x) s

/-- VORS (R173). -/
def execVors (p : Pred) (t : BitVec 3) (vt va rb : BitVec 6) (s : State) : Result :=
  writeVector (.vors p t vt va rb) vt (fun x => s.elem va x ||| s.gpr rb) s

/-- VEOR (R174). -/
def execVeor (p : Pred) (t : BitVec 3) (vt va vb : BitVec 6) (s : State) : Result :=
  writeVector (.veor p t vt va vb) vt (fun x => s.elem va x ^^^ s.elem vb x) s

/-- VEORS (R175). -/
def execVeors (p : Pred) (t : BitVec 3) (vt va rb : BitVec 6) (s : State) : Result :=
  writeVector (.veors p t vt va rb) vt (fun x => s.elem va x ^^^ s.gpr rb) s

end Sys2Proof.Machine
end

