-- ==== Sys2Proof/Machine/MoveConvert.lean ====
section
/-! DEFINITION. The element move, shift, bit and conversion instructions (44_move_convert.md). The five `Pn` instructions run
under the byte 01h, where every mask bit is true (R124, R190). -/

namespace Sys2Proof.Machine

/-- VEX, alias VMOVS (R191). -/
def execVex (p : Pred) (rt va ra : BitVec 6) (s : State) : Result :=
  perform (.vex p rt va ra) s <|
    if h : (s.gpr ra).toNat < 16 then .next ((s.setGpr rt (s.elem va ⟨(s.gpr ra).toNat, h⟩)).retire (.vex p rt va ra))
    else .refused .elementIndexOutOfRange

/-- VEINS, alias VMOVSV (R192). -/
def execVeins (p : Pred) (vt rb ra : BitVec 6) (s : State) : Result :=
  perform (.veins p vt rb ra) s <|
    if (s.gpr ra).toNat < 16 then
      .next ((s.writeElems vt (fun x => x.val == (s.gpr ra).toNat) (fun _ => s.gpr rb)).retire (.veins p vt rb ra))
    else .refused .elementIndexOutOfRange

/-- VSHLV (R193): elements 1 to `n` take their lower neighbour of the source, element 0 takes zero. -/
def execVshlv (p : Pred) (vt va ra : BitVec 6) (s : State) : Result :=
  perform (.vshlv p vt va ra) s <|
    if (s.gpr ra).toNat ≤ 15 then
      .next ((s.writeElems vt (fun x => decide (x.val ≤ (s.gpr ra).toNat))
        (fun x => if x.val = 0 then 0#64 else s.elem va (x - 1))).retire (.vshlv p vt va ra))
    else .refused .shiftCountOutOfRange

/-- VSHRV (R194): elements 0 to `n - 2` take their upper neighbour of the source, element `n - 1` takes zero. -/
def execVshrv (p : Pred) (vt va ra : BitVec 6) (s : State) : Result :=
  perform (.vshrv p vt va ra) s <|
    if 1 ≤ (s.gpr ra).toNat ∧ (s.gpr ra).toNat ≤ 16 then
      .next ((s.writeElems vt (fun x => decide (x.val < (s.gpr ra).toNat))
        (fun x => if x.val + 1 = (s.gpr ra).toNat then 0#64 else s.elem va (x + 1))).retire (.vshrv p vt va ra))
    else .refused .shiftCountOutOfRange

/-- VBITS2V (R195). -/
def execVbits2v (p : Pred) (vt ra : BitVec 6) (s : State) : Result :=
  writeVector (.vbits2v p vt ra) vt (fun x => bitWord (s.gpr ra) x.val) s

/-- V2BITS (R196). -/
def execV2bits (p : Pred) (rt va : BitVec 6) (s : State) : Result :=
  perform (.v2bits p rt va) s (.next ((s.setGpr rt (boolBits s p va)).retire (.v2bits p rt va)))

/-- VFLT2INT (R197). -/
def execVflt2int (p : Pred) (vt va : BitVec 6) (s : State) : Result :=
  writeVector (.vflt2int p vt va) vt (fun x => Config.fltToInt (s.elem va x)) s

/-- VINT2FLT (R198). -/
def execVint2flt (p : Pred) (vt va : BitVec 6) (s : State) : Result :=
  writeVector (.vint2flt p vt va) vt (fun x => Config.intToFlt (s.elem va x)) s

end Sys2Proof.Machine
end

