-- ==== Sys2Proof/Machine/Dispatch.lean ====
section
/-! DEFINITION. The meaning of every instruction: one arm per constructor, each one call of that instruction's own definition. -/

namespace Sys2Proof.Machine

def exec (i : Instr) (s : State) : Host.Outcome State Fault Refusal :=
  match i with
  | .vadd p t vt va vb => Sys2Proof.Machine.execVadd p t vt va vb s
  | .vadds p t vt va rb => Sys2Proof.Machine.execVadds p t vt va rb s
  | .vsub p t vt va vb => Sys2Proof.Machine.execVsub p t vt va vb s
  | .vsubs p t vt va rb => Sys2Proof.Machine.execVsubs p t vt va rb s
  | .vsubrs p t vt va rb => Sys2Proof.Machine.execVsubrs p t vt va rb s
  | .vmul p t vt va vb => Sys2Proof.Machine.execVmul p t vt va vb s
  | .vmuls p t vt va rb => Sys2Proof.Machine.execVmuls p t vt va rb s
  | .vdiv p t vt va vb => Sys2Proof.Machine.execVdiv p t vt va vb s
  | .vdivs p t vt va rb => Sys2Proof.Machine.execVdivs p t vt va rb s
  | .vmac p sn t vt va vb vc => Sys2Proof.Machine.execVmac p sn t vt va vb vc s
  | .vrec p vt va => Sys2Proof.Machine.execVrec p vt va s
  | .vand p t vt va vb => Sys2Proof.Machine.execVand p t vt va vb s
  | .vands p t vt va rb => Sys2Proof.Machine.execVands p t vt va rb s
  | .vor p t vt va vb => Sys2Proof.Machine.execVor p t vt va vb s
  | .vors p t vt va rb => Sys2Proof.Machine.execVors p t vt va rb s
  | .veor p t vt va vb => Sys2Proof.Machine.execVeor p t vt va vb s
  | .veors p t vt va rb => Sys2Proof.Machine.execVeors p t vt va rb s
  | .vcmp p t vpt va vb => Sys2Proof.Machine.execVcmp p t vpt va vb s
  | .vcmps p t vpt va rb => Sys2Proof.Machine.execVcmps p t vpt va rb s
  | .vex p rt va ra => Sys2Proof.Machine.execVex p rt va ra s
  | .veins p vt rb ra => Sys2Proof.Machine.execVeins p vt rb ra s
  | .vshlv p vt va ra => Sys2Proof.Machine.execVshlv p vt va ra s
  | .vshrv p vt va ra => Sys2Proof.Machine.execVshrv p vt va ra s
  | .vbits2v p vt ra => Sys2Proof.Machine.execVbits2v p vt ra s
  | .v2bits p rt va => Sys2Proof.Machine.execV2bits p rt va s
  | .vflt2int p vt va => Sys2Proof.Machine.execVflt2int p vt va s
  | .vint2flt p vt va => Sys2Proof.Machine.execVint2flt p vt va s
  | .lv p seg vt ra => Sys2Proof.Machine.execLv p seg vt ra s
  | .lvws p seg vt ra rb => Sys2Proof.Machine.execLvws p seg vt ra rb s
  | .lvx p seg vt ra vb => Sys2Proof.Machine.execLvx p seg vt ra vb s
  | .sv p seg vs ra => Sys2Proof.Machine.execSv p seg vs ra s
  | .svws p seg vs ra rb => Sys2Proof.Machine.execSvws p seg vs ra rb s
  | .svx p seg vs ra vb => Sys2Proof.Machine.execSvx p seg vs ra vb s

end Sys2Proof.Machine
end

