-- ==== Sys2Proof/Machine/Fetch.lean ====
section
/-! DEFINITION. Finding the instruction at the program counter (R120): in the listing of an assembly-level program, or by decoding
the bytes of program text (R100). -/

namespace Sys2Proof.Machine

/-- The bytes of program text that stand from an address on, at most `n`: they end where the text ends, where a byte holds no
value (DESIGN CHOICE, log entry 19), and at the top of the address space (R34, R100). -/
def textBytes (s : State) : Nat → Nat → List Byte
  | 0, _ => []
  | n + 1, a =>
    if a < 2 ^ 64 ∧ s.env.inTextBytes a then
      match s.mem.read a with
      | some b => b :: textBytes s n (a + 1)
      | none => []
    else []

/-- The bytes decoding looks at: six, the length of the longest instruction, or as many as there are. -/
def fetchWindow (s : State) : List Byte := textBytes s 6 s.pc.toNat

/-- Whether the bytes end at the top of the address space before the instruction they begin does (R34; DEDUCED, log entry 16). Under
a platform's own rule for opcode 56h too: the bytes are then fewer than the five of its longer members. -/
def straddlesTop (s : State) (bs : List Byte) : Bool :=
  decide (s.pc.toNat + bs.length = 2 ^ 64) && (decide (bs.length < 2) || decide (bs.length < longestRow (byteAt bs 1)))

/-- The instruction at the program counter, or why there is none (R100, R120). An entry of the listing at that address stands
before the bytes (DESIGN CHOICE, log entry 17). -/
def fetch (s : State) : Decoded :=
  match s.env.listing.find? (fun l => l.1 == s.pc) with
  | some l => if s.pc.toNat + l.2.ilen ≤ 2 ^ 64 then .instr l.2 else .reject .notInScope
  | none =>
    match decode s.env.decode56 (fetchWindow s) with
    | .instr i => .instr i
    | .reject r => if r = .reservedEncoding ∧ straddlesTop s (fetchWindow s) then .reject .notInScope else .reject r

/-- Bytes written to memory from an address on. -/
def Memory.writeBytes (m : Memory) (a : Nat) : List Byte → Memory
  | [] => m
  | b :: bs => Memory.writeBytes (m.write a b) (a + 1) bs

end Sys2Proof.Machine
end

