-- ==== Sys2Proof/Machine/Step.lean ====
section
/-! DEFINITION. One step of the machine. -/

namespace Sys2Proof.Machine

/-- One step: none where the run has ended (R262), whose state is final; else an action of the environment that is due between the
instruction before and the next one (R27; log entry 12); else the instruction at the program counter (R120). -/
def step (s : State) : Host.Outcome State Fault Refusal :=
  if s.ended then .refused .runEnded
  else
    match s.actionDue with
    | some a => .next (s.takeAction a)
    | none =>
      match fetch s with
      | .instr i => exec i s
      | .reject r => .refused (.static r)

/-- The state in which the very next step runs the instruction of `nbits` bits `w`: its bytes stand at the program counter, they
are the whole program text, no environment action is pending and the run does not end here. It stands
for the load of a program from outside the machine (DESIGN CHOICE, log entry 13). -/
def State.withFetchWord (s : State) (nbits w : Nat) : State :=
  { s with
    mem := s.mem.writeBytes s.pc.toNat (tableBytes nbits w)
    env := { s.env with text := [⟨s.pc.toNat, nbits / 8⟩], listing := [], endAddr := none }
    pendingVL := [] }

end Sys2Proof.Machine
end

