-- ==== Sys2Proof/Safety.lean ====
section
/-! DEFINITION. What the statements mean by a good state, an instruction that completes, and a run that stops by nothing worse than
its end. -/

namespace Sys2Proof.Safety

open Sys2Proof.Machine

/-- The model's invariant: memory is in canonical form. -/
def Inv (s : State) : Prop := s.mem.wf = true

/-- The instruction answers a next state. -/
def Completes (i : Instr) (s : State) : Prop := ∃ t, exec i s = .next t

/-- The states the machine can come to from `s`. -/
inductive Reaches (s : State) : State → Prop where
  | refl : Reaches s s
  | step {t u : State} : Reaches s t → Machine.step t = .next u → Reaches s u

/-- No step from `s` on ends in a fault. -/
def FaultFree (s : State) : Prop := ∀ t f, Reaches s t → Machine.step t ≠ .fault f

end Sys2Proof.Safety
end

