-- ==== Sys2Proof/WellFormed.lean ====
section
/-! DEFINITION. Which instructions are well-formed: those that no static check refuses (R134). The checks themselves stand in
Machine/Static.lean. -/

namespace Sys2Proof

/-- An instruction that passes every static check on a machine without `SnDecode` (R134, R149). -/
def Instr.wellFormed (i : Instr) : Bool := (Machine.staticCheck false i).isNone

/-- An instruction that passes every static check on a machine with `SnDecode` supplied (R134, R149). -/
def Instr.wellFormedWithSn (i : Instr) : Bool := (Machine.staticCheck true i).isNone

end Sys2Proof
end

