-- ==== Sys2Proof/Certificates/Slice0/Obligations.lean ====
section
/-! DEFINITION. The statements for the provers. `Sys2Proof.Spec` says, in the spec's own terms, what the statements have in common:
when an element is active, under which predicate bytes an instruction executes, and what is unchanged between two states. -/

namespace Sys2Proof.Spec

open Sys2Proof.Machine

/-! ## When an instruction executes -/

/-- The test of each row of the Predicate Conditions table (R121), rows 12, 14 and 15 having none. -/
def Holds (c : Cond) (f : Flags) (signal : Bool) : Prop :=
  match c with
  | .pf => False
  | .pt => True
  | .peq => f.eq = true
  | .pne => f.eq = false
  | .ple => f.lt = true ∨ f.eq = true
  | .pgt => f.lt = false ∧ f.eq = false
  | .pge => f.lt = false
  | .plt => f.lt = true
  | .pleu => f.ltu = true ∨ f.eq = true
  | .pgtu => f.ltu = false ∧ f.eq = false
  | .pgeu => f.ltu = false
  | .pltu => f.ltu = true
  | .psig => signal = true
  | .rsv12 | .rsv14 | .rsv15 => False

/-- Element `x` is active (R125): below `VL`, and the condition holds of its flags in `VP[Vpn]`. -/
def ActiveAt (s : State) (p : Pred) (x : Fin 16) : Prop :=
  x.val < s.vl.val ∧ Holds p.cond (s.flags p.vpn x) (Config.signal s.count x.val)

/-- The predicate bytes under which a masked instruction executes (R82, R90): 01h, PSIG under any `Vpn`, and conditions 2 to 11
under a `Vpn` that names a register. -/
def PredRuns (p : Pred) : Prop :=
  (p.cond = .pt ∧ p.vpn = 0#4) ∨ p.cond = .psig ∨ (2 ≤ p.cond.code.toNat ∧ p.cond.code.toNat ≤ 11 ∧ p.vpn.toNat < 8)

/-- The predicate bytes that begin a vector instruction (R82): 90h, 01h, and conditions 2 to 11 and 13 under any `Vpn`. -/
def PredLegal (p : Pred) : Prop :=
  (p.cond = .pf ∧ p.vpn = 9#4) ∨ (p.cond = .pt ∧ p.vpn = 0#4) ∨ p.cond = .psig ∨
    (2 ≤ p.cond.code.toNat ∧ p.cond.code.toNat ≤ 11)

/-- The always-true predicate byte, 01h (R82, R124). -/
def AlwaysTrue (p : Pred) : Prop := p.cond = .pt ∧ p.vpn = 0#4

/-- The types of the arithmetic instructions and the compares that have a meaning (R88, R127). -/
def TypeRuns (t : BitVec 3) : Prop := t = 0#3 ∨ t = 1#3 ∨ t = 2#3

/-- Whether a write of general register `r` is discarded (R32). -/
def HardWired (s : State) (r : BitVec 6) : Prop := s.env.gpr0Zero = true ∧ r = 0#6

/-- No action of the environment is due: the schedule is empty, or its first action waits for more instructions to complete
(R27, log entry 12). -/
def NoActionDue (s : State) : Prop := ∀ a rest, s.pendingVL = a :: rest → s.count < a.after

/-- The run has ended normally (R262): an instruction has completed and `pc` is the end address. -/
def RunEnded (s : State) : Prop := 0 < s.count ∧ s.env.endAddr = some s.pc

/-! ## The fields that the static checks look at -/

/-- The type field of the arithmetic instructions and the compares (R88, R89). -/
def arithmeticTypeOf : Instr → Option (BitVec 3)
  | .vadd _ t _ _ _ | .vadds _ t _ _ _ | .vsub _ t _ _ _ | .vsubs _ t _ _ _ | .vsubrs _ t _ _ _ => some t
  | .vmul _ t _ _ _ | .vmuls _ t _ _ _ | .vdiv _ t _ _ _ | .vdivs _ t _ _ _ => some t
  | .vmac _ _ t _ _ _ _ | .vcmp _ t _ _ _ | .vcmps _ t _ _ _ => some t
  | _ => none

/-- The type field of the logical instructions (R88). -/
def logicalTypeOf : Instr → Option (BitVec 3)
  | .vand _ t _ _ _ | .vands _ t _ _ _ | .vor _ t _ _ _ | .vors _ t _ _ _ | .veor _ t _ _ _ | .veors _ t _ _ _ => some t
  | _ => none

/-- The vector register fields of every instruction (R92 to R99). -/
def vectorNumbers : Instr → List (BitVec 6)
  | .vadd _ _ vt va vb | .vsub _ _ vt va vb | .vmul _ _ vt va vb | .vdiv _ _ vt va vb => [vt, va, vb]
  | .vadds _ _ vt va _ | .vsubs _ _ vt va _ | .vsubrs _ _ vt va _ | .vmuls _ _ vt va _ | .vdivs _ _ vt va _ => [vt, va]
  | .vmac _ _ _ vt va vb vc => [vt, va, vb, vc]
  | .vand _ _ vt va vb | .vor _ _ vt va vb | .veor _ _ vt va vb => [vt, va, vb]
  | .vands _ _ vt va _ | .vors _ _ vt va _ | .veors _ _ vt va _ => [vt, va]
  | .vcmp _ _ _ va vb => [va, vb]
  | .vcmps _ _ _ va _ => [va]
  | .vrec _ vt va | .vflt2int _ vt va | .vint2flt _ vt va => [vt, va]
  | .vex _ _ va _ => [va]
  | .veins _ vt _ _ => [vt]
  | .vshlv _ vt va _ | .vshrv _ vt va _ => [vt, va]
  | .vbits2v _ vt _ => [vt]
  | .v2bits _ _ va => [va]
  | .lv _ _ vt _ | .lvws _ _ vt _ _ => [vt]
  | .lvx _ _ vt _ vb => [vt, vb]
  | .sv _ _ vs _ | .svws _ _ vs _ _ => [vs]
  | .svx _ _ vs _ vb => [vs, vb]

/-- The target predicate register field of the compares (R94, R95). -/
def targetOf : Instr → Option (BitVec 4)
  | .vcmp _ _ vpt _ _ | .vcmps _ _ vpt _ _ => some vpt
  | _ => none

/-- The five instructions whose format labels the field `Pn` (R124). -/
def IsPn : Instr → Prop
  | .vbits2v .. | .veins .. | .vex .. | .vshlv .. | .vshrv .. => True
  | _ => False

/-- The type is legal for the instruction and representable: check 4 of R134. -/
def TypeLegal (i : Instr) : Prop :=
  (∀ t, arithmeticTypeOf i = some t → TypeRuns t) ∧ (∀ t, logicalTypeOf i = some t → t = 0#3)

/-- A predicate register field of 8 or more that is written, or that is read under conditions 2 to 11 (R31): check 5 of R134. -/
def PredicateOut (i : Instr) : Prop :=
  (∃ r, targetOf i = some r ∧ 8 ≤ r.toNat) ∨
    (2 ≤ i.pred.cond.code.toNat ∧ i.pred.cond.code.toNat ≤ 11 ∧ 8 ≤ i.pred.vpn.toNat)

/-- A `Pn` instruction under a predicate byte other than 01h and 90h (R124): check 6 of R134. -/
def PnOpen (i : Instr) : Prop := IsPn i ∧ i.pred ≠ ⟨0#4, .pt⟩ ∧ i.pred ≠ ⟨9#4, .pf⟩

/-- VMAC with an `Sn` other than 0 where no `SnDecode` is supplied (R149): check 7 of R134. -/
def SnOpen (s : State) (i : Instr) : Prop := ∃ p sn t vt va vb vc, i = .vmac p sn t vt va vb vc ∧ sn ≠ 0#5 ∧ s.env.snDecode = none

/-- VSHLV or VSHRV with one register as target and source (R193, R194): check 8 of R134. -/
def Aliased (i : Instr) : Prop := ∃ p v ra, i = .vshlv p v v ra ∨ i = .vshrv p v v ra

/-! ## What is unchanged -/

/-- Every element of every vector register but `r` is unchanged. -/
def SameVBut (s t : State) (r : BitVec 6) : Prop := ∀ q x, q ≠ r → t.elem q x = s.elem q x

/-- Every element of every vector register is unchanged. -/
def SameV (s t : State) : Prop := ∀ q x, t.elem q x = s.elem q x

/-- Every flag of every predicate register but `r` is unchanged. -/
def SamePBut (s t : State) (r : BitVec 4) : Prop := ∀ q x, q ≠ r → t.flags q x = s.flags q x

/-- Every flag of every predicate register is unchanged. -/
def SameP (s t : State) : Prop := ∀ q x, t.flags q x = s.flags q x

/-- Every general register but `r` is unchanged. -/
def SameXBut (s t : State) (r : BitVec 6) : Prop := ∀ q, q ≠ r → t.gpr q = s.gpr q

/-- Every general register is unchanged. -/
def SameX (s t : State) : Prop := ∀ q, t.gpr q = s.gpr q

/-- Every byte of memory reads as before. -/
def SameMem (s t : State) : Prop := ∀ a, t.mem.read a = s.mem.read a

/-- `VL`, the launch record and the environment's schedule are unchanged. -/
def SameRest (s t : State) : Prop := t.vl = s.vl ∧ t.env = s.env ∧ t.pendingVL = s.pendingVL

/-! ## The shapes of a result -/

/-- The instruction completes: every active element `x` of vector register `vt` takes `val x`, every other keeps its value, and
nothing else changes but the program counter, which moves on by `n`. -/
def WritesVector (s : State) (i : Instr) (n : Nat) (vt : BitVec 6) (val : Fin 16 → Word) : Prop :=
  ∃ t, exec i s = .next t ∧
    (∀ x, (ActiveAt s i.pred x → t.elem vt x = val x) ∧ (¬ ActiveAt s i.pred x → t.elem vt x = s.elem vt x)) ∧
    SameVBut s t vt ∧ SameP s t ∧ SameX s t ∧ SameMem s t ∧ SameRest s t ∧ t.pc = s.pc + BitVec.ofNat 64 n

/-- The instruction completes: every active element `x` of predicate register `vpt` takes the flags `val x`, every other keeps its
own, and nothing else changes but the program counter, which moves on by `n`. -/
def WritesPredicate (s : State) (i : Instr) (n : Nat) (vpt : BitVec 4) (val : Fin 16 → Flags) : Prop :=
  ∃ t, exec i s = .next t ∧
    (∀ x, (ActiveAt s i.pred x → t.flags vpt x = val x) ∧ (¬ ActiveAt s i.pred x → t.flags vpt x = s.flags vpt x)) ∧
    SamePBut s t vpt ∧ SameV s t ∧ SameX s t ∧ SameMem s t ∧ SameRest s t ∧ t.pc = s.pc + BitVec.ofNat 64 n

/-- The bytes of an instruction are those of a 40-bit word (R54, R107). -/
def Bytes40 (i : Instr) (w : BitVec 40) : Prop := encode i = toBytes 5 (w.setWidth 48)

/-- The bytes of an instruction are those of a 32-bit word (R54, R107). -/
def Bytes32 (i : Instr) (w : BitVec 32) : Prop := encode i = toBytes 4 (w.setWidth 48)

/-- The integer that a word stands for with its sign inverted where asked. -/
def signed (neg : Bool) (a : Word) : Int := if neg then - a.toInt else a.toInt

/-! ## Loads and stores -/

/-- The element access of each load and store (R211 to R216): its kind, its segment, its vector register and its offsets. -/
def accessOf (s : State) : Instr → Option (AccessKind × BitVec 3 × BitVec 6 × (Fin 16 → Word))
  | .lv _ seg vt ra => some (.load, seg, vt, fun x => s.gpr ra + BitVec.ofNat 64 (8 * x.val))
  | .lvws _ seg vt ra rb => some (.load, seg, vt, fun x => s.gpr ra + s.gpr rb * BitVec.ofNat 64 x.val)
  | .lvx _ seg vt ra vb => some (.load, seg, vt, fun x => s.gpr ra + s.elem vb x)
  | .sv _ seg vs ra => some (.store, seg, vs, fun x => s.gpr ra + BitVec.ofNat 64 (8 * x.val))
  | .svws _ seg vs ra rb => some (.store, seg, vs, fun x => s.gpr ra + s.gpr rb * BitVec.ofNat 64 x.val)
  | .svx _ seg vs ra vb => some (.store, seg, vs, fun x => s.gpr ra + s.elem vb x)
  | _ => none

/-- The six loads and stores. -/
def IsMemory (i : Instr) : Prop := ∀ s, (accessOf s i).isSome = true

/-- Whether the byte at `b` is one of the eight at `a`. -/
def Within (a : Word) (b : Nat) : Prop := a.toNat ≤ b ∧ b < a.toNat + 8

/-- The accesses of every active element reach memory: each offset has an address, a multiple of 8, at which the environment
reports no fault. -/
def AccessesReach (s : State) (p : Pred) (kind : AccessKind) (seg : BitVec 3) (off addr : Fin 16 → Word) : Prop :=
  ∀ x, ActiveAt s p x →
    s.env.segMap seg (off x) = some (addr x) ∧ (addr x).toNat % 8 = 0 ∧ s.env.memFault kind (addr x) = none

/-- The load completes: every active element takes the eight bytes at its address, lowest byte lowest; every other element keeps
its value; nothing else changes but the program counter. -/
def LoadsVector (s : State) (i : Instr) (n : Nat) (vt : BitVec 6) (addr : Fin 16 → Word) : Prop :=
  ∃ t, exec i s = .next t ∧
    (∀ x, (ActiveAt s i.pred x → ∀ k, k < 8 → s.mem.read ((addr x).toNat + k) = some ((t.elem vt x).extractLsb' (8 * k) 8)) ∧
      (¬ ActiveAt s i.pred x → t.elem vt x = s.elem vt x)) ∧
    SameVBut s t vt ∧ SameP s t ∧ SameX s t ∧ SameMem s t ∧ SameRest s t ∧ t.pc = s.pc + BitVec.ofNat 64 n

/-- The store completes: the eight bytes at each active element's address hold, lowest byte lowest, an active element with that
address; every other byte of memory reads as before; nothing else changes but the program counter. -/
def StoresVector (s : State) (i : Instr) (n : Nat) (vs : BitVec 6) (addr : Fin 16 → Word) : Prop :=
  ∃ t, exec i s = .next t ∧
    (∀ x, ActiveAt s i.pred x → ∃ y, ActiveAt s i.pred y ∧ addr y = addr x ∧
      ∀ k, k < 8 → t.mem.read ((addr x).toNat + k) = some ((s.elem vs y).extractLsb' (8 * k) 8)) ∧
    (∀ b, (∀ x, ActiveAt s i.pred x → ¬ Within (addr x) b) → t.mem.read b = s.mem.read b) ∧
    SameV s t ∧ SameP s t ∧ SameX s t ∧ SameRest s t ∧ t.pc = s.pc + BitVec.ofNat 64 n

/-- An active element `x` raises the exception `c` and records the address `a` (R231). -/
def Raises (s : State) (p : Pred) (kind : AccessKind) (seg : BitVec 3) (off : Fin 16 → Word) (x : Fin 16) (c : Cause) (a : Word) :
    Prop :=
  ActiveAt s p x ∧
    ((s.env.segMap seg (off x) = none ∧ c = .lmt ∧ a = off x) ∨
      (s.env.segMap seg (off x) = some a ∧
        ((s.env.memFault kind a = some .dbe ∧ c = .dbe) ∨ (s.env.memFault kind a = some .dbg ∧ c = .dbg) ∨
          (s.env.memFault kind a = some .tlb ∧ c = .tlb))))

/-- No active element with an address has one that is not a multiple of 8 or, for a store, meets the program text (R210). -/
def NotRefused (s : State) (p : Pred) (kind : AccessKind) (seg : BitVec 3) (off : Fin 16 → Word) : Prop :=
  ∀ x a, ActiveAt s p x → s.env.segMap seg (off x) = some a →
    a.toNat % 8 = 0 ∧ (kind = .store → ∀ b, Within a b → s.env.inText b = false)

/-- No static check refuses the instruction (R134) and its condition is not the always-false one. -/
def Executes (s : State) (i : Instr) : Prop := staticCheck s.env.snDecode.isSome i = none ∧ i.pred.cond ≠ .pf

/-! ## Opcode 56h -/

/-- The instructions outside opcode 56h. -/
def Outside56 : Instr → Prop
  | .vex .. | .veins .. | .vshlv .. | .vshrv .. | .v2bits .. | .vflt2int .. | .vint2flt .. | .vrec .. | .vbits2v .. => False
  | _ => True

/-- The five-byte members of opcode 56h with their field A, bits 33:28 (R97). -/
def fieldA : Instr → Option (BitVec 6)
  | .vex _ rt _ _ => some rt
  | .veins _ vt _ _ => some vt
  | .vshlv _ vt _ _ => some vt
  | .vshrv _ vt _ _ => some vt
  | .v2bits _ rt _ => some rt
  | _ => none

/-- The low four bits of field A, bits 31:28, select no four-byte member (R101). -/
def LongIsUnique (a : BitVec 6) : Prop := a.toNat % 16 ≠ 4 ∧ a.toNat % 16 ≠ 5 ∧ a.toNat % 16 ≠ 6

/-- The byte after a four-byte word, if any, selects no five-byte member in its bits 7:2 (R101). -/
def ShortIsUnique (rest : List Byte) : Prop :=
  ∀ b bs, rest = b :: bs → b.toNat / 4 ≠ 0 ∧ b.toNat / 4 ≠ 1 ∧ b.toNat / 4 ≠ 2 ∧ b.toNat / 4 ≠ 3 ∧ b.toNat / 4 ≠ 6

/-! ## Refused bytes -/

/-- The refusal of a first byte that begins no vector instruction (R82, R102): x0h other than 90h, x1h other than 01h, and the
blank conditions. -/
def firstByteRefusal (b : Byte) : Option StaticRefusal :=
  if b.toNat % 16 = 0 ∧ b.toNat ≠ 0x90 then some .notInScope
  else if b.toNat % 16 = 1 ∧ b.toNat ≠ 0x01 then some .notInScope
  else if b.toNat % 16 = 12 ∨ b.toNat % 16 = 14 ∨ b.toNat % 16 = 15 then some .reservedCondition
  else none

/-- Decoding the bytes, of which `b` is the first, is refused: for the first byte where that begins no vector instruction, as `r`
otherwise (log entry 15). -/
def RefusedAs (b : Byte) (bs : List Byte) (r : StaticRefusal) : Prop :=
  decode none (b :: bs) = .reject ((firstByteRefusal b).getD r)

/-- The length of the rows of the opcode table whose second byte is `b` (R91); opcode 56h, which has two lengths, apart. -/
def rowLength (b : Byte) : Option Nat :=
  if b.toNat / 16 = 1 then some 4
  else if b ∈ [0x52#8, 0x57#8, 0x5C#8, 0x5E#8, 0xBE#8, 0xBF#8, 0xCE#8, 0xCF#8] then some 5
  else if b = 0x5A#8 then some 6
  else if b ∈ [0xBD#8, 0xCD#8] then some 4
  else none

/-- Bits 31:28 select a four-byte member of opcode 56h (R91). -/
def ShortMember (b3 : Byte) : Prop := b3.toNat / 16 = 4 ∨ b3.toNat / 16 = 5 ∨ b3.toNat / 16 = 6

/-- Bits 39:34 select a five-byte member of opcode 56h (R91). -/
def LongMember (b4 : Byte) : Prop :=
  b4.toNat / 4 = 0 ∨ b4.toNat / 4 = 1 ∨ b4.toNat / 4 = 2 ∨ b4.toNat / 4 = 3 ∨ b4.toNat / 4 = 6

end Sys2Proof.Spec

open Sys2Proof Sys2Proof.Machine Sys2Proof.Spec

/-- VADD (R140). -/
def Obligations.VaddAddsElements : Prop :=
  ∀ (s : State) (p : Pred) (t : BitVec 3) (vt va vb : BitVec 6), PredRuns p → TypeRuns t → vt.toNat < 8 → va.toNat < 8 → vb.toNat < 8 →
    WritesVector s (.vadd p t vt va vb) 5 vt (fun x => if t = 0#3 then BitVec.ofInt 64 ((s.elem va x).toInt + (s.elem vb x).toInt) else Config.fAdd t (s.elem va x) (s.elem vb x)) ∧
    Bytes40 (.vadd p t vt va vb) (0#3 ++ t ++ vt ++ vb ++ va ++ 0x57#8 ++ (p.vpn ++ p.cond.code))

/-- VADDS (R141). -/
def Obligations.VaddsAddsScalar : Prop :=
  ∀ (s : State) (p : Pred) (t : BitVec 3) (vt va rb : BitVec 6), PredRuns p → TypeRuns t → vt.toNat < 8 → va.toNat < 8 →
    WritesVector s (.vadds p t vt va rb) 5 vt (fun x => if t = 0#3 then BitVec.ofInt 64 ((s.elem va x).toInt + (s.gpr rb).toInt) else Config.fAdd t (s.elem va x) (s.gpr rb)) ∧
    Bytes40 (.vadds p t vt va rb) (4#3 ++ t ++ vt ++ rb ++ va ++ 0x57#8 ++ (p.vpn ++ p.cond.code))

/-- VSUB (R142). -/
def Obligations.VsubSubtractsElements : Prop :=
  ∀ (s : State) (p : Pred) (t : BitVec 3) (vt va vb : BitVec 6), PredRuns p → TypeRuns t → vt.toNat < 8 → va.toNat < 8 → vb.toNat < 8 →
    WritesVector s (.vsub p t vt va vb) 5 vt (fun x => if t = 0#3 then BitVec.ofInt 64 ((s.elem va x).toInt - (s.elem vb x).toInt) else Config.fSub t (s.elem va x) (s.elem vb x)) ∧
    Bytes40 (.vsub p t vt va vb) (2#3 ++ t ++ vt ++ vb ++ va ++ 0x57#8 ++ (p.vpn ++ p.cond.code))

/-- VSUBS (R143). -/
def Obligations.VsubsSubtractsScalar : Prop :=
  ∀ (s : State) (p : Pred) (t : BitVec 3) (vt va rb : BitVec 6), PredRuns p → TypeRuns t → vt.toNat < 8 → va.toNat < 8 →
    WritesVector s (.vsubs p t vt va rb) 5 vt (fun x => if t = 0#3 then BitVec.ofInt 64 ((s.elem va x).toInt - (s.gpr rb).toInt) else Config.fSub t (s.elem va x) (s.gpr rb)) ∧
    Bytes40 (.vsubs p t vt va rb) (5#3 ++ t ++ vt ++ rb ++ va ++ 0x57#8 ++ (p.vpn ++ p.cond.code))

/-- VSUBRS (R144). -/
def Obligations.VsubrsSubtractsFromScalar : Prop :=
  ∀ (s : State) (p : Pred) (t : BitVec 3) (vt va rb : BitVec 6), PredRuns p → TypeRuns t → vt.toNat < 8 → va.toNat < 8 →
    WritesVector s (.vsubrs p t vt va rb) 5 vt (fun x => if t = 0#3 then BitVec.ofInt 64 ((s.gpr rb).toInt - (s.elem va x).toInt) else Config.fSub t (s.gpr rb) (s.elem va x)) ∧
    Bytes40 (.vsubrs p t vt va rb) (6#3 ++ t ++ vt ++ rb ++ va ++ 0x57#8 ++ (p.vpn ++ p.cond.code))

/-- VMUL (R145). -/
def Obligations.VmulMultipliesElements : Prop :=
  ∀ (s : State) (p : Pred) (t : BitVec 3) (vt va vb : BitVec 6), PredRuns p → TypeRuns t → vt.toNat < 8 → va.toNat < 8 → vb.toNat < 8 →
    WritesVector s (.vmul p t vt va vb) 5 vt (fun x => if t = 0#3 then BitVec.ofInt 64 ((s.elem va x).toInt * (s.elem vb x).toInt) else Config.fMul t (s.elem va x) (s.elem vb x)) ∧
    Bytes40 (.vmul p t vt va vb) (0#3 ++ t ++ vt ++ vb ++ va ++ 0x5E#8 ++ (p.vpn ++ p.cond.code))

/-- VMULS (R146). -/
def Obligations.VmulsMultipliesByScalar : Prop :=
  ∀ (s : State) (p : Pred) (t : BitVec 3) (vt va rb : BitVec 6), PredRuns p → TypeRuns t → vt.toNat < 8 → va.toNat < 8 →
    WritesVector s (.vmuls p t vt va rb) 5 vt (fun x => if t = 0#3 then BitVec.ofInt 64 ((s.elem va x).toInt * (s.gpr rb).toInt) else Config.fMul t (s.elem va x) (s.gpr rb)) ∧
    Bytes40 (.vmuls p t vt va rb) (4#3 ++ t ++ vt ++ rb ++ va ++ 0x5E#8 ++ (p.vpn ++ p.cond.code))

/-- VDIV (R147). -/
def Obligations.VdivDividesElements : Prop :=
  ∀ (s : State) (p : Pred) (t : BitVec 3) (vt va vb : BitVec 6), PredRuns p → TypeRuns t → vt.toNat < 8 → va.toNat < 8 → vb.toNat < 8 →
    WritesVector s (.vdiv p t vt va vb) 5 vt (fun x => if t = 0#3 then Config.iDiv (s.elem va x) (s.elem vb x) else Config.fDiv t (s.elem va x) (s.elem vb x)) ∧
    Bytes40 (.vdiv p t vt va vb) (1#3 ++ t ++ vt ++ vb ++ va ++ 0x5E#8 ++ (p.vpn ++ p.cond.code))

/-- VDIVS (R148). -/
def Obligations.VdivsDividesByScalar : Prop :=
  ∀ (s : State) (p : Pred) (t : BitVec 3) (vt va rb : BitVec 6), PredRuns p → TypeRuns t → vt.toNat < 8 → va.toNat < 8 →
    WritesVector s (.vdivs p t vt va rb) 5 vt (fun x => if t = 0#3 then Config.iDiv (s.elem va x) (s.gpr rb) else Config.fDiv t (s.elem va x) (s.gpr rb)) ∧
    Bytes40 (.vdivs p t vt va rb) (5#3 ++ t ++ vt ++ rb ++ va ++ 0x5E#8 ++ (p.vpn ++ p.cond.code))

/-- VMAC (R149). -/
def Obligations.VmacMultipliesAndAccumulates : Prop :=
  ∀ (s : State) (p : Pred) (sn : BitVec 5) (t : BitVec 3) (vt va vb vc : BitVec 6), PredRuns p → TypeRuns t →
    vt.toNat < 8 → va.toNat < 8 → vb.toNat < 8 → vc.toNat < 8 →
    (∀ g : Signs, ((sn = 0#5 ∧ g = Signs.plain) ∨
        (sn ≠ 0#5 ∧ ∃ table : Vector Signs 31, s.env.snDecode = some table ∧ table[sn.toNat - 1]? = some g)) →
      WritesVector s (.vmac p sn t vt va vb vc) 6 vt (fun x =>
        if t = 0#3 then
          BitVec.ofInt 64 (let r := signed g.na (s.elem va x) * signed g.nb (s.elem vb x) + signed g.nc (s.elem vc x)
            if g.nr then -r else r)
        else Config.fMac t g (s.elem va x) (s.elem vb x) (s.elem vc x))) ∧
    (sn ≠ 0#5 → s.env.snDecode = none → exec (.vmac p sn t vt va vb vc) s = .refused (.static .snNotDecoded)) ∧
    encode (.vmac p sn t vt va vb vc) = toBytes 6 (sn ++ t ++ vt ++ vc ++ vb ++ va ++ 0x5A#8 ++ (p.vpn ++ p.cond.code))

/-- VREC (R150). -/
def Obligations.VrecWritesReciprocals : Prop :=
  ∀ (s : State) (p : Pred) (vt va : BitVec 6), PredRuns p → vt.toNat < 8 → va.toNat < 8 →
    WritesVector s (.vrec p vt va) 4 vt (fun x => Config.recip (s.elem va x)) ∧
    Bytes32 (.vrec p vt va) (6#4 ++ vt ++ va ++ 0x56#8 ++ (p.vpn ++ p.cond.code)) ∧
    ∀ bs, decode none bs ≠ .instr (.vrec p vt va)

/-- VAND (R170). -/
def Obligations.VandAndsElements : Prop :=
  ∀ (s : State) (p : Pred) (t : BitVec 3) (vt va vb : BitVec 6), PredRuns p → t = 0#3 → vt.toNat < 8 → va.toNat < 8 → vb.toNat < 8 →
    WritesVector s (.vand p t vt va vb) 5 vt (fun x => s.elem va x &&& s.elem vb x) ∧
    Bytes40 (.vand p t vt va vb) (0#3 ++ t ++ vt ++ vb ++ va ++ 0x52#8 ++ (p.vpn ++ p.cond.code))

/-- VANDS (R171). -/
def Obligations.VandsAndsScalar : Prop :=
  ∀ (s : State) (p : Pred) (t : BitVec 3) (vt va rb : BitVec 6), PredRuns p → t = 0#3 → vt.toNat < 8 → va.toNat < 8 →
    WritesVector s (.vands p t vt va rb) 5 vt (fun x => s.elem va x &&& s.gpr rb) ∧
    Bytes40 (.vands p t vt va rb) (4#3 ++ t ++ vt ++ rb ++ va ++ 0x52#8 ++ (p.vpn ++ p.cond.code))

/-- VOR (R172). -/
def Obligations.VorOrsElements : Prop :=
  ∀ (s : State) (p : Pred) (t : BitVec 3) (vt va vb : BitVec 6), PredRuns p → t = 0#3 → vt.toNat < 8 → va.toNat < 8 → vb.toNat < 8 →
    WritesVector s (.vor p t vt va vb) 5 vt (fun x => s.elem va x ||| s.elem vb x) ∧
    Bytes40 (.vor p t vt va vb) (1#3 ++ t ++ vt ++ vb ++ va ++ 0x52#8 ++ (p.vpn ++ p.cond.code))

/-- VORS (R173). -/
def Obligations.VorsOrsScalar : Prop :=
  ∀ (s : State) (p : Pred) (t : BitVec 3) (vt va rb : BitVec 6), PredRuns p → t = 0#3 → vt.toNat < 8 → va.toNat < 8 →
    WritesVector s (.vors p t vt va rb) 5 vt (fun x => s.elem va x ||| s.gpr rb) ∧
    Bytes40 (.vors p t vt va rb) (5#3 ++ t ++ vt ++ rb ++ va ++ 0x52#8 ++ (p.vpn ++ p.cond.code))

/-- VEOR (R174). -/
def Obligations.VeorXorsElements : Prop :=
  ∀ (s : State) (p : Pred) (t : BitVec 3) (vt va vb : BitVec 6), PredRuns p → t = 0#3 → vt.toNat < 8 → va.toNat < 8 → vb.toNat < 8 →
    WritesVector s (.veor p t vt va vb) 5 vt (fun x => s.elem va x ^^^ s.elem vb x) ∧
    Bytes40 (.veor p t vt va vb) (2#3 ++ t ++ vt ++ vb ++ va ++ 0x52#8 ++ (p.vpn ++ p.cond.code))

/-- VEORS (R175). -/
def Obligations.VeorsXorsScalar : Prop :=
  ∀ (s : State) (p : Pred) (t : BitVec 3) (vt va rb : BitVec 6), PredRuns p → t = 0#3 → vt.toNat < 8 → va.toNat < 8 →
    WritesVector s (.veors p t vt va rb) 5 vt (fun x => s.elem va x ^^^ s.gpr rb) ∧
    Bytes40 (.veors p t vt va rb) (6#3 ++ t ++ vt ++ rb ++ va ++ 0x52#8 ++ (p.vpn ++ p.cond.code))

/-- VCMP (R181, with the flags of R180). -/
def Obligations.VcmpComparesElements : Prop :=
  ∀ (s : State) (p : Pred) (t : BitVec 3) (vpt : BitVec 4) (va vb : BitVec 6), PredRuns p → TypeRuns t →
    vpt.toNat < 8 → va.toNat < 8 → vb.toNat < 8 →
    WritesPredicate s (.vcmp p t vpt va vb) 4 vpt (fun x =>
      if t = 0#3 then ⟨decide (s.elem va x = s.elem vb x), decide ((s.elem va x).toInt < (s.elem vb x).toInt), decide ((s.elem va x).toNat < (s.elem vb x).toNat)⟩
      else ⟨Config.fEq t (s.elem va x) (s.elem vb x), Config.fLt t (s.elem va x) (s.elem vb x), Config.fUnord t (s.elem va x) (s.elem vb x)⟩) ∧
    Bytes32 (.vcmp p t vpt va vb) (1#1 ++ t ++ vb ++ va ++ 1#4 ++ vpt ++ (p.vpn ++ p.cond.code))

/-- VCMPS (R182, with the flags of R180). -/
def Obligations.VcmpsComparesWithScalar : Prop :=
  ∀ (s : State) (p : Pred) (t : BitVec 3) (vpt : BitVec 4) (va rb : BitVec 6), PredRuns p → TypeRuns t →
    vpt.toNat < 8 → va.toNat < 8 →
    WritesPredicate s (.vcmps p t vpt va rb) 5 vpt (fun x =>
      if t = 0#3 then ⟨decide (s.elem va x = s.gpr rb), decide ((s.elem va x).toInt < (s.gpr rb).toInt), decide ((s.elem va x).toNat < (s.gpr rb).toNat)⟩
      else ⟨Config.fEq t (s.elem va x) (s.gpr rb), Config.fLt t (s.elem va x) (s.gpr rb), Config.fUnord t (s.elem va x) (s.gpr rb)⟩) ∧
    Bytes40 (.vcmps p t vpt va rb) (0#5 ++ t ++ vpt ++ rb ++ va ++ 0x5C#8 ++ (p.vpn ++ p.cond.code))

/-- VEX (R191). -/
def Obligations.VexExtractsElement : Prop :=
  ∀ (s : State) (p : Pred) (rt va ra : BitVec 6), AlwaysTrue p → va.toNat < 8 →
    (∀ k : Fin 16, (s.gpr ra).toNat = k.val → ∃ t, exec (.vex p rt va ra) s = .next t ∧
      (¬ HardWired s rt → t.gpr rt = s.elem va k) ∧ (HardWired s rt → t.gpr rt = 0#64) ∧
      SameXBut s t rt ∧ SameV s t ∧ SameP s t ∧ SameMem s t ∧ SameRest s t ∧ t.pc = s.pc + 5#64) ∧
    (16 ≤ (s.gpr ra).toNat → exec (.vex p rt va ra) s = .refused .elementIndexOutOfRange) ∧
    Bytes40 (.vex p rt va ra) (0#6 ++ rt ++ va ++ ra ++ 0x56#8 ++ (p.vpn ++ p.cond.code))

/-- VEINS (R192). -/
def Obligations.VeinsInsertsElement : Prop :=
  ∀ (s : State) (p : Pred) (vt rb ra : BitVec 6), AlwaysTrue p → vt.toNat < 8 →
    ((s.gpr ra).toNat < 16 → ∃ t, exec (.veins p vt rb ra) s = .next t ∧
      (∀ x : Fin 16, t.elem vt x = if x.val = (s.gpr ra).toNat then s.gpr rb else s.elem vt x) ∧
      SameVBut s t vt ∧ SameX s t ∧ SameP s t ∧ SameMem s t ∧ SameRest s t ∧ t.pc = s.pc + 5#64) ∧
    (16 ≤ (s.gpr ra).toNat → exec (.veins p vt rb ra) s = .refused .elementIndexOutOfRange) ∧
    Bytes40 (.veins p vt rb ra) (1#6 ++ vt ++ rb ++ ra ++ 0x56#8 ++ (p.vpn ++ p.cond.code))

/-- VSHLV (R193). -/
def Obligations.VshlvShiftsUp : Prop :=
  ∀ (s : State) (p : Pred) (vt va ra : BitVec 6), AlwaysTrue p → vt.toNat < 8 → va.toNat < 8 →
    (vt ≠ va → (s.gpr ra).toNat ≤ 15 → ∃ t, exec (.vshlv p vt va ra) s = .next t ∧
      t.elem vt 0 = 0#64 ∧
      (∀ x y : Fin 16, y.val = x.val + 1 → y.val ≤ (s.gpr ra).toNat → t.elem vt y = s.elem va x) ∧
      (∀ y : Fin 16, (s.gpr ra).toNat < y.val → t.elem vt y = s.elem vt y) ∧
      SameVBut s t vt ∧ SameX s t ∧ SameP s t ∧ SameMem s t ∧ SameRest s t ∧ t.pc = s.pc + 5#64) ∧
    (vt ≠ va → 15 < (s.gpr ra).toNat → exec (.vshlv p vt va ra) s = .refused .shiftCountOutOfRange) ∧
    (vt = va → exec (.vshlv p vt va ra) s = .refused (.static .shiftAliasing)) ∧
    Bytes40 (.vshlv p vt va ra) (2#6 ++ vt ++ va ++ ra ++ 0x56#8 ++ (p.vpn ++ p.cond.code))

/-- VSHRV (R194). -/
def Obligations.VshrvShiftsDown : Prop :=
  ∀ (s : State) (p : Pred) (vt va ra : BitVec 6), AlwaysTrue p → vt.toNat < 8 → va.toNat < 8 →
    (vt ≠ va → 1 ≤ (s.gpr ra).toNat → (s.gpr ra).toNat ≤ 16 → ∃ t, exec (.vshrv p vt va ra) s = .next t ∧
      (∀ x y : Fin 16, y.val = x.val + 1 → y.val < (s.gpr ra).toNat → t.elem vt x = s.elem va y) ∧
      (∀ x : Fin 16, x.val + 1 = (s.gpr ra).toNat → t.elem vt x = 0#64) ∧
      (∀ x : Fin 16, (s.gpr ra).toNat ≤ x.val → t.elem vt x = s.elem vt x) ∧
      SameVBut s t vt ∧ SameX s t ∧ SameP s t ∧ SameMem s t ∧ SameRest s t ∧ t.pc = s.pc + 5#64) ∧
    (vt ≠ va → (s.gpr ra).toNat < 1 ∨ 16 < (s.gpr ra).toNat → exec (.vshrv p vt va ra) s = .refused .shiftCountOutOfRange) ∧
    (vt = va → exec (.vshrv p vt va ra) s = .refused (.static .shiftAliasing)) ∧
    Bytes40 (.vshrv p vt va ra) (3#6 ++ vt ++ va ++ ra ++ 0x56#8 ++ (p.vpn ++ p.cond.code))

/-- VBITS2V (R195). -/
def Obligations.Vbits2vWritesBits : Prop :=
  ∀ (s : State) (p : Pred) (vt ra : BitVec 6), AlwaysTrue p → vt.toNat < 8 →
    WritesVector s (.vbits2v p vt ra) 4 vt (fun x => BitVec.ofNat 64 ((s.gpr ra).toNat / 2 ^ x.val % 2)) ∧
    Bytes32 (.vbits2v p vt ra) (6#4 ++ vt ++ ra ++ 0x56#8 ++ (p.vpn ++ p.cond.code)) ∧
    ∀ bs, decode none bs ≠ .instr (.vbits2v p vt ra)

/-- V2BITS (R196). The bits of no active element are a draw: the statement says nothing of them. -/
def Obligations.V2bitsCollectsLowBits : Prop :=
  ∀ (s : State) (p : Pred) (rt va : BitVec 6), PredRuns p → va.toNat < 8 →
    (∃ t, exec (.v2bits p rt va) s = .next t ∧
      (¬ HardWired s rt → ∀ x : Fin 16, ActiveAt s p x → (t.gpr rt).getLsbD x.val = (s.elem va x).getLsbD 0) ∧
      (HardWired s rt → t.gpr rt = 0#64) ∧
      SameXBut s t rt ∧ SameV s t ∧ SameP s t ∧ SameMem s t ∧ SameRest s t ∧ t.pc = s.pc + 5#64) ∧
    Bytes40 (.v2bits p rt va) (6#6 ++ rt ++ va ++ 0#6 ++ 0x56#8 ++ (p.vpn ++ p.cond.code))

/-- VFLT2INT (R197) and VINT2FLT (R198). -/
def Obligations.ConversionsConvertElements : Prop :=
  ∀ (s : State) (p : Pred) (vt va : BitVec 6), PredRuns p → vt.toNat < 8 → va.toNat < 8 →
    (WritesVector s (.vflt2int p vt va) 4 vt (fun x => Config.fltToInt (s.elem va x)) ∧
      Bytes32 (.vflt2int p vt va) (4#4 ++ vt ++ va ++ 0x56#8 ++ (p.vpn ++ p.cond.code))) ∧
    (WritesVector s (.vint2flt p vt va) 4 vt (fun x => Config.intToFlt (s.elem va x)) ∧
      Bytes32 (.vint2flt p vt va) (5#4 ++ vt ++ va ++ 0x56#8 ++ (p.vpn ++ p.cond.code)))

/-- LV: the pseudocode of its rule in 45_load_store.md, where nothing is refused and nothing faults; and its word. -/
def Obligations.LvLoadsUnitStride : Prop :=
  ∀ (s : State) (p : Pred) (seg : BitVec 3) (vt ra : BitVec 6) (addr : Fin 16 → Word),
    (PredRuns p → vt.toNat < 8 →
      AccessesReach s p .load seg (fun x => s.gpr ra + BitVec.ofNat 64 (8 * x.val)) addr →
      (∀ x, ActiveAt s p x → ∀ k, k < 8 → (s.mem.read ((addr x).toNat + k)).isSome = true) →
      LoadsVector s (.lv p seg vt ra) 4 vt addr) ∧
    Bytes32 (.lv p seg vt ra) (seg ++ 0#1 ++ vt ++ ra ++ 0xBD#8 ++ (p.vpn ++ p.cond.code))

/-- LVWS: the pseudocode of its rule in 45_load_store.md, where nothing is refused and nothing faults; and its word. -/
def Obligations.LvwsLoadsWithStride : Prop :=
  ∀ (s : State) (p : Pred) (seg : BitVec 3) (vt ra rb : BitVec 6) (addr : Fin 16 → Word),
    (PredRuns p → vt.toNat < 8 →
      AccessesReach s p .load seg (fun x => s.gpr ra + s.gpr rb * BitVec.ofNat 64 x.val) addr →
      (∀ x, ActiveAt s p x → ∀ k, k < 8 → (s.mem.read ((addr x).toNat + k)).isSome = true) →
      LoadsVector s (.lvws p seg vt ra rb) 5 vt addr) ∧
    Bytes40 (.lvws p seg vt ra rb) (seg ++ 0#3 ++ vt ++ rb ++ ra ++ 0xBE#8 ++ (p.vpn ++ p.cond.code))

/-- LVX: the pseudocode of its rule in 45_load_store.md, where nothing is refused and nothing faults; and its word. -/
def Obligations.LvxLoadsIndexed : Prop :=
  ∀ (s : State) (p : Pred) (seg : BitVec 3) (vt ra vb : BitVec 6) (addr : Fin 16 → Word),
    (PredRuns p → vt.toNat < 8 → vb.toNat < 8 →
      AccessesReach s p .load seg (fun x => s.gpr ra + s.elem vb x) addr →
      (∀ x, ActiveAt s p x → ∀ k, k < 8 → (s.mem.read ((addr x).toNat + k)).isSome = true) →
      LoadsVector s (.lvx p seg vt ra vb) 5 vt addr) ∧
    Bytes40 (.lvx p seg vt ra vb) (seg ++ 0#3 ++ vt ++ vb ++ ra ++ 0xBF#8 ++ (p.vpn ++ p.cond.code))

/-- SV: the pseudocode of its rule in 45_load_store.md, where nothing is refused and nothing faults; and its word. Which of several elements at one address survives is a draw. -/
def Obligations.SvStoresUnitStride : Prop :=
  ∀ (s : State) (p : Pred) (seg : BitVec 3) (vs ra : BitVec 6) (addr : Fin 16 → Word),
    (PredRuns p → vs.toNat < 8 →
      AccessesReach s p .store seg (fun x => s.gpr ra + BitVec.ofNat 64 (8 * x.val)) addr →
      (∀ x, ActiveAt s p x → ∀ b, Within (addr x) b → s.env.inText b = false) →
      StoresVector s (.sv p seg vs ra) 4 vs addr) ∧
    Bytes32 (.sv p seg vs ra) (seg ++ 0#1 ++ vs ++ ra ++ 0xCD#8 ++ (p.vpn ++ p.cond.code))

/-- SVWS: the pseudocode of its rule in 45_load_store.md, where nothing is refused and nothing faults; and its word. Which of several elements at one address survives is a draw. -/
def Obligations.SvwsStoresWithStride : Prop :=
  ∀ (s : State) (p : Pred) (seg : BitVec 3) (vs ra rb : BitVec 6) (addr : Fin 16 → Word),
    (PredRuns p → vs.toNat < 8 →
      AccessesReach s p .store seg (fun x => s.gpr ra + s.gpr rb * BitVec.ofNat 64 x.val) addr →
      (∀ x, ActiveAt s p x → ∀ b, Within (addr x) b → s.env.inText b = false) →
      StoresVector s (.svws p seg vs ra rb) 5 vs addr) ∧
    Bytes40 (.svws p seg vs ra rb) (seg ++ 0#3 ++ vs ++ rb ++ ra ++ 0xCE#8 ++ (p.vpn ++ p.cond.code))

/-- SVX: the pseudocode of its rule in 45_load_store.md, where nothing is refused and nothing faults; and its word. Which of several elements at one address survives is a draw. -/
def Obligations.SvxStoresIndexed : Prop :=
  ∀ (s : State) (p : Pred) (seg : BitVec 3) (vs ra vb : BitVec 6) (addr : Fin 16 → Word),
    (PredRuns p → vs.toNat < 8 → vb.toNat < 8 →
      AccessesReach s p .store seg (fun x => s.gpr ra + s.elem vb x) addr →
      (∀ x, ActiveAt s p x → ∀ b, Within (addr x) b → s.env.inText b = false) →
      StoresVector s (.svx p seg vs ra vb) 5 vs addr) ∧
    Bytes40 (.svx p seg vs ra vb) (seg ++ 0#3 ++ vs ++ vb ++ ra ++ 0xCF#8 ++ (p.vpn ++ p.cond.code))

/-- The refusals of the common procedure of the loads and stores, which come before any exception. -/
def Obligations.MisalignedAccessIsRefused : Prop :=
  ∀ (s : State) (i : Instr) (kind : AccessKind) (seg : BitVec 3) (r : BitVec 6) (off : Fin 16 → Word),
    Executes s i → accessOf s i = some (kind, seg, r, off) →
    (∀ x a, ActiveAt s i.pred x → s.env.segMap seg (off x) = some a → a.toNat % 8 ≠ 0 →
      exec i s = .refused .misalignedAccess) ∧
    ((∀ x a, ActiveAt s i.pred x → s.env.segMap seg (off x) = some a → a.toNat % 8 = 0) → kind = .store →
      ∀ x a b, ActiveAt s i.pred x → s.env.segMap seg (off x) = some a → Within a b → s.env.inText b = true →
      exec i s = .refused .storeToProgramText)

/-- Taking an exception: terminal, the reported element open among those that fault. -/
def Obligations.ElementFaultIsTaken : Prop :=
  ∀ (s : State) (i : Instr) (kind : AccessKind) (seg : BitVec 3) (r : BitVec 6) (off : Fin 16 → Word),
    Executes s i → accessOf s i = some (kind, seg, r, off) → NotRefused s i.pred kind seg off →
    (∃ x c a, Raises s i.pred kind seg off x c a) →
    ∃ x c a after, Raises s i.pred kind seg off x c a ∧ exec i s = .fault (.exception c s.pc x a after) ∧
      after.pc = s.pc ∧ SameP s after ∧ SameX s after ∧ SameRest s after

/-- Partial completion of a load: which elements were transferred is open. That an element that does not fault but whose bytes hold no
value keeps its own is the model's choice (log entry 11). -/
def Obligations.FaultedLoadLeavesOldOrLoaded : Prop :=
  ∀ (s : State) (i : Instr) (seg : BitVec 3) (r : BitVec 6) (off : Fin 16 → Word) (c : Cause) (pc : Word) (e : Fin 16) (a : Word)
    (after : State), r.toNat < 8 → accessOf s i = some (.load, seg, r, off) → exec i s = .fault (.exception c pc e a after) →
    SameVBut s after r ∧ SameMem s after ∧ after.elem r e = s.elem r e ∧
    (∀ x, ¬ ActiveAt s i.pred x → after.elem r x = s.elem r x) ∧
    (∀ x c' a', Raises s i.pred .load seg off x c' a' → after.elem r x = s.elem r x) ∧
    (∀ x d, ActiveAt s i.pred x → s.env.segMap seg (off x) = some d → s.env.memFault .load d = none →
      after.elem r x = s.elem r x ∨
      ∀ k, k < 8 → s.mem.read (d.toNat + k) = some ((after.elem r x).extractLsb' (8 * k) 8))

/-- Partial completion of a store: which elements were transferred is open. -/
def Obligations.FaultedStoreLeavesOldOrStored : Prop :=
  ∀ (s : State) (i : Instr) (seg : BitVec 3) (r : BitVec 6) (off : Fin 16 → Word) (c : Cause) (pc : Word) (e : Fin 16) (a : Word)
    (after : State), accessOf s i = some (.store, seg, r, off) → exec i s = .fault (.exception c pc e a after) →
    SameV s after ∧
    ∀ b, after.mem.read b = s.mem.read b ∨
      ∃ x d, ActiveAt s i.pred x ∧ s.env.segMap seg (off x) = some d ∧ s.env.memFault .store d = none ∧ Within d b ∧
        after.mem.read b = some ((s.elem r x).extractLsb' (8 * (b - d.toNat)) 8)

/-- Reading a byte that nothing has written. That exceptions come first is the model's choice (log entry 4). -/
def Obligations.LoadOfValuelessByteFaults : Prop :=
  ∀ (s : State) (i : Instr) (seg : BitVec 3) (r : BitVec 6) (off addr : Fin 16 → Word),
    Executes s i → accessOf s i = some (.load, seg, r, off) → AccessesReach s i.pred .load seg off addr →
    ∀ x b, ActiveAt s i.pred x → Within (addr x) b → s.mem.read b = none → exec i s = .fault .noValue

/-- A load returns the value of the most recent store, at the level of whole vectors, where the segments are flat and the condition
is not PSIG: the sixteen addresses of a unit-stride store are then distinct. -/
def Obligations.StoreThenLoadGivesBack : Prop :=
  ∀ (s t u : State) (p : Pred) (seg : BitVec 3) (vs vt ra : BitVec 6), s.env.segRules = [] → p.cond ≠ .psig →
    vt.toNat < 8 → exec (.sv p seg vs ra) s = .next t → exec (.lv p seg vt ra) t = .next u →
    ∀ x, ActiveAt s p x → u.elem vt x = s.elem vs x

/-- Condition 0 (R130). `count` is the model's own field (log entry 8): the statement leaves it free. -/
def Obligations.AlwaysFalseOnlyAdvances : Prop :=
  ∀ (s : State) (i : Instr), i.pred = ⟨9#4, .pf⟩ →
    (staticCheck s.env.snDecode.isSome i = none →
      ∃ n, exec i s = .next { s with pc := s.pc + BitVec.ofNat 64 (encode i).length, count := n }) ∧
    (∀ r, staticCheck s.env.snDecode.isSome i = some r → exec i s = .refused (.static r))

/-- The Predicate Conditions table (R121), its sixteen numbers outright. -/
def Obligations.ConditionTableIsFollowed : Prop :=
  (Cond.pf.code = 0#4 ∧ Cond.pt.code = 1#4 ∧ Cond.peq.code = 2#4 ∧ Cond.pne.code = 3#4 ∧ Cond.ple.code = 4#4 ∧
    Cond.pgt.code = 5#4 ∧ Cond.pge.code = 6#4 ∧ Cond.plt.code = 7#4 ∧ Cond.pleu.code = 8#4 ∧ Cond.pgtu.code = 9#4 ∧
    Cond.pgeu.code = 10#4 ∧ Cond.pltu.code = 11#4 ∧ Cond.rsv12.code = 12#4 ∧ Cond.psig.code = 13#4 ∧ Cond.rsv14.code = 14#4 ∧
    Cond.rsv15.code = 15#4) ∧
  (∀ i : Instr, ∃ b bs, encode i = b :: bs ∧ b.toNat % 16 = i.pred.cond.code.toNat ∧ b.toNat / 16 = i.pred.vpn.toNat) ∧
  (∀ (rules : Option (List Rule56)) (b : Byte) (bs : List Byte) (i : Instr), decode rules (b :: bs) = .instr i →
    i.pred.cond.code.toNat = b.toNat % 16 ∧ i.pred.vpn.toNat = b.toNat / 16) ∧
  (∀ (s : State) (p : Pred) (x : Fin 16), s.mask p x = true ↔ Holds p.cond (s.flags p.vpn x) (Config.signal s.count x.val)) ∧
  (∀ (s : State) (i : Instr), i.pred.cond.code ∈ [12#4, 14#4, 15#4] → exec i s = .refused (.static .reservedCondition))

/-- The only change any instruction makes to pc, and the refusal of an instruction that straddles the top of the address space (which
refusal bytes that end there get is log entry 16). -/
def Obligations.ProgramCounterOnlyAdvances : Prop :=
  (∀ (s t : State) (i : Instr), exec i s = .next t →
    t.pc = s.pc + BitVec.ofNat 64 (encode i).length ∧ (encode i).length ∈ [4, 5, 6]) ∧
  (∀ (s : State) (i : Instr), fetch s = .instr i → s.pc.toNat + (encode i).length ≤ 2 ^ 64) ∧
  (∀ s : State, NoActionDue s → ¬ RunEnded s →
    (∀ i, s.env.listing.find? (fun l => l.1 == s.pc) = some (s.pc, i) → 2 ^ 64 < s.pc.toNat + (encode i).length →
      step s = .refused (.static .notInScope)) ∧
    (∀ b bs, (∀ l ∈ s.env.listing, l.1 ≠ s.pc) → fetchWindow s = b :: bs → firstByteRefusal b = none →
      ((b :: bs).length < 4 ∨ ∃ b1 cs n, bs = b1 :: cs ∧ rowLength b1 = some n ∧ (b :: bs).length < n) →
      s.pc.toNat + (b :: bs).length = 2 ^ 64 → step s = .refused (.static .notInScope)))

/-- The instructions that raise nothing. That none of them faults as NoValue either is the model's choice (log entry 1). -/
def Obligations.OnlyLoadsAndStoresFault : Prop :=
  ∀ (s : State) (f : Fault), step s = .fault f → ∃ i, fetch s = .instr i ∧ IsMemory i

/-- Safety of a program without memory instructions, over every reachable state. That a register nothing has written reads without a
NoValue fault is the model's choice (log entry 1). -/
def Obligations.ListingWithoutMemoryNeverFaults : Prop :=
  ∀ s : State, s.env.text = [] → (∀ l ∈ s.env.listing, ¬ IsMemory l.2) → Safety.FaultFree s

/-- The invariant of the model's memory, over every reachable state. The form is the model's own (log entry 4). -/
def Obligations.StepsKeepMemoryCanonical : Prop :=
  ∀ s t : State, Safety.Inv s → Safety.Reaches s t → Safety.Inv t

/-- What reset leaves: the model's choices (log entries 1 to 5), the spec giving none. -/
def Obligations.ResetMemoryIsCanonical : Prop :=
  Safety.Inv State.reset ∧ (∀ a, State.reset.mem.read a = none) ∧ (∀ r x, State.reset.elem r x = 0#64) ∧
  (∀ r, State.reset.gpr r = 0#64) ∧ State.reset.vl = 0 ∧ (∀ a, State.reset.env.inText a = false)

/-- The program text is immutable, over every reachable state. -/
def Obligations.StepsKeepProgramText : Prop :=
  ∀ s t : State, Safety.Reaches s t → t.env = s.env ∧ ∀ a, s.env.inText a = true → t.mem.read a = s.mem.read a

/-- VL and SetVL. How the environment's schedule stands in the state is the model's choice (log entry 12). -/
def Obligations.VlChangesOnlyBySetVL : Prop :=
  (∀ (s : State) (a : SetVLAction) (rest : List SetVLAction), s.pendingVL = a :: rest → a.after ≤ s.count → ¬ RunEnded s →
    step s = .next { s with vl := a.vl, pendingVL := rest }) ∧
  (∀ s t : State, NoActionDue s → step s = .next t → t.vl = s.vl ∧ t.pendingVL = s.pendingVL ∧ t.count = s.count + 1) ∧
  (∀ (s t : State) (n : Fin 17) (rest : List SetVLAction), s.pendingVL = ⟨s.count + 1, n⟩ :: rest → step s = .next t →
    ¬ RunEnded t → step t = .next { t with vl := n, pendingVL := rest })

/-- Who writes what. -/
def Obligations.EachKindOfStateHasItsWriters : Prop :=
  ∀ (s t : State) (i : Instr), exec i s = .next t →
    ((∀ p t vpt va b, i ≠ .vcmp p t vpt va b ∧ i ≠ .vcmps p t vpt va b) → SameP s t) ∧
    ((∀ p rt va ra, i ≠ .vex p rt va ra ∧ i ≠ .v2bits p rt va) → SameX s t) ∧
    ((∀ p seg vs ra b, i ≠ .sv p seg vs ra ∧ i ≠ .svws p seg vs ra b ∧ i ≠ .svx p seg vs ra b) → SameMem s t) ∧
    ((∃ p t vpt rt vs va ra b seg, i = .vcmp p t vpt va b ∨ i = .vcmps p t vpt va b ∨ i = .vex p rt va ra ∨ i = .v2bits p rt va ∨
      i = .sv p seg vs ra ∨ i = .svws p seg vs ra b ∨ i = .svx p seg vs ra b) → SameV s t)

/-- Elements that an instruction does not write. -/
def Obligations.ElementsBeyondVlKeepTheirValues : Prop :=
  ∀ (s t : State) (i : Instr) (x : Fin 16), exec i s = .next t → s.vl.val ≤ x.val →
    (∀ p vt a ra, i ≠ .veins p vt a ra ∧ i ≠ .vshlv p vt a ra ∧ i ≠ .vshrv p vt a ra) →
    (∀ r, t.elem r x = s.elem r x) ∧ (∀ r, t.flags r x = s.flags r x)

/-- General registers and GPR0_ZERO. -/
def Obligations.HardWiredRegisterReadsZero : Prop :=
  ∀ (s : State) (r q : BitVec 6) (w : Word),
    (HardWired s r → s.gpr r = 0#64 ∧ s.setGpr r w = s) ∧
    (¬ HardWired s r → (s.setGpr r w).gpr r = w) ∧ (q ≠ r → (s.setGpr r w).gpr q = s.gpr q)

/-- The static checks, in their order, for every instruction. The byte 90h is among the legal predicate bytes, so they refuse under
it too. -/
def Obligations.StaticChecksRefuseFirst : Prop :=
  ∀ (s : State) (i : Instr),
    ((i.pred.cond = .pf ∧ i.pred.vpn ≠ 9#4) ∨ (i.pred.cond = .pt ∧ i.pred.vpn ≠ 0#4) → exec i s = .refused (.static .notInScope)) ∧
    (i.pred.cond = .rsv12 ∨ i.pred.cond = .rsv14 ∨ i.pred.cond = .rsv15 → exec i s = .refused (.static .reservedCondition)) ∧
    (PredLegal i.pred →
      (∀ t, arithmeticTypeOf i = some t → (t = 4#3 → exec i s = .refused (.static .quadNotRepresentable)) ∧
        (t.toNat ∈ [3, 5, 6, 7] → exec i s = .refused (.static .reservedType))) ∧
      (∀ t, logicalTypeOf i = some t → t ≠ 0#3 → exec i s = .refused (.static .reservedType)) ∧
      (TypeLegal i → (∃ r ∈ vectorNumbers i, 8 ≤ r.toNat) → exec i s = .refused (.static .vectorRegisterOutOfRange)) ∧
      (TypeLegal i → (∀ r ∈ vectorNumbers i, r.toNat < 8) →
        (PredicateOut i → exec i s = .refused (.static .predicateRegisterOutOfRange)) ∧
        (¬ PredicateOut i → PnOpen i → exec i s = .refused (.static .pnReadingOpen)) ∧
        (¬ PredicateOut i → ¬ PnOpen i →
          (SnOpen s i → exec i s = .refused (.static .snNotDecoded)) ∧
          (Aliased i → exec i s = .refused (.static .shiftAliasing)) ∧
          (¬ SnOpen s i → ¬ Aliased i → ∀ r, exec i s ≠ .refused (.static r)))))

/-- Decode is the inverse of Encode outside opcode 56h. That decode answers an instruction whose first byte, type or register fields are
refused, and leaves the refusal to the static checks of exec, is the model's reading (log entry 15, DEDUCED). -/
def Obligations.DecodeEncodeOutside56 : Prop :=
  ∀ (i : Instr) (rest : List Byte), Outside56 i → decode none (encode i ++ rest) = .instr i

/-- Opcode 56h, the five-byte members; V2BITS with any `Ra` field. Under a predicate byte that begins no vector instruction the answer
is the model's reading (log entry 15, DEDUCED). -/
def Obligations.DecodeEncodeLong56 : Prop :=
  (∀ (i : Instr) (a : BitVec 6) (rest : List Byte), fieldA i = some a →
    (LongIsUnique a → decode none (encode i ++ rest) = .instr i) ∧
    (¬ LongIsUnique a → (∃ r, decode none (encode i ++ rest) = .reject r) ∧
      (PredLegal i.pred → decode none (encode i ++ rest) = .reject .ambiguousEncoding))) ∧
  (∀ (p : Pred) (rt va ra : BitVec 6) (rest bs : List Byte),
    bs = toBytes 5 ((6#6 ++ rt ++ va ++ ra ++ 0x56#8 ++ (p.vpn ++ p.cond.code) : BitVec 40).setWidth 48) →
    (LongIsUnique rt → decode none (bs ++ rest) = .instr (.v2bits p rt va)) ∧
    (¬ LongIsUnique rt → (∃ r, decode none (bs ++ rest) = .reject r) ∧
      (PredLegal p → decode none (bs ++ rest) = .reject .ambiguousEncoding)))

/-- Opcode 56h, the four-byte members. Under a predicate byte that begins no vector instruction the answer is the model's reading (log
entry 15, DEDUCED). -/
def Obligations.DecodeEncodeShort56 : Prop :=
  ∀ (p : Pred) (vt a : BitVec 6) (rest : List Byte),
    (∀ i : Instr, i = .vflt2int p vt a ∨ i = .vint2flt p vt a →
      (ShortIsUnique rest → decode none (encode i ++ rest) = .instr i) ∧
      (¬ ShortIsUnique rest → (∃ r, decode none (encode i ++ rest) = .reject r) ∧
        (PredLegal p → decode none (encode i ++ rest) = .reject .ambiguousEncoding))) ∧
    encode (.vrec p vt a) = encode (.vbits2v p vt a) ∧
    (∃ r, decode none (encode (.vrec p vt a) ++ rest) = .reject r) ∧
    (PredLegal p → decode none (encode (.vrec p vt a) ++ rest) = .reject .ambiguousEncoding)

/-- Every word that decodes has one meaning and one spelling, but for the `Ra` field of V2BITS, which decoding does not look at. -/
def Obligations.EncodeDecodeGivesTheBytesBack : Prop :=
  ∀ (bs : List Byte) (i : Instr), decode none bs = .instr i →
    ((∀ p rt va, i ≠ .v2bits p rt va) → encode i = bs.take (encode i).length) ∧
    (∀ p rt va, i = .v2bits p rt va → ∃ ra : BitVec 6,
      bs.take 5 = toBytes 5 ((6#6 ++ rt ++ va ++ ra ++ 0x56#8 ++ (p.vpn ++ p.cond.code) : BitVec 40).setWidth 48))

/-- The refusals of decoding, over all byte sequences. That the first byte's refusal stands before the row's is log entry 15. -/
def Obligations.DecodeRefusesByName : Prop :=
  decode none [] = .reject .reservedEncoding ∧
  (∀ b0, RefusedAs b0 [] .reservedEncoding) ∧
  (∀ b0 b1 bs, rowLength b1 = none → b1 ≠ 0x56#8 → RefusedAs b0 (b1 :: bs) .notInScope) ∧
  (∀ b0 b1 bs n, (rowLength b1 = some n ∨ (b1 = 0x56#8 ∧ n = 4)) → (b0 :: b1 :: bs).length < n →
    RefusedAs b0 (b1 :: bs) .reservedEncoding) ∧
  (∀ b0 b1 b2 b3 bs, b1.toNat / 16 = 1 → b3.toNat < 128 → RefusedAs b0 (b1 :: b2 :: b3 :: bs) .notInScope) ∧
  (∀ b0 b1 b2 b3 bs, b1 ∈ [0xBD#8, 0xCD#8] → b3.toNat / 16 % 2 = 1 → RefusedAs b0 (b1 :: b2 :: b3 :: bs) .reservedEncoding) ∧
  (∀ b0 b2 b3, ¬ ShortMember b3 → RefusedAs b0 [0x56#8, b2, b3] .reservedEncoding) ∧
  (∀ b0 b1 b2 b3 b4 bs,
    (b1 = 0x52#8 ∧ b4.toNat / 32 ∈ [3, 7]) ∨ (b1 = 0x57#8 ∧ b4.toNat / 32 ∈ [1, 3, 7]) ∨
      (b1 = 0x5E#8 ∧ b4.toNat / 32 ∈ [2, 3, 6, 7]) ∨ (b1 = 0x56#8 ∧ ¬ ShortMember b3 ∧ ¬ LongMember b4) ∨
      (b1 = 0x5C#8 ∧ b4.toNat / 8 ≠ 0) ∨ (b1 ∈ [0xBE#8, 0xBF#8, 0xCE#8, 0xCF#8] ∧ b4.toNat / 4 % 8 ≠ 0) →
    RefusedAs b0 (b1 :: b2 :: b3 :: b4 :: bs) .reservedEncoding) ∧
  (∀ bs, (∃ i, decode none bs = .instr i) ∨
    ∃ r ∈ [StaticRefusal.notInScope, .reservedCondition, .reservedEncoding, .ambiguousEncoding], decode none bs = .reject r)

/-- The end of a run. Its form, a refused step, and the count that says whether an instruction has completed are the model's choice (log
entry 14). -/
def Obligations.RunEndsAtTheEndAddress : Prop :=
  (∀ s : State, step s = .refused .runEnded ↔ RunEnded s) ∧
  (∀ (s t : State) (i : Instr), exec i s = .next t → t.env.endAddr = some t.pc →
    step t = .refused .runEnded ∧ ∀ u, Safety.Reaches t u → u = t) ∧
  (∀ (s : State) (i : Instr), exec i s ≠ .refused .runEnded)

/-- A step runs the decoded instruction. The premises are about the end of the run, the environment's actions and the listing (log
entries 12, 14, 17). -/
def Obligations.StepRunsTheDecodedInstruction : Prop :=
  ∀ (s : State) (i : Instr), NoActionDue s → ¬ RunEnded s → (∀ l ∈ s.env.listing, l.1 ≠ s.pc) →
    decode s.env.decode56 (fetchWindow s) = .instr i → step s = exec i s

/-- A step of an assembly-level program. An entry of the listing stands before the bytes (log entry 17). -/
def Obligations.StepRunsTheListedInstruction : Prop :=
  ∀ (s : State) (i : Instr), NoActionDue s → ¬ RunEnded s →
    s.env.listing.find? (fun l => l.1 == s.pc) = some (s.pc, i) → s.pc.toNat + (encode i).length ≤ 2 ^ 64 →
    step s = exec i s

/-- A sanity statement on words written out from the spec's encodings. -/
def Obligations.WrittenWordsDecode : Prop :=
  decode none [0x01, 0x57, 0x81, 0x30, 0x00] = .instr (.vadd ⟨0, .pt⟩ 0 3 1 2) ∧
  decode none [0x01, 0x5A, 0x81, 0x30, 0x10, 0x00] = .instr (.vmac ⟨0, .pt⟩ 0 0 4 1 2 3) ∧
  decode none [0x01, 0x11, 0x81, 0x80] = .instr (.vcmp ⟨0, .pt⟩ 0 1 1 2) ∧
  decode none [0x01, 0x5C, 0x41, 0x11, 0x00] = .instr (.vcmps ⟨0, .pt⟩ 0 1 1 5) ∧
  decode none [0x01, 0x56, 0x4A, 0xB0, 0x00] = .instr (.vex ⟨0, .pt⟩ 11 1 10) ∧
  decode none [0x01, 0xBD, 0x41, 0x00] = .instr (.lv ⟨0, .pt⟩ 0 1 1) ∧
  decode none [0x01, 0xCF, 0x81, 0x30, 0x00] = .instr (.svx ⟨0, .pt⟩ 0 3 1 2) ∧
  decode none [0x01, 0xCF, 0x81, 0x30, 0xA0] = .instr (.svx ⟨0, .pt⟩ 5 3 1 2) ∧
  decode none [0x01, 0x56, 0xC1, 0x60] = .reject .ambiguousEncoding
end

