-- ==== Sys2Proof/Laws/Bits.lean ====
section
/-! SUPPORT. Fields of concatenated bit vectors, and the number packed from bits. -/

namespace Sys2Proof

/-- A field that lies in the low part of a concatenation. -/
theorem extract_append_low {n m : Nat} (a : BitVec n) (b : BitVec m) (k w : Nat) (h : k + w ≤ m) :
    (a ++ b).extractLsb' k w = b.extractLsb' k w := by
  ext i hi; simp [BitVec.getLsbD_append, show k + i < m by omega]

/-- A field that lies in the high part of a concatenation. -/
theorem extract_append_high {n m : Nat} (a : BitVec n) (b : BitVec m) (k w : Nat) (h : m ≤ k) :
    (a ++ b).extractLsb' k w = a.extractLsb' (k - m) w := by
  ext i hi; simp [BitVec.getLsbD_append, show ¬ k + i < m by omega, show k + i - m = k - m + i by omega]

/-- A field of a word that is brought to another width which it still lies in. -/
theorem extract_setWidth {n : Nat} (a : BitVec n) (v k w : Nat) (hv : k + w ≤ v) :
    (a.setWidth v).extractLsb' k w = a.extractLsb' k w := by
  ext i hi; simp [show k + i < v by omega]

namespace Machine

/-- Bit `k` of the number packed from the low `n` bits. -/
theorem getLsbD_packBits (f : Nat → Bool) (n k : Nat) (hn : n ≤ 64) :
    (packBits f n).getLsbD k = (decide (k < n) && f k) := by
  induction n with
  | zero => simp [packBits]
  | succ n ih =>
    rw [packBits, BitVec.getLsbD_or, ih (by omega)]
    by_cases h : k = n
    · subst h; cases hf : f k <;> simp [show k < 64 by omega]
    · have hk : (k < n + 1) = (k < n) := by simp only [eq_iff_iff]; omega
      simp only [hk]
      cases f n <;> simp [BitVec.getLsbD_twoPow, Ne.symm h]

end Machine

end Sys2Proof
end

