-- ==== Sys2Proof/Laws/PerInstr.lean ====
section
/-! SUPPORT. Per instruction: its encoding has the length the length table gives it (R83, R107). -/

namespace Sys2Proof.Laws.EncodeLength

/-- The encoding of an instruction has as many bytes as its length says. -/
def Statement (i : Instr) : Prop := (encode i).length = i.ilen

/-- The length of the low bytes of a word. -/
theorem length_toBytes (n : Nat) (w : BitVec 48) : (toBytes n w).length = n := by simp [toBytes]

/-- The length of an encoding, for any instruction. -/
theorem length_encode (i : Instr) : (encode i).length = i.ilen := length_toBytes _ _

theorem vadd (p : Pred) (t : BitVec 3) (vt va vb : BitVec 6) : Statement (.vadd p t vt va vb) := length_encode _
theorem vadds (p : Pred) (t : BitVec 3) (vt va rb : BitVec 6) : Statement (.vadds p t vt va rb) := length_encode _
theorem vsub (p : Pred) (t : BitVec 3) (vt va vb : BitVec 6) : Statement (.vsub p t vt va vb) := length_encode _
theorem vsubs (p : Pred) (t : BitVec 3) (vt va rb : BitVec 6) : Statement (.vsubs p t vt va rb) := length_encode _
theorem vsubrs (p : Pred) (t : BitVec 3) (vt va rb : BitVec 6) : Statement (.vsubrs p t vt va rb) := length_encode _
theorem vmul (p : Pred) (t : BitVec 3) (vt va vb : BitVec 6) : Statement (.vmul p t vt va vb) := length_encode _
theorem vmuls (p : Pred) (t : BitVec 3) (vt va rb : BitVec 6) : Statement (.vmuls p t vt va rb) := length_encode _
theorem vdiv (p : Pred) (t : BitVec 3) (vt va vb : BitVec 6) : Statement (.vdiv p t vt va vb) := length_encode _
theorem vdivs (p : Pred) (t : BitVec 3) (vt va rb : BitVec 6) : Statement (.vdivs p t vt va rb) := length_encode _
theorem vmac (p : Pred) (sn : BitVec 5) (t : BitVec 3) (vt va vb vc : BitVec 6) : Statement (.vmac p sn t vt va vb vc) := length_encode _
theorem vrec (p : Pred) (vt va : BitVec 6) : Statement (.vrec p vt va) := length_encode _
theorem vand (p : Pred) (t : BitVec 3) (vt va vb : BitVec 6) : Statement (.vand p t vt va vb) := length_encode _
theorem vands (p : Pred) (t : BitVec 3) (vt va rb : BitVec 6) : Statement (.vands p t vt va rb) := length_encode _
theorem vor (p : Pred) (t : BitVec 3) (vt va vb : BitVec 6) : Statement (.vor p t vt va vb) := length_encode _
theorem vors (p : Pred) (t : BitVec 3) (vt va rb : BitVec 6) : Statement (.vors p t vt va rb) := length_encode _
theorem veor (p : Pred) (t : BitVec 3) (vt va vb : BitVec 6) : Statement (.veor p t vt va vb) := length_encode _
theorem veors (p : Pred) (t : BitVec 3) (vt va rb : BitVec 6) : Statement (.veors p t vt va rb) := length_encode _
theorem vcmp (p : Pred) (t : BitVec 3) (vpt : BitVec 4) (va vb : BitVec 6) : Statement (.vcmp p t vpt va vb) := length_encode _
theorem vcmps (p : Pred) (t : BitVec 3) (vpt : BitVec 4) (va rb : BitVec 6) : Statement (.vcmps p t vpt va rb) := length_encode _
theorem vex (p : Pred) (rt va ra : BitVec 6) : Statement (.vex p rt va ra) := length_encode _
theorem veins (p : Pred) (vt rb ra : BitVec 6) : Statement (.veins p vt rb ra) := length_encode _
theorem vshlv (p : Pred) (vt va ra : BitVec 6) : Statement (.vshlv p vt va ra) := length_encode _
theorem vshrv (p : Pred) (vt va ra : BitVec 6) : Statement (.vshrv p vt va ra) := length_encode _
theorem vbits2v (p : Pred) (vt ra : BitVec 6) : Statement (.vbits2v p vt ra) := length_encode _
theorem v2bits (p : Pred) (rt va : BitVec 6) : Statement (.v2bits p rt va) := length_encode _
theorem vflt2int (p : Pred) (vt va : BitVec 6) : Statement (.vflt2int p vt va) := length_encode _
theorem vint2flt (p : Pred) (vt va : BitVec 6) : Statement (.vint2flt p vt va) := length_encode _
theorem lv (p : Pred) (seg : BitVec 3) (vt ra : BitVec 6) : Statement (.lv p seg vt ra) := length_encode _
theorem lvws (p : Pred) (seg : BitVec 3) (vt ra rb : BitVec 6) : Statement (.lvws p seg vt ra rb) := length_encode _
theorem lvx (p : Pred) (seg : BitVec 3) (vt ra vb : BitVec 6) : Statement (.lvx p seg vt ra vb) := length_encode _
theorem sv (p : Pred) (seg : BitVec 3) (vs ra : BitVec 6) : Statement (.sv p seg vs ra) := length_encode _
theorem svws (p : Pred) (seg : BitVec 3) (vs ra rb : BitVec 6) : Statement (.svws p seg vs ra rb) := length_encode _
theorem svx (p : Pred) (seg : BitVec 3) (vs ra vb : BitVec 6) : Statement (.svx p seg vs ra vb) := length_encode _

end Sys2Proof.Laws.EncodeLength
end

