-- ==== Sys2Proof/Laws/Encoding.lean ====
section
/-! SUPPORT. Words and bytes: the fields of a word read from the bytes of an encoding are the fields of the encoded word. -/

namespace Sys2Proof

/-- Bit `k` of a word is bit `k mod 8` of byte `k / 8` (R54). -/
theorem getLsbD_wordOf (bs : List Byte) {k : Nat} (hk : k < 48) : (wordOf bs).getLsbD k = (byteAt bs (k / 8)).getLsbD (k % 8) := by
  have cases6 : k / 8 = 0 ∨ k / 8 = 1 ∨ k / 8 = 2 ∨ k / 8 = 3 ∨ k / 8 = 4 ∨ k / 8 = 5 := by omega
  simp only [wordOf, BitVec.getLsbD_append]
  rcases cases6 with h | h | h | h | h | h
  all_goals
    rw [h]
    repeat rw [if_neg (by omega)]
    try rw [if_pos (by omega)]
    congr 1
    omega

/-- A field that lies within one byte of a word is that field of the byte (R54). -/
theorem field_byteAt (bs : List Byte) (lo len k : Nat) (hk : lo / 8 = k) (h6 : k < 6) (h : lo % 8 + len ≤ 8) :
    field (wordOf bs) lo len = (byteAt bs k).extractLsb' (lo % 8) len := by
  ext j hj
  simp only [field, BitVec.getElem_extractLsb']
  rw [getLsbD_wordOf _ (by omega), show (lo + j) / 8 = k by omega, show (lo + j) % 8 = lo % 8 + j by omega]

/-- A byte of the low bytes of a word, whatever follows them. -/
theorem byteAt_toBytes {n : Nat} (w : BitVec 48) (rest : List Byte) {k : Nat} (hk : k < n) :
    byteAt (toBytes n w ++ rest) k = w.extractLsb' (8 * k) 8 := by
  rw [byteAt, List.getD_eq_getElem?_getD, List.getElem?_append_left (by simpa [toBytes] using hk)]
  simp [toBytes, hk]

/-- A field within the low bytes of a word is that field of the word, whatever bytes follow (R54). -/
theorem field_toBytes {n : Nat} (w : BitVec 48) (rest : List Byte) {lo len : Nat} (h : lo + len ≤ 8 * n) (h48 : lo + len ≤ 48) :
    field (wordOf (toBytes n w ++ rest)) lo len = field w lo len := by
  ext j hj
  have e : 8 * ((lo + j) / 8) + (lo + j) % 8 = lo + j := Nat.div_add_mod _ _
  simp only [field, BitVec.getElem_extractLsb', getLsbD_wordOf _ (show lo + j < 48 by omega)]
  rw [byteAt_toBytes _ _ (show (lo + j) / 8 < n by omega)]
  simp [show (lo + j) % 8 < 8 by omega, e]

/-- A field within the bytes of an encoding is that field of the encoded word, whatever bytes follow (R54, R107). -/
theorem field_encode (i : Instr) (rest : List Byte) {lo len : Nat} (h : lo + len ≤ 8 * i.ilen) (h48 : lo + len ≤ 48) :
    field (wordOf (encode i ++ rest)) lo len = field (encodeWord i) lo len := field_toBytes _ rest h h48

/-- The condition a condition's code names is that condition (R121). -/
theorem Cond.ofCode_code (c : Cond) : Cond.ofCode c.code = c := by cases c <;> rfl

/-- The code of the condition a code names is that code (R121). -/
theorem Cond.code_ofCode (c : BitVec 4) : (Cond.ofCode c).code = c := by revert c; decide

/-- A word whose low byte is a predicate byte has that predicate (R81). -/
theorem predOf_of_low {w : BitVec 48} {p : Pred} (h : field w 0 8 = p.byte) : predOf w = p := by
  have f4 : ∀ lo : Nat, lo + 4 ≤ 8 → field w lo 4 = (field w 0 8).extractLsb' lo 4 := by
    intro lo hl; ext j hj; simp [field, show lo + j < 8 by omega]
  rw [predOf, f4 _ (by decide), f4 _ (by decide), h]
  simp only [Pred.byte]
  rw [extract_append_high _ _ _ _ (by decide), extract_append_low _ _ _ _ (by decide)]
  simp [Cond.ofCode_code]

/-- The low byte of an encoded word is the predicate byte (R81, R107). -/
theorem low_encodeWord (i : Instr) : field (encodeWord i) 0 8 = i.pred.byte := by
  have short : ∀ {n : Nat} (a : BitVec n) (p : Pred), field ((a ++ p.byte).setWidth 48) 0 8 = p.byte := by
    intro n a p
    rw [field, extract_setWidth _ _ _ _ (by decide), extract_append_low _ _ _ _ (by decide)]; simp
  have full : ∀ (a : BitVec 40) (p : Pred), field (a ++ p.byte) 0 8 = p.byte := by
    intro a p
    rw [field, extract_append_low _ _ _ _ (by decide)]; simp
  cases i <;> simp only [encodeWord, encVV, encM3, encM2, encCmp, encCmps, encMac, encLS2, encLS3, Instr.pred] <;>
    first | rw [short] | rw [full]

/-- The predicate byte of an encoding, whatever bytes follow (R81, R107). -/
theorem predOf_encode (i : Instr) (rest : List Byte) : predOf (wordOf (encode i ++ rest)) = i.pred := by
  refine predOf_of_low ?_
  rw [field_encode i rest (by cases i <;> simp [Instr.ilen]) (by decide), low_encodeWord]

end Sys2Proof
end

