-- ==== Sys2Proof/Laws/State.lean ====
section
/-! SUPPORT. One lemma per field per update of the state, and the reset state's fields. -/

namespace Sys2Proof.Machine

variable (s : State)

/-! ## setV -/

@[simp] theorem State.setV_v (r : BitVec 6) (w : VReg) : (s.setV r w).v = s.v.setIfInBounds r.toNat w := rfl
@[simp] theorem State.setV_vp (r : BitVec 6) (w : VReg) : (s.setV r w).vp = s.vp := rfl
@[simp] theorem State.setV_vl (r : BitVec 6) (w : VReg) : (s.setV r w).vl = s.vl := rfl
@[simp] theorem State.setV_x (r : BitVec 6) (w : VReg) : (s.setV r w).x = s.x := rfl
@[simp] theorem State.setV_pc (r : BitVec 6) (w : VReg) : (s.setV r w).pc = s.pc := rfl
@[simp] theorem State.setV_mem (r : BitVec 6) (w : VReg) : (s.setV r w).mem = s.mem := rfl
@[simp] theorem State.setV_env (r : BitVec 6) (w : VReg) : (s.setV r w).env = s.env := rfl
@[simp] theorem State.setV_pendingVL (r : BitVec 6) (w : VReg) : (s.setV r w).pendingVL = s.pendingVL := rfl
@[simp] theorem State.setV_count (r : BitVec 6) (w : VReg) : (s.setV r w).count = s.count := rfl

/-! ## setP -/

@[simp] theorem State.setP_v (r : BitVec 4) (w : PReg) : (s.setP r w).v = s.v := rfl
@[simp] theorem State.setP_vp (r : BitVec 4) (w : PReg) : (s.setP r w).vp = s.vp.setIfInBounds r.toNat w := rfl
@[simp] theorem State.setP_vl (r : BitVec 4) (w : PReg) : (s.setP r w).vl = s.vl := rfl
@[simp] theorem State.setP_x (r : BitVec 4) (w : PReg) : (s.setP r w).x = s.x := rfl
@[simp] theorem State.setP_pc (r : BitVec 4) (w : PReg) : (s.setP r w).pc = s.pc := rfl
@[simp] theorem State.setP_mem (r : BitVec 4) (w : PReg) : (s.setP r w).mem = s.mem := rfl
@[simp] theorem State.setP_env (r : BitVec 4) (w : PReg) : (s.setP r w).env = s.env := rfl
@[simp] theorem State.setP_pendingVL (r : BitVec 4) (w : PReg) : (s.setP r w).pendingVL = s.pendingVL := rfl
@[simp] theorem State.setP_count (r : BitVec 4) (w : PReg) : (s.setP r w).count = s.count := rfl

/-! ## setMem -/

@[simp] theorem State.setMem_v (m : Memory) : (s.setMem m).v = s.v := rfl
@[simp] theorem State.setMem_vp (m : Memory) : (s.setMem m).vp = s.vp := rfl
@[simp] theorem State.setMem_vl (m : Memory) : (s.setMem m).vl = s.vl := rfl
@[simp] theorem State.setMem_x (m : Memory) : (s.setMem m).x = s.x := rfl
@[simp] theorem State.setMem_pc (m : Memory) : (s.setMem m).pc = s.pc := rfl
@[simp] theorem State.setMem_mem (m : Memory) : (s.setMem m).mem = m := rfl
@[simp] theorem State.setMem_env (m : Memory) : (s.setMem m).env = s.env := rfl
@[simp] theorem State.setMem_pendingVL (m : Memory) : (s.setMem m).pendingVL = s.pendingVL := rfl
@[simp] theorem State.setMem_count (m : Memory) : (s.setMem m).count = s.count := rfl

/-! ## retire -/

@[simp] theorem State.retire_v (i : Instr) : (s.retire i).v = s.v := rfl
@[simp] theorem State.retire_vp (i : Instr) : (s.retire i).vp = s.vp := rfl
@[simp] theorem State.retire_vl (i : Instr) : (s.retire i).vl = s.vl := rfl
@[simp] theorem State.retire_x (i : Instr) : (s.retire i).x = s.x := rfl
@[simp] theorem State.retire_pc (i : Instr) : (s.retire i).pc = s.pc + BitVec.ofNat 64 i.ilen := rfl
@[simp] theorem State.retire_mem (i : Instr) : (s.retire i).mem = s.mem := rfl
@[simp] theorem State.retire_env (i : Instr) : (s.retire i).env = s.env := rfl
@[simp] theorem State.retire_pendingVL (i : Instr) : (s.retire i).pendingVL = s.pendingVL := rfl
@[simp] theorem State.retire_count (i : Instr) : (s.retire i).count = s.count + 1 := rfl

/-! ## setVL -/

@[simp] theorem State.setVL_v (n : Fin 17) : (s.setVL n).v = s.v := rfl
@[simp] theorem State.setVL_vp (n : Fin 17) : (s.setVL n).vp = s.vp := rfl
@[simp] theorem State.setVL_vl (n : Fin 17) : (s.setVL n).vl = n := rfl
@[simp] theorem State.setVL_x (n : Fin 17) : (s.setVL n).x = s.x := rfl
@[simp] theorem State.setVL_pc (n : Fin 17) : (s.setVL n).pc = s.pc := rfl
@[simp] theorem State.setVL_mem (n : Fin 17) : (s.setVL n).mem = s.mem := rfl
@[simp] theorem State.setVL_env (n : Fin 17) : (s.setVL n).env = s.env := rfl
@[simp] theorem State.setVL_pendingVL (n : Fin 17) : (s.setVL n).pendingVL = s.pendingVL := rfl
@[simp] theorem State.setVL_count (n : Fin 17) : (s.setVL n).count = s.count := rfl

/-! ## takeAction -/

@[simp] theorem State.takeAction_v (a : SetVLAction) : (s.takeAction a).v = s.v := rfl
@[simp] theorem State.takeAction_vp (a : SetVLAction) : (s.takeAction a).vp = s.vp := rfl
@[simp] theorem State.takeAction_x (a : SetVLAction) : (s.takeAction a).x = s.x := rfl
@[simp] theorem State.takeAction_pc (a : SetVLAction) : (s.takeAction a).pc = s.pc := rfl
@[simp] theorem State.takeAction_mem (a : SetVLAction) : (s.takeAction a).mem = s.mem := rfl
@[simp] theorem State.takeAction_env (a : SetVLAction) : (s.takeAction a).env = s.env := rfl
@[simp] theorem State.takeAction_count (a : SetVLAction) : (s.takeAction a).count = s.count := rfl
@[simp] theorem State.takeAction_vl (a : SetVLAction) : (s.takeAction a).vl = a.vl := rfl
@[simp] theorem State.takeAction_pendingVL (a : SetVLAction) : (s.takeAction a).pendingVL = s.pendingVL.tail := rfl

/-! ## writeElems -/

@[simp] theorem State.writeElems_vp (r : BitVec 6) (w : Fin 16 → Bool) (f : Fin 16 → Word) : (s.writeElems r w f).vp = s.vp := rfl
@[simp] theorem State.writeElems_vl (r : BitVec 6) (w : Fin 16 → Bool) (f : Fin 16 → Word) : (s.writeElems r w f).vl = s.vl := rfl
@[simp] theorem State.writeElems_x (r : BitVec 6) (w : Fin 16 → Bool) (f : Fin 16 → Word) : (s.writeElems r w f).x = s.x := rfl
@[simp] theorem State.writeElems_pc (r : BitVec 6) (w : Fin 16 → Bool) (f : Fin 16 → Word) : (s.writeElems r w f).pc = s.pc := rfl
@[simp] theorem State.writeElems_mem (r : BitVec 6) (w : Fin 16 → Bool) (f : Fin 16 → Word) : (s.writeElems r w f).mem = s.mem := rfl
@[simp] theorem State.writeElems_env (r : BitVec 6) (w : Fin 16 → Bool) (f : Fin 16 → Word) : (s.writeElems r w f).env = s.env := rfl
@[simp] theorem State.writeElems_pendingVL (r : BitVec 6) (w : Fin 16 → Bool) (f : Fin 16 → Word) : (s.writeElems r w f).pendingVL = s.pendingVL := rfl
@[simp] theorem State.writeElems_count (r : BitVec 6) (w : Fin 16 → Bool) (f : Fin 16 → Word) : (s.writeElems r w f).count = s.count := rfl

/-! ## writeFlags -/

@[simp] theorem State.writeFlags_v (r : BitVec 4) (w : Fin 16 → Bool) (f : Fin 16 → Flags) : (s.writeFlags r w f).v = s.v := rfl
@[simp] theorem State.writeFlags_vl (r : BitVec 4) (w : Fin 16 → Bool) (f : Fin 16 → Flags) : (s.writeFlags r w f).vl = s.vl := rfl
@[simp] theorem State.writeFlags_x (r : BitVec 4) (w : Fin 16 → Bool) (f : Fin 16 → Flags) : (s.writeFlags r w f).x = s.x := rfl
@[simp] theorem State.writeFlags_pc (r : BitVec 4) (w : Fin 16 → Bool) (f : Fin 16 → Flags) : (s.writeFlags r w f).pc = s.pc := rfl
@[simp] theorem State.writeFlags_mem (r : BitVec 4) (w : Fin 16 → Bool) (f : Fin 16 → Flags) : (s.writeFlags r w f).mem = s.mem := rfl
@[simp] theorem State.writeFlags_env (r : BitVec 4) (w : Fin 16 → Bool) (f : Fin 16 → Flags) : (s.writeFlags r w f).env = s.env := rfl
@[simp] theorem State.writeFlags_pendingVL (r : BitVec 4) (w : Fin 16 → Bool) (f : Fin 16 → Flags) : (s.writeFlags r w f).pendingVL = s.pendingVL := rfl
@[simp] theorem State.writeFlags_count (r : BitVec 4) (w : Fin 16 → Bool) (f : Fin 16 → Flags) : (s.writeFlags r w f).count = s.count := rfl

/-! ## loadElems -/

@[simp] theorem State.loadElems_vp (r : BitVec 6) (cs : List Access) : (s.loadElems r cs).vp = s.vp := rfl
@[simp] theorem State.loadElems_vl (r : BitVec 6) (cs : List Access) : (s.loadElems r cs).vl = s.vl := rfl
@[simp] theorem State.loadElems_x (r : BitVec 6) (cs : List Access) : (s.loadElems r cs).x = s.x := rfl
@[simp] theorem State.loadElems_pc (r : BitVec 6) (cs : List Access) : (s.loadElems r cs).pc = s.pc := rfl
@[simp] theorem State.loadElems_mem (r : BitVec 6) (cs : List Access) : (s.loadElems r cs).mem = s.mem := rfl
@[simp] theorem State.loadElems_env (r : BitVec 6) (cs : List Access) : (s.loadElems r cs).env = s.env := rfl
@[simp] theorem State.loadElems_pendingVL (r : BitVec 6) (cs : List Access) : (s.loadElems r cs).pendingVL = s.pendingVL := rfl
@[simp] theorem State.loadElems_count (r : BitVec 6) (cs : List Access) : (s.loadElems r cs).count = s.count := rfl

/-! ## storeElems -/

@[simp] theorem State.storeElems_v (r : BitVec 6) (cs : List Access) : (s.storeElems r cs).v = s.v := rfl
@[simp] theorem State.storeElems_vp (r : BitVec 6) (cs : List Access) : (s.storeElems r cs).vp = s.vp := rfl
@[simp] theorem State.storeElems_vl (r : BitVec 6) (cs : List Access) : (s.storeElems r cs).vl = s.vl := rfl
@[simp] theorem State.storeElems_x (r : BitVec 6) (cs : List Access) : (s.storeElems r cs).x = s.x := rfl
@[simp] theorem State.storeElems_pc (r : BitVec 6) (cs : List Access) : (s.storeElems r cs).pc = s.pc := rfl
@[simp] theorem State.storeElems_env (r : BitVec 6) (cs : List Access) : (s.storeElems r cs).env = s.env := rfl
@[simp] theorem State.storeElems_pendingVL (r : BitVec 6) (cs : List Access) : (s.storeElems r cs).pendingVL = s.pendingVL := rfl
@[simp] theorem State.storeElems_count (r : BitVec 6) (cs : List Access) : (s.storeElems r cs).count = s.count := rfl

/-! ## setGpr -/

@[simp] theorem State.setGpr_v (r : BitVec 6) (w : Word) : (s.setGpr r w).v = s.v := by
  unfold State.setGpr; split <;> rfl
@[simp] theorem State.setGpr_vp (r : BitVec 6) (w : Word) : (s.setGpr r w).vp = s.vp := by
  unfold State.setGpr; split <;> rfl
@[simp] theorem State.setGpr_vl (r : BitVec 6) (w : Word) : (s.setGpr r w).vl = s.vl := by
  unfold State.setGpr; split <;> rfl
theorem State.setGpr_x (r : BitVec 6) (w : Word) :
    (s.setGpr r w).x = if s.env.gpr0Zero ∧ r = 0#6 then s.x else s.x.set r.toNat w r.isLt := by
  unfold State.setGpr; split <;> rfl
@[simp] theorem State.setGpr_pc (r : BitVec 6) (w : Word) : (s.setGpr r w).pc = s.pc := by
  unfold State.setGpr; split <;> rfl
@[simp] theorem State.setGpr_mem (r : BitVec 6) (w : Word) : (s.setGpr r w).mem = s.mem := by
  unfold State.setGpr; split <;> rfl
@[simp] theorem State.setGpr_env (r : BitVec 6) (w : Word) : (s.setGpr r w).env = s.env := by
  unfold State.setGpr; split <;> rfl
@[simp] theorem State.setGpr_pendingVL (r : BitVec 6) (w : Word) : (s.setGpr r w).pendingVL = s.pendingVL := by
  unfold State.setGpr; split <;> rfl
@[simp] theorem State.setGpr_count (r : BitVec 6) (w : Word) : (s.setGpr r w).count = s.count := by
  unfold State.setGpr; split <;> rfl

end Sys2Proof.Machine
end

