-- ==== Sys2Proof/Laws/Registers.lean ====
section
/-! SUPPORT. What a register reads as after a write. -/

namespace Sys2Proof.Machine

variable (s : State)

/-! ## Reads that a write elsewhere leaves alone -/

@[simp] theorem State.elem_setMem (m : Memory) (r : BitVec 6) (x : Fin 16) : (s.setMem m).elem r x = s.elem r x := rfl
@[simp] theorem State.elem_setP (q : BitVec 4) (w : PReg) (r : BitVec 6) (x : Fin 16) : (s.setP q w).elem r x = s.elem r x := rfl
@[simp] theorem State.elem_retire (i : Instr) (r : BitVec 6) (x : Fin 16) : (s.retire i).elem r x = s.elem r x := rfl
@[simp] theorem State.elem_setVL (n : Fin 17) (r : BitVec 6) (x : Fin 16) : (s.setVL n).elem r x = s.elem r x := rfl
@[simp] theorem State.elem_writeFlags (q : BitVec 4) (w : Fin 16 → Bool) (f : Fin 16 → Flags) (r : BitVec 6) (x : Fin 16) :
    (s.writeFlags q w f).elem r x = s.elem r x := rfl
@[simp] theorem State.elem_storeElems (q : BitVec 6) (cs : List Access) (r : BitVec 6) (x : Fin 16) :
    (s.storeElems q cs).elem r x = s.elem r x := rfl
@[simp] theorem State.elem_setGpr (q : BitVec 6) (w : Word) (r : BitVec 6) (x : Fin 16) :
    (s.setGpr q w).elem r x = s.elem r x := by simp [State.elem]

@[simp] theorem State.flags_setMem (m : Memory) (r : BitVec 4) (x : Fin 16) : (s.setMem m).flags r x = s.flags r x := rfl
@[simp] theorem State.flags_setV (q : BitVec 6) (w : VReg) (r : BitVec 4) (x : Fin 16) : (s.setV q w).flags r x = s.flags r x := rfl
@[simp] theorem State.flags_retire (i : Instr) (r : BitVec 4) (x : Fin 16) : (s.retire i).flags r x = s.flags r x := rfl
@[simp] theorem State.flags_setVL (n : Fin 17) (r : BitVec 4) (x : Fin 16) : (s.setVL n).flags r x = s.flags r x := rfl
@[simp] theorem State.flags_writeElems (q : BitVec 6) (w : Fin 16 → Bool) (f : Fin 16 → Word) (r : BitVec 4) (x : Fin 16) :
    (s.writeElems q w f).flags r x = s.flags r x := rfl
@[simp] theorem State.flags_loadElems (q : BitVec 6) (cs : List Access) (r : BitVec 4) (x : Fin 16) :
    (s.loadElems q cs).flags r x = s.flags r x := rfl
@[simp] theorem State.flags_storeElems (q : BitVec 6) (cs : List Access) (r : BitVec 4) (x : Fin 16) :
    (s.storeElems q cs).flags r x = s.flags r x := rfl
@[simp] theorem State.flags_setGpr (q : BitVec 6) (w : Word) (r : BitVec 4) (x : Fin 16) :
    (s.setGpr q w).flags r x = s.flags r x := by simp [State.flags]

@[simp] theorem State.gpr_setMem (m : Memory) (r : BitVec 6) : (s.setMem m).gpr r = s.gpr r := rfl
@[simp] theorem State.gpr_setV (q : BitVec 6) (w : VReg) (r : BitVec 6) : (s.setV q w).gpr r = s.gpr r := rfl
@[simp] theorem State.gpr_setP (q : BitVec 4) (w : PReg) (r : BitVec 6) : (s.setP q w).gpr r = s.gpr r := rfl
@[simp] theorem State.gpr_retire (i : Instr) (r : BitVec 6) : (s.retire i).gpr r = s.gpr r := rfl
@[simp] theorem State.gpr_setVL (n : Fin 17) (r : BitVec 6) : (s.setVL n).gpr r = s.gpr r := rfl
@[simp] theorem State.gpr_writeElems (q : BitVec 6) (w : Fin 16 → Bool) (f : Fin 16 → Word) (r : BitVec 6) :
    (s.writeElems q w f).gpr r = s.gpr r := rfl
@[simp] theorem State.gpr_writeFlags (q : BitVec 4) (w : Fin 16 → Bool) (f : Fin 16 → Flags) (r : BitVec 6) :
    (s.writeFlags q w f).gpr r = s.gpr r := rfl
@[simp] theorem State.gpr_loadElems (q : BitVec 6) (cs : List Access) (r : BitVec 6) :
    (s.loadElems q cs).gpr r = s.gpr r := rfl
@[simp] theorem State.gpr_storeElems (q : BitVec 6) (cs : List Access) (r : BitVec 6) :
    (s.storeElems q cs).gpr r = s.gpr r := rfl

/-! ## Vector registers -/

/-- A vector register that exists reads back what it was replaced by. -/
theorem State.elem_setV_same {r : BitVec 6} (h : r.toNat < 8) (w : VReg) (x : Fin 16) : (s.setV r w).elem r x = w[x.val] := by
  simp [State.elem, State.setV, h]

/-- Replacing one vector register leaves the others alone. -/
theorem State.elem_setV_other {r q : BitVec 6} (h : q ≠ r) (w : VReg) (x : Fin 16) : (s.setV r w).elem q x = s.elem q x := by
  have : r.toNat ≠ q.toNat := fun e => h (BitVec.eq_of_toNat_eq e.symm)
  simp [State.elem, State.setV, this]

/-- The elements selected are written, the others of the register keep their values (R25). -/
theorem State.elem_writeElems_same {r : BitVec 6} (h : r.toNat < 8) (w : Fin 16 → Bool) (f : Fin 16 → Word) (x : Fin 16) :
    (s.writeElems r w f).elem r x = if w x then f x else s.elem r x := by
  simp [State.writeElems, s.elem_setV_same h]

/-- Writing elements of one register leaves the others alone. -/
theorem State.elem_writeElems_other {r q : BitVec 6} (h : q ≠ r) (w : Fin 16 → Bool) (f : Fin 16 → Word) (x : Fin 16) :
    (s.writeElems r w f).elem q x = s.elem q x := s.elem_setV_other h _ x

/-- The element a list of loads leaves in a register: the datum loaded by the access of that element, if there is one. -/
theorem State.elem_loadElems_same {r : BitVec 6} (h : r.toNat < 8) (cs : List Access) (x : Fin 16) :
    (s.loadElems r cs).elem r x =
      match cs.find? (fun c => c.elem == x) with
      | some c => (c.loaded s.mem).getD (s.elem r x)
      | none => s.elem r x :=
  (s.elem_setV_same h _ x).trans (Vector.getElem_ofFn _)

/-- Loading into one register leaves the others alone. -/
theorem State.elem_loadElems_other {r q : BitVec 6} (h : q ≠ r) (cs : List Access) (x : Fin 16) :
    (s.loadElems r cs).elem q x = s.elem q x := s.elem_setV_other h _ x

/-! ## Predicate registers -/

/-- A predicate register that exists reads back what it was replaced by. -/
theorem State.flags_setP_same {r : BitVec 4} (h : r.toNat < 8) (w : PReg) (x : Fin 16) : (s.setP r w).flags r x = w[x.val] := by
  simp [State.flags, State.setP, h]

/-- Replacing one predicate register leaves the others alone. -/
theorem State.flags_setP_other {r q : BitVec 4} (h : q ≠ r) (w : PReg) (x : Fin 16) : (s.setP r w).flags q x = s.flags q x := by
  have : r.toNat ≠ q.toNat := fun e => h (BitVec.eq_of_toNat_eq e.symm)
  simp [State.flags, State.setP, this]

/-- The flags selected are written, the others of the register keep all three (R25, R180). -/
theorem State.flags_writeFlags_same {r : BitVec 4} (h : r.toNat < 8) (w : Fin 16 → Bool) (f : Fin 16 → Flags) (x : Fin 16) :
    (s.writeFlags r w f).flags r x = if w x then f x else s.flags r x := by
  simp [State.writeFlags, s.flags_setP_same h]

/-- Writing flags of one register leaves the others alone. -/
theorem State.flags_writeFlags_other {r q : BitVec 4} (h : q ≠ r) (w : Fin 16 → Bool) (f : Fin 16 → Flags) (x : Fin 16) :
    (s.writeFlags r w f).flags q x = s.flags q x := s.flags_setP_other h _ x

/-! ## General registers -/

/-- What any general register reads as after a write of register `r` (R32). -/
theorem State.gpr_setGpr_cases (r q : BitVec 6) (w : Word) :
    (s.setGpr r w).gpr q = if s.env.gpr0Zero ∧ q = 0#6 then 0#64 else if q = r then w else s.gpr q := by
  by_cases hz : s.env.gpr0Zero = true ∧ q = 0#6
  · simp [State.gpr, hz]
  · by_cases hq : q = r
    · subst hq; simp [State.gpr, State.setGpr, hz]
    · have : r.toNat ≠ q.toNat := fun e => hq (BitVec.eq_of_toNat_eq e.symm)
      by_cases hr : s.env.gpr0Zero = true ∧ r = 0#6
      · rw [State.setGpr, if_pos hr, if_neg hz, if_neg hq]
      · simp [State.setGpr, State.gpr, hr, hz, hq, this]

/-! ## The mask -/

/-- When an element is active (R125). -/

theorem State.active_iff (p : Pred) (x : Fin 16) :
    s.active p x = true ↔ x.val < s.vl.val ∧ s.mask p x = true := by simp [State.active]

end Sys2Proof.Machine
end

