-- ==== Sys2Proof/Laws/Memory.lean ====
section
/-! SUPPORT. The laws of memory: what a byte reads as after a write, and that every operation keeps the canonical form. -/

namespace Sys2Proof.Machine

/-! ## Reading after writing -/

/-- A byte reads back as written. -/
@[simp] theorem Memory.read_write_same (m : Memory) (a : Nat) (b : Byte) : (m.write a b).read a = some b := by
  induction m with
  | nil => simp [Memory.write, Memory.read]
  | cons c m ih =>
    simp only [Memory.write]
    split
    · simp [Memory.read]
    · split
      · simp [Memory.read]
      · rename_i h; simp [Memory.read, Ne.symm h, ih]

/-- Writing one byte leaves every other alone. -/
theorem Memory.read_write_other (m : Memory) {a d : Nat} (h : d ≠ a) (b : Byte) : (m.write a b).read d = m.read d := by
  induction m with
  | nil => simp [Memory.write, Memory.read, Ne.symm h]
  | cons c m ih =>
    simp only [Memory.write]
    split
    · simp [Memory.read, Ne.symm h]
    · split
      · rename_i e; simp [Memory.read, ← e, Ne.symm h]
      · simp [Memory.read, ih]

/-- Any byte after one byte is written. -/
theorem Memory.read_write (m : Memory) (a d : Nat) (b : Byte) :
    (m.write a b).read d = if d = a then some b else m.read d := by
  by_cases h : d = a
  · subst h; simp
  · simp [h, m.read_write_other h]

/-- Bytes written in a row: what any address reads as after the first `n` bytes of a datum are written. -/
theorem Memory.read_foldl_write (m : Memory) (a d n : Nat) (f : Nat → Byte) :
    ((List.range n).foldl (fun m k => m.write (a + k) (f k)) m).read d =
      if a ≤ d ∧ d < a + n then some (f (d - a)) else m.read d := by
  induction n with
  | zero => simp
  | succ n ih =>
    rw [List.range_succ, List.foldl_append, List.foldl_cons, List.foldl_nil, Memory.read_write, ih]
    by_cases e : d = a + n
    · subst e; simp
    · rw [if_neg e]
      by_cases h : a ≤ d ∧ d < a + n
      · rw [if_pos h, if_pos (by omega)]
      · rw [if_neg h, if_neg (by omega)]

/-- Any byte after a 64-bit datum is written: little-endian (R51, R53). -/
theorem Memory.read_writeWord (m : Memory) (a d : Nat) (w : Word) :
    (m.writeWord a w).read d = if a ≤ d ∧ d < a + 8 then some (byteOf w (d - a)) else m.read d :=
  m.read_foldl_write a d 8 (byteOf w)

/-- A datum that can be read: its bytes, lowest first (R51, R52). -/
theorem Memory.readWord_byte {m : Memory} {a : Nat} {w : Word} (h : m.readWord a = some w) {k : Nat} (hk : k < 8) :
    m.read (a + k) = some (byteOf w k) := by
  simp only [Memory.readWord, Option.bind_eq_some_iff, Option.some.injEq] at h
  obtain ⟨b0, h0, b1, h1, b2, h2, b3, h3, b4, h4, b5, h5, b6, h6, b7, h7, rfl⟩ := h
  have split : k = 0 ∨ k = 1 ∨ k = 2 ∨ k = 3 ∨ k = 4 ∨ k = 5 ∨ k = 6 ∨ k = 7 := by omega
  rcases split with rfl | rfl | rfl | rfl | rfl | rfl | rfl | rfl
  all_goals
    simp only [Nat.add_zero, h0, h1, h2, h3, h4, h5, h6, h7, byteOf, Option.some.injEq]
    repeat rw [extract_append_high _ _ _ _ (by decide)]
    try rw [extract_append_low _ _ _ _ (by decide)]
    simp

/-- A datum can be read exactly where its eight bytes hold values (R52). -/
theorem Memory.readWord_isSome (m : Memory) (a : Nat) :
    (m.readWord a).isSome = true ↔ ∀ k, k < 8 → (m.read (a + k)).isSome = true := by
  constructor
  · intro h k hk
    obtain ⟨w, hw⟩ := Option.isSome_iff_exists.mp h
    simp [Memory.readWord_byte hw hk]
  · intro h
    obtain ⟨b0, h0⟩ := Option.isSome_iff_exists.mp (h 0 (by decide))
    obtain ⟨b1, h1⟩ := Option.isSome_iff_exists.mp (h 1 (by decide))
    obtain ⟨b2, h2⟩ := Option.isSome_iff_exists.mp (h 2 (by decide))
    obtain ⟨b3, h3⟩ := Option.isSome_iff_exists.mp (h 3 (by decide))
    obtain ⟨b4, h4⟩ := Option.isSome_iff_exists.mp (h 4 (by decide))
    obtain ⟨b5, h5⟩ := Option.isSome_iff_exists.mp (h 5 (by decide))
    obtain ⟨b6, h6⟩ := Option.isSome_iff_exists.mp (h 6 (by decide))
    obtain ⟨b7, h7⟩ := Option.isSome_iff_exists.mp (h 7 (by decide))
    rw [Nat.add_zero] at h0
    simp [Memory.readWord, h0, h1, h2, h3, h4, h5, h6, h7]

/-! ## The canonical form -/

/-- Writing a byte of the address space keeps addresses rising. -/
theorem Memory.risesFrom_write {lo : Nat} {m : Memory} (h : Memory.risesFrom lo m = true) {a : Nat} (b : Byte) (hlo : lo ≤ a)
    (ha : a < 2 ^ 64) : Memory.risesFrom lo (m.write a b) = true := by
  induction m generalizing lo with
  | nil => simp [Memory.write, Memory.risesFrom, hlo]; omega
  | cons c m ih =>
    simp only [Memory.risesFrom, Bool.and_eq_true, decide_eq_true_eq] at h
    obtain ⟨⟨h1, h2⟩, h3⟩ := h
    simp only [Memory.write]
    split
    · simp [Memory.risesFrom, *]; omega
    · split
      · rename_i e; subst e; simp [Memory.risesFrom, *]; omega
      · have := ih h3 (by omega); simp [Memory.risesFrom, *]; omega

/-- Writing a byte of the address space keeps the canonical form. -/
theorem Memory.wf_write {m : Memory} (h : m.wf = true) {a : Nat} (b : Byte) (ha : a < 2 ^ 64) : (m.write a b).wf = true :=
  Memory.risesFrom_write h b (Nat.zero_le a) ha

/-- Writing a datum within the address space keeps the canonical form. -/
theorem Memory.wf_writeWord {m : Memory} (h : m.wf = true) {a : Nat} (w : Word) (ha : a + 8 ≤ 2 ^ 64) :
    (m.writeWord a w).wf = true := by
  have key : ∀ n, n ≤ 8 → ((List.range n).foldl (fun m k => m.write (a + k) (byteOf w k)) m).wf = true := by
    intro n hn
    induction n with
    | zero => exact h
    | succ n ih =>
      rw [List.range_succ, List.foldl_append, List.foldl_cons, List.foldl_nil]
      exact Memory.wf_write (ih (by omega)) _ (by omega)
  exact key 8 (by decide)

/-- Writing a datum at the address of each of some accesses, all within the address space, keeps the canonical form. -/
theorem Memory.wf_foldl_writeWord {cs : List Access} {f : Access → Word → Word} {m : Memory} (h : m.wf = true)
    (hc : ∀ c ∈ cs, ∀ a, c.addr = some a → a.toNat + 8 ≤ 2 ^ 64) :
    (cs.foldl (fun m c => match c.addr with
      | some a => m.writeWord a.toNat (f c a)
      | none => m) m).wf = true := by
  induction cs generalizing m with
  | nil => exact h
  | cons c cs ih =>
    rw [List.foldl_cons]
    refine ih ?_ fun d hd => hc d (List.mem_cons_of_mem _ hd)
    cases e : c.addr with
    | none => exact h
    | some a => exact Memory.wf_writeWord h _ (hc c List.mem_cons_self a e)

end Sys2Proof.Machine
end

