-- ==== Sys2Proof/Laws/Ops.lean ====
section
/-! SUPPORT. What each shared operation can do, said once: the skeleton of an instruction, the accesses of a load or store, the
loads and stores themselves. -/

namespace Sys2Proof.Machine

/-! ## The skeleton -/

/-- An instruction that no static check refuses and whose condition is not the always-false one has its own effect (R120). -/
theorem perform_executes {i : Instr} {s : State} (h : staticCheck s.env.snDecode.isSome i = none) (hc : i.pred.cond ≠ .pf)
    (e : Result) : perform i s e = e := by simp [perform, h, hc]

/-- Everything the skeleton can answer (R120): a static refusal, the mere end of an instruction whose condition is always false, or
the effect. -/
theorem perform_cases (i : Instr) (s : State) (e : Result) :
    (∃ r, staticCheck s.env.snDecode.isSome i = some r ∧ perform i s e = .refused (.static r)) ∨
    (staticCheck s.env.snDecode.isSome i = none ∧ i.pred.cond = .pf ∧ perform i s e = .next (s.retire i)) ∨
    (staticCheck s.env.snDecode.isSome i = none ∧ i.pred.cond ≠ .pf ∧ perform i s e = e) := by
  cases h : staticCheck s.env.snDecode.isSome i with
  | some r => exact .inl ⟨r, rfl, by simp [perform, h]⟩
  | none =>
    by_cases hc : i.pred.cond = .pf
    · exact .inr (.inl ⟨rfl, hc, by simp [perform, h, hc]⟩)
    · exact .inr (.inr ⟨rfl, hc, perform_executes h hc e⟩)

/-- If the skeleton answers a next state, it is the mere end of the instruction or the effect's. -/
theorem perform_next {i : Instr} {s t : State} {e : Result} (h : perform i s e = .next t) :
    t = s.retire i ∨ e = .next t := by
  obtain ⟨r, _, hr⟩ | ⟨_, _, hr⟩ | ⟨_, _, hr⟩ := perform_cases i s e
  · rw [hr] at h; cases h
  · rw [hr] at h; cases h; exact .inl rfl
  · exact .inr (hr ▸ h)

/-- If the skeleton answers a fault, the instruction executes and the fault is the effect's. -/
theorem perform_fault {i : Instr} {s : State} {f : Fault} {e : Result} (h : perform i s e = .fault f) :
    staticCheck s.env.snDecode.isSome i = none ∧ i.pred.cond ≠ .pf ∧ e = .fault f := by
  obtain ⟨r, _, hr⟩ | ⟨_, _, hr⟩ | ⟨h1, h2, hr⟩ := perform_cases i s e
  · rw [hr] at h; cases h
  · rw [hr] at h; cases h
  · exact ⟨h1, h2, hr ▸ h⟩

/-- If the skeleton answers a refusal, it is that of the static checks or, where they refuse nothing, the effect's. -/
theorem perform_refused {i : Instr} {s : State} {q : Refusal} {e : Result} (h : perform i s e = .refused q) :
    (∃ r, staticCheck s.env.snDecode.isSome i = some r ∧ q = .static r) ∨
    (staticCheck s.env.snDecode.isSome i = none ∧ e = .refused q) := by
  obtain ⟨r, hc, hr⟩ | ⟨_, _, hr⟩ | ⟨hc, _, hr⟩ := perform_cases i s e
  · rw [hr] at h; cases h; exact .inl ⟨r, hc, rfl⟩
  · rw [hr] at h; cases h
  · exact .inr ⟨hc, hr ▸ h⟩

/-- If an instruction that writes a vector register answers a next state, it is the mere end of the instruction or
the write. -/
theorem writeVector_next {i : Instr} {r : BitVec 6} {f : Fin 16 → Word} {s t : State} (h : writeVector i r f s = .next t) :
    t = s.retire i ∨ t = (s.writeElems r (s.active i.pred) f).retire i := by
  rcases perform_next h with h | h
  · exact .inl h
  · cases h; exact .inr rfl

/-- An instruction that writes a vector register never faults. -/
theorem writeVector_not_fault (i : Instr) (r : BitVec 6) (f : Fin 16 → Word) (s : State) (g : Fault) :
    writeVector i r f s ≠ .fault g := fun h => by cases (perform_fault h).2.2

/-- If an instruction that writes a predicate register answers a next state, it is the mere end of the instruction or
the write. -/
theorem writePredicate_next {i : Instr} {r : BitVec 4} {f : Fin 16 → Flags} {s t : State}
    (h : writePredicate i r f s = .next t) : t = s.retire i ∨ t = (s.writeFlags r (s.active i.pred) f).retire i := by
  rcases perform_next h with h | h
  · exact .inl h
  · cases h; exact .inr rfl

/-- An instruction that writes a predicate register never faults. -/
theorem writePredicate_not_fault (i : Instr) (r : BitVec 4) (f : Fin 16 → Flags) (s : State) (g : Fault) :
    writePredicate i r f s ≠ .fault g := fun h => by cases (perform_fault h).2.2

/-! ## Choices -/

/-- There is no choice exactly where there is nothing to choose from. -/
theorem chooseOne_eq_none {α : Type} {d : Nat} {xs : List α} : chooseOne d xs = none ↔ xs = [] := by
  match xs with
  | [] => simp [chooseOne]
  | [y] => simp [chooseOne]
  | y :: z :: ys =>
    have : d % (y :: z :: ys).length < (y :: z :: ys).length := Nat.mod_lt _ (by simp)
    simp only [chooseOne, reduceCtorEq, iff_false, List.getElem?_eq_none_iff]
    omega

/-- What is chosen is in the list. -/
theorem chooseOne_mem {α : Type} {d : Nat} {xs : List α} {y : α} (h : chooseOne d xs = some y) : y ∈ xs := by
  match xs with
  | [] => simp [chooseOne] at h
  | [z] => simp_all [chooseOne]
  | z :: w :: ys => exact List.mem_of_getElem? h

/-! ## The accesses of a load or store -/

/-- The access that element `x` makes (R210). -/
def accessAt (s : State) (seg : BitVec 3) (off : Fin 16 → Word) (x : Fin 16) : Access :=
  ⟨x, off x, s.env.segMap seg (off x)⟩

/-- The accesses are those of the active elements (R210). -/
theorem mem_accesses {s : State} {p : Pred} {seg : BitVec 3} {off : Fin 16 → Word} {c : Access} :
    c ∈ accesses s p seg off ↔ s.active p c.elem = true ∧ c = accessAt s seg off c.elem := by
  simp only [accesses, List.mem_map, List.mem_filter, List.mem_finRange, true_and]
  constructor
  · rintro ⟨x, hx, rfl⟩; exact ⟨hx, rfl⟩
  · rintro ⟨hx, hc⟩; exact ⟨c.elem, hx, hc.symm⟩

/-- In a list of accesses of one instruction, each element has at most its own. -/
theorem find_access {s : State} {seg : BitVec 3} {off : Fin 16 → Word} {cs : List Access}
    (h : ∀ c ∈ cs, c = accessAt s seg off c.elem) (x : Fin 16) :
    (accessAt s seg off x ∈ cs ∧ cs.find? (fun c => c.elem == x) = some (accessAt s seg off x)) ∨
    (accessAt s seg off x ∉ cs ∧ cs.find? (fun c => c.elem == x) = none) := by
  cases e : cs.find? (fun c => c.elem == x) with
  | some c =>
    have hx : c.elem = x := by simpa using List.find?_some e
    have hm := List.mem_of_find?_eq_some e
    have := h c hm
    rw [hx] at this
    exact .inl ⟨this ▸ hm, by rw [← this]⟩
  | none =>
    refine .inr ⟨fun hm => ?_, rfl⟩
    have := List.find?_eq_none.mp e _ hm
    simp [accessAt] at this

/-- The set of faulting accesses (R210). -/
theorem mem_faulting {e : Env} {kind : AccessKind} {cs : List Access} {c : Access} {k : Cause} :
    (c, k) ∈ faulting e kind cs ↔ c ∈ cs ∧ c.cause e kind = some k := by
  simp [faulting, List.mem_filterMap]

/-- The accesses that may have been performed before an exception do not fault (R218). -/
theorem mem_partlyDone {s : State} {kind : AccessKind} {cs : List Access} {c : Access} (h : c ∈ partlyDone s kind cs) :
    c ∈ cs ∧ c.cause s.env kind = none := by
  simp only [partlyDone, List.mem_filter, Bool.and_eq_true, Option.isNone_iff_eq_none] at h
  exact ⟨h.1, h.2.1⟩

/-! ## Loads -/

/-- If a load answers a next state: it merely ends, or nothing is refused, nothing faults, every byte holds a value, and every
active element takes what it loads (R210). -/
theorem vecLoad_next {i : Instr} {seg : BitVec 3} {vt : BitVec 6} {off : Fin 16 → Word} {s t : State}
    (h : vecLoad i seg vt off s = .next t) :
    t = s.retire i ∨
    ((∀ c ∈ accesses s i.pred seg off, c.misaligned = false) ∧ faulting s.env .load (accesses s i.pred seg off) = [] ∧
      (∀ c ∈ accesses s i.pred seg off, (c.loaded s.mem).isSome = true) ∧
      t = (s.loadElems vt (accesses s i.pred seg off)).retire i) := by
  rcases perform_next h with h | h
  · exact .inl h
  · refine .inr ?_
    dsimp only at h
    split at h
    · cases h
    · rename_i hm
      split at h
      · cases h
      · rename_i hf
        split at h
        · rename_i hl
          cases h
          refine ⟨fun c hc => ?_, chooseOne_eq_none.mp hf, by simpa using hl, rfl⟩
          simp only [List.any_eq_true, not_exists, not_and, Bool.not_eq_true] at hm
          exact hm c hc
        · cases h

/-- If a load answers a fault: nothing is refused, and either a faulting access is reported, some others being done, or nothing
faults and a byte holds no value (R210, R218). -/
theorem vecLoad_fault {i : Instr} {seg : BitVec 3} {vt : BitVec 6} {off : Fin 16 → Word} {s : State} {f : Fault}
    (h : vecLoad i seg vt off s = .fault f) :
    staticCheck s.env.snDecode.isSome i = none ∧ i.pred.cond ≠ .pf ∧
    (∀ c ∈ accesses s i.pred seg off, c.misaligned = false) ∧
    ((∃ c k, c ∈ accesses s i.pred seg off ∧ c.cause s.env .load = some k ∧
        f = .exception k s.pc c.elem c.recorded (s.loadElems vt (partlyDone s .load (accesses s i.pred seg off)))) ∨
      (faulting s.env .load (accesses s i.pred seg off) = [] ∧
        (∃ c ∈ accesses s i.pred seg off, c.loaded s.mem = none) ∧ f = .noValue)) := by
  obtain ⟨h1, h2, h⟩ := perform_fault h
  dsimp only at h
  split at h
  · cases h
  · rename_i hm
    simp only [List.any_eq_true, not_exists, not_and, Bool.not_eq_true] at hm
    refine ⟨h1, h2, hm, ?_⟩
    split at h
    · rename_i g hg
      cases h
      have := mem_faulting.mp (show (g.1, g.2) ∈ _ from chooseOne_mem hg)
      exact .inl ⟨g.1, g.2, this.1, this.2, rfl⟩
    · rename_i hf
      split at h
      · cases h
      · rename_i hl
        cases h
        refine .inr ⟨chooseOne_eq_none.mp hf, ?_, rfl⟩
        simpa using hl

/-! ## Stores -/

/-- The access that survives at an address is one of those with that address (R63). -/
theorem survivor_mem {s : State} {cs : List Access} {c : Access} {a : Word} (hc : c ∈ cs) (ha : c.addr = some a) :
    survivor s cs c a ∈ cs ∧ (survivor s cs c a).addr = some a := by
  unfold survivor
  cases e : chooseOne (Config.storeDraw s.count a) (cs.filter fun d => d.addr == some a) with
  | none => exact ⟨hc, ha⟩
  | some d =>
    have := chooseOne_mem e
    simp only [List.mem_filter, beq_iff_eq] at this
    exact this

/-- The access that survives at an address does not depend on which of those with that address asks (R63). -/
theorem survivor_eq {s : State} {cs : List Access} {c d : Access} {a : Word} (hc : c ∈ cs) (ha : c.addr = some a) :
    survivor s cs c a = survivor s cs d a := by
  unfold survivor
  cases e : chooseOne (Config.storeDraw s.count a) (cs.filter fun d => d.addr == some a) with
  | none =>
    have := chooseOne_eq_none.mp e
    simp only [List.filter_eq_nil_iff, beq_iff_eq] at this
    exact absurd ha (this c hc)
  | some _ => rfl

/-- Whether an access covers a byte. -/
def Access.covers (c : Access) (b : Nat) : Prop := ∃ a, c.addr = some a ∧ a.toNat ≤ b ∧ b < a.toNat + 8

/-- What a byte reads as after a run of stores: as before where no access covers it; else, where every address is a multiple of 8,
the byte that the value stored at the covering address has there. -/
theorem read_foldl_store (f : Access → Word → Word) (cs : List Access) (m : Memory) (b : Nat)
    (hal : ∀ c ∈ cs, c.misaligned = false)
    (hf : ∀ c ∈ cs, ∀ d ∈ cs, ∀ a, c.addr = some a → d.addr = some a → f c a = f d a) :
    ((∀ c ∈ cs, ¬ c.covers b) →
      (cs.foldl (fun m c => match c.addr with | some a => m.writeWord a.toNat (f c a) | none => m) m).read b = m.read b) ∧
    (∀ c ∈ cs, ∀ a, c.addr = some a → a.toNat ≤ b → b < a.toNat + 8 →
      (cs.foldl (fun m c => match c.addr with | some a => m.writeWord a.toNat (f c a) | none => m) m).read b =
        some (byteOf (f c a) (b - a.toNat))) := by
  induction cs generalizing m with
  | nil => simp
  | cons c cs ih =>
    have hal' := fun d hd => hal d (List.mem_cons_of_mem _ hd)
    have ihm := fun m => ih m hal' fun d hd e he => hf d (List.mem_cons_of_mem _ hd) e (List.mem_cons_of_mem _ he)
    rw [List.foldl_cons]
    constructor
    · intro hn
      rw [(ihm _).1 fun d hd => hn d (List.mem_cons_of_mem _ hd)]
      cases e : c.addr with
      | none => rfl
      | some a =>
        have := hn c List.mem_cons_self
        simp only [Memory.read_writeWord]
        rw [if_neg fun h => this ⟨a, e, h⟩]
    · intro d hd a ha h1 h2
      by_cases hcov : ∃ d' ∈ cs, d'.covers b
      · obtain ⟨d', hd', a', ha', h1', h2'⟩ := hcov
        have al : ∀ e ∈ c :: cs, ∀ v, e.addr = some v → v.toNat % 8 = 0 := by
          intro e he v hv; have := hal e he; simpa [Access.misaligned, hv] using this
        have e1 := al d hd a ha
        have e2 := al d' (List.mem_cons_of_mem _ hd') a' ha'
        have : a' = a := BitVec.eq_of_toNat_eq (by omega)
        subst this
        rw [(ihm _).2 d' hd' a' ha' h1' h2', hf d hd d' (List.mem_cons_of_mem _ hd') a' ha ha']
      · have hdc : d = c := by
          rcases List.mem_cons.mp hd with h | h
          · exact h
          · exact absurd ⟨d, h, a, ha, h1, h2⟩ hcov
        subst hdc
        rw [(ihm _).1 fun e he hc => hcov ⟨e, he, hc⟩]
        simp only [ha, Memory.read_writeWord]
        rw [if_pos ⟨h1, h2⟩]

/-- What a byte reads as after the stores of some aligned accesses: as before where none covers it; else the byte that the element
of some access with the covering address has there (R63, R210). -/
theorem read_storeElems {s : State} {r : BitVec 6} {cs : List Access} (hal : ∀ c ∈ cs, c.misaligned = false) (b : Nat) :
    ((∀ c ∈ cs, ¬ c.covers b) → (s.storeElems r cs).mem.read b = s.mem.read b) ∧
    (∀ c ∈ cs, ∀ a, c.addr = some a → a.toNat ≤ b → b < a.toNat + 8 →
      (survivor s cs c a ∈ cs ∧ (survivor s cs c a).addr = some a) ∧
      (s.storeElems r cs).mem.read b = some (byteOf (s.elem r (survivor s cs c a).elem) (b - a.toNat))) := by
  have := read_foldl_store (fun c a => s.elem r (survivor s cs c a).elem) cs s.mem b hal
    fun c hc d _ a ha _ => by rw [survivor_eq (d := d) hc ha]
  exact ⟨this.1, fun c hc a ha h1 h2 => ⟨survivor_mem hc ha, this.2 c hc a ha h1 h2⟩⟩

/-- An aligned access lies within the address space. -/
theorem Access.fits {c : Access} (h : c.misaligned = false) {a : Word} (ha : c.addr = some a) : a.toNat + 8 ≤ 2 ^ 64 := by
  have hm : a.toNat % 8 = 0 := by simpa [Access.misaligned, ha] using h
  have := a.isLt
  omega

/-- The stores of aligned accesses keep memory's canonical form. -/
theorem wf_storeElems {s : State} {r : BitVec 6} {cs : List Access} (hal : ∀ c ∈ cs, c.misaligned = false)
    (h : s.mem.wf = true) : (s.storeElems r cs).mem.wf = true :=
  Memory.wf_foldl_writeWord (f := fun c a => s.elem r (survivor s cs c a).elem) h fun c hc _ ha => Access.fits (hal c hc) ha

/-- If a store answers a next state: it merely ends, or nothing is refused, nothing faults, and every access is performed (R210). -/
theorem vecStore_next {i : Instr} {seg : BitVec 3} {vs : BitVec 6} {off : Fin 16 → Word} {s t : State}
    (h : vecStore i seg vs off s = .next t) :
    t = s.retire i ∨
    ((∀ c ∈ accesses s i.pred seg off, c.misaligned = false) ∧
      (∀ c ∈ accesses s i.pred seg off, c.meetsText s.env = false) ∧
      faulting s.env .store (accesses s i.pred seg off) = [] ∧
      t = (s.storeElems vs (accesses s i.pred seg off)).retire i) := by
  rcases perform_next h with h | h
  · exact .inl h
  · refine .inr ?_
    dsimp only at h
    split at h
    · cases h
    · rename_i hm
      split at h
      · cases h
      · rename_i ht
        split at h
        · cases h
        · rename_i hf
          cases h
          simp only [List.any_eq_true, not_exists, not_and, Bool.not_eq_true] at hm ht
          exact ⟨hm, ht, chooseOne_eq_none.mp hf, rfl⟩

/-- If a store answers a fault: nothing is refused, and a faulting access is reported, some others being done (R210, R218). -/
theorem vecStore_fault {i : Instr} {seg : BitVec 3} {vs : BitVec 6} {off : Fin 16 → Word} {s : State} {f : Fault}
    (h : vecStore i seg vs off s = .fault f) :
    staticCheck s.env.snDecode.isSome i = none ∧ i.pred.cond ≠ .pf ∧
    (∀ c ∈ accesses s i.pred seg off, c.misaligned = false) ∧
    (∀ c ∈ accesses s i.pred seg off, c.meetsText s.env = false) ∧
    ∃ c k, c ∈ accesses s i.pred seg off ∧ c.cause s.env .store = some k ∧
      f = .exception k s.pc c.elem c.recorded (s.storeElems vs (partlyDone s .store (accesses s i.pred seg off))) := by
  obtain ⟨h1, h2, h⟩ := perform_fault h
  dsimp only at h
  split at h
  · cases h
  · rename_i hm
    split at h
    · cases h
    · rename_i ht
      split at h
      · rename_i g hg
        cases h
        simp only [List.any_eq_true, not_exists, not_and, Bool.not_eq_true] at hm ht
        have := mem_faulting.mp (show (g.1, g.2) ∈ _ from chooseOne_mem hg)
        exact ⟨h1, h2, hm, ht, g.1, g.2, this.1, this.2, rfl⟩
      · cases h

/-- If a load answers a refusal, it is that of the static checks or `misalignedAccess` (R210). -/
theorem vecLoad_refused {i : Instr} {seg : BitVec 3} {vt : BitVec 6} {off : Fin 16 → Word} {s : State} {q : Refusal}
    (h : vecLoad i seg vt off s = .refused q) :
    (∃ r, staticCheck s.env.snDecode.isSome i = some r ∧ q = .static r) ∨
    (staticCheck s.env.snDecode.isSome i = none ∧ q = .misalignedAccess) := by
  obtain h | ⟨hc, h⟩ := perform_refused h
  · exact .inl h
  · dsimp only at h
    split at h
    · cases h; exact .inr ⟨hc, rfl⟩
    · split at h
      · cases h
      · split at h <;> cases h

/-- If a store answers a refusal, it is that of the static checks, `misalignedAccess` or `storeToProgramText` (R210). -/
theorem vecStore_refused {i : Instr} {seg : BitVec 3} {vs : BitVec 6} {off : Fin 16 → Word} {s : State} {q : Refusal}
    (h : vecStore i seg vs off s = .refused q) :
    (∃ r, staticCheck s.env.snDecode.isSome i = some r ∧ q = .static r) ∨
    (staticCheck s.env.snDecode.isSome i = none ∧ (q = .misalignedAccess ∨ q = .storeToProgramText)) := by
  obtain h | ⟨hc, h⟩ := perform_refused h
  · exact .inl h
  · dsimp only at h
    split at h
    · cases h; exact .inr ⟨hc, .inl rfl⟩
    · split at h
      · cases h; exact .inr ⟨hc, .inr rfl⟩
      · split at h <;> cases h

end Sys2Proof.Machine
end

