-- ==== Sys2Proof/Laws/Step.lean ====
section
/-! SUPPORT. What decoding, fetching and a step can do, said once: an instruction that is found lies wholly among the bytes present and
below the top of the address space, and a step is the end of the run, an action of the environment, a refused fetch, or `exec`. -/

namespace Sys2Proof

/-! ## Decoding finds only instructions whose bytes are present -/

/-- Every row taken where its bytes are present has no more bytes than are present. -/
theorem ilen_whenPresent {n k : Nat} {rows : List Instr} (h : ∀ i ∈ rows, i.ilen = k) : ∀ i ∈ whenPresent n k rows, i.ilen ≤ n := by
  unfold whenPresent
  split
  · rename_i hk; intro i hi; rw [h i hi]; exact hk
  · simp

/-- A choice between lists keeps what each has. -/
theorem forall_mem_ite {α : Type} {P : α → Prop} {c : Prop} [Decidable c] {a b : List α} (ha : ∀ i ∈ a, P i) (hb : ∀ i ∈ b, P i) :
    ∀ i ∈ (if c then a else b), P i := by split <;> assumption

/-- Every candidate has no more bytes than are present (R100). -/
theorem ilen_candidates (n : Nat) (w : BitVec 48) : ∀ i ∈ candidates n w, i.ilen ≤ n := by
  unfold candidates
  refine forall_mem_ite (ilen_whenPresent ?_) <| forall_mem_ite (ilen_whenPresent ?_) <| forall_mem_ite ?_ <|
    forall_mem_ite (ilen_whenPresent ?_) <| forall_mem_ite (ilen_whenPresent ?_) <| forall_mem_ite (ilen_whenPresent ?_) <|
    forall_mem_ite (ilen_whenPresent ?_) <| forall_mem_ite (ilen_whenPresent ?_) <| forall_mem_ite (ilen_whenPresent ?_) <|
    forall_mem_ite (ilen_whenPresent ?_) <| forall_mem_ite (ilen_whenPresent ?_) <| forall_mem_ite (ilen_whenPresent ?_) <|
    forall_mem_ite (ilen_whenPresent ?_) (by simp)
  case refine_3 =>
    simp only [List.mem_append]
    rintro i (hi | hi)
    · refine ilen_whenPresent (k := 4) ?_ i hi
      rw [List.forall_mem_map]; unfold short56
      repeat' refine forall_mem_ite ?_ ?_
      all_goals simp [Member56.build, Instr.ilen]
    · refine ilen_whenPresent (k := 5) ?_ i hi
      rw [List.forall_mem_map]; unfold long56
      repeat' refine forall_mem_ite ?_ ?_
      all_goals simp [Member56.build, Instr.ilen]
  all_goals
    simp only [rowsCmp, rows52, rows57, rows5A, rows5C, rows5E, rowsLS2, rowsLS3]
    repeat' refine forall_mem_ite ?_ ?_
    all_goals simp [Instr.ilen]

/-- Rule R100's choice finds an instruction only among the candidates. -/
theorem decodeByTable_mem {n : Nat} {w : BitVec 48} {i : Instr} (h : decodeByTable n w = .instr i) : i ∈ candidates n w := by
  unfold decodeByTable rejectAfterPred at h
  split at h
  · cases h
  · rename_i j hj; cases h; simp [hj]
  · cases h

/-- An instruction that decoding finds has no more bytes than are present, also under a platform's own rule (R100, U29). -/
theorem ilen_le_of_decode {rules : Option (List Rule56)} {bs : List Byte} {i : Instr} (h : decode rules bs = .instr i) :
    i.ilen ≤ bs.length := by
  have table : decodeByTable bs.length (wordOf bs) = .instr i → i.ilen ≤ bs.length := fun h => ilen_candidates _ _ i (decodeByTable_mem h)
  unfold decode at h
  split at h
  · simp only at h
    split at h
    · unfold decodeByRules rejectAfterPred at h
      split at h
      · split at h
        · cases h; assumption
        · cases h
      · cases h
    · exact table h
  · exact table h

namespace Machine

/-! ## Fetching -/

/-- The bytes of program text from an address on are at most as many as asked for, and end at the top of the address space (R34). -/
theorem length_textBytes (s : State) (n a : Nat) :
    (textBytes s n a).length ≤ n ∧ (a ≤ 2 ^ 64 → a + (textBytes s n a).length ≤ 2 ^ 64) := by
  induction n generalizing a with
  | zero => simp [textBytes]
  | succ n ih =>
    unfold textBytes
    split
    · split
      · have := ih (a + 1); simp only [List.length_cons]; omega
      · simp
    · simp

/-- An instruction that is fetched does not straddle the top of the address space (R34). -/
theorem fetch_fits {s : State} {i : Instr} (h : fetch s = .instr i) : s.pc.toNat + i.ilen ≤ 2 ^ 64 := by
  unfold fetch at h
  split at h
  · split at h
    · cases h; assumption
    · cases h
  · split at h
    · rename_i hd
      cases h
      have h1 := ilen_le_of_decode hd
      have h2 := (length_textBytes s 6 s.pc.toNat).2 (by omega)
      unfold fetchWindow at h1
      omega
    · split at h <;> cases h

/-! ## The environment's actions -/

/-- An action is due where it is the first of the schedule and as many instructions have completed as it waits for (R27). -/
theorem actionDue_eq_some {s : State} {a : SetVLAction} :
    s.actionDue = some a ↔ (∃ rest, s.pendingVL = a :: rest) ∧ a.after ≤ s.count := by
  unfold State.actionDue
  cases s.pendingVL with
  | nil => simp
  | cons b rest =>
    simp only [List.head?_cons, Option.filter_eq_some_iff, Option.some.injEq, decide_eq_true_eq, List.cons.injEq, exists_and_left,
      exists_eq', and_true]

/-- No action is due where the schedule is empty or its first waits for more instructions to complete (R27). -/
theorem actionDue_eq_none {s : State} : s.actionDue = none ↔ ∀ a rest, s.pendingVL = a :: rest → s.count < a.after := by
  unfold State.actionDue
  cases s.pendingVL with
  | nil => simp
  | cons b rest => simp [Option.filter_eq_none_iff]

/-! ## The refusals of an instruction -/

/-- Everything an instruction can refuse as: what the static checks say or, where they say nothing, one of the four refusals that
depend on values (R134, 93_implementation_defined.md section 2). -/
theorem exec_refused {s : State} {i : Instr} {q : Refusal} (h : exec i s = .refused q) :
    (∃ r, staticCheck s.env.snDecode.isSome i = some r ∧ q = .static r) ∨
    (staticCheck s.env.snDecode.isSome i = none ∧
      q ∈ [.elementIndexOutOfRange, .shiftCountOutOfRange, .misalignedAccess, .storeToProgramText]) := by
  cases i
  all_goals first
    | (rcases vecLoad_refused h with h | ⟨hc, rfl⟩
       · exact .inl h
       · exact .inr ⟨hc, by simp⟩)
    | (rcases vecStore_refused h with h | ⟨hc, rfl | rfl⟩
       · exact .inl h
       · exact .inr ⟨hc, by simp⟩
       · exact .inr ⟨hc, by simp⟩)
    | (rcases perform_refused h with h | ⟨hc, h⟩
       · exact .inl h
       · first
         | (split at h
            · cases h
            · cases h; exact .inr ⟨hc, by simp⟩)
         | cases h)

/-! ## The end of a run -/

/-- The run has ended where an instruction has completed and the program counter is the end address (R262). -/
theorem ended_iff {s : State} : s.ended = true ↔ 0 < s.count ∧ s.env.endAddr = some s.pc := by simp [State.ended]

/-- A run in which no instruction has completed has not ended (R262). -/
theorem ended_of_count_zero {s : State} (h : s.count = 0) : s.ended = false := by simp [State.ended, h]

/-! ## A step -/

/-- Everything a step can be (R27, R120, R262): the end of the run; an action of the environment; a fetch that is refused; `exec` of
the instruction fetched. -/
theorem step_cases (s : State) :
    (s.ended = true ∧ step s = .refused .runEnded) ∨
    (s.ended = false ∧ ∃ a, s.actionDue = some a ∧ step s = .next (s.takeAction a)) ∨
    (s.ended = false ∧ s.actionDue = none ∧ ∃ r, fetch s = .reject r ∧ step s = .refused (.static r)) ∨
    (s.ended = false ∧ s.actionDue = none ∧ ∃ i, fetch s = .instr i ∧ step s = exec i s) := by
  unfold step
  cases s.ended with
  | true => exact .inl ⟨rfl, rfl⟩
  | false =>
    cases s.actionDue with
    | some a => exact .inr (.inl ⟨rfl, a, rfl, rfl⟩)
    | none =>
      cases fetch s with
      | instr i => exact .inr (.inr (.inr ⟨rfl, rfl, i, rfl, rfl⟩))
      | reject r => exact .inr (.inr (.inl ⟨rfl, rfl, r, rfl, rfl⟩))

/-- A step that answers a next state is, in a run that has not ended, an action of the environment or the instruction fetched. -/
theorem step_next {s t : State} (h : step s = .next t) :
    s.ended = false ∧
    ((∃ a, s.actionDue = some a ∧ t = s.takeAction a) ∨ (s.actionDue = none ∧ ∃ i, fetch s = .instr i ∧ exec i s = .next t)) := by
  obtain ⟨_, e⟩ | ⟨he, a, ha, e⟩ | ⟨_, _, r, _, e⟩ | ⟨he, hn, i, hi, e⟩ := step_cases s
  · rw [e] at h; cases h
  · rw [e] at h; cases h; exact ⟨he, .inl ⟨a, ha, rfl⟩⟩
  · rw [e] at h; cases h
  · exact ⟨he, .inr ⟨hn, i, hi, e ▸ h⟩⟩

/-- A step that faults runs an instruction that faults. -/
theorem step_fault {s : State} {f : Fault} (h : step s = .fault f) : ∃ i, fetch s = .instr i ∧ exec i s = .fault f := by
  obtain ⟨_, e⟩ | ⟨_, a, ha, e⟩ | ⟨_, _, r, _, e⟩ | ⟨_, _, i, hi, e⟩ := step_cases s
  · rw [e] at h; cases h
  · rw [e] at h; cases h
  · rw [e] at h; cases h
  · exact ⟨i, hi, e ▸ h⟩

end Machine

end Sys2Proof
end

