-- ==== Sys2Proof/Tests/Slice0.lean ====
section
/-! SUPPORT. The model's own tests: words written out from the spec's encodings (95_test_vectors.md sections 2 and 3), one or two
single steps for each instruction (sections 4 to 9), an ill-formed term for each static check, and a witness for every obligation
that has hypotheses. Every expected value is the spec's own vector or a hand calculation from its rules, never the model's answer. -/

namespace Sys2Proof.Tests

open Sys2Proof.Machine Sys2Proof.Spec

/-! ## Helpers -/

/-- The always-true predicate byte, 01h. -/
def pt : Pred := ⟨0#4, .pt⟩

/-- The always-false predicate byte, 90h. -/
def pf : Pred := ⟨9#4, .pf⟩

/-- Predicate byte 12h: condition PEQ on `VP[1]`. -/
def eq1 : Pred := ⟨1#4, .peq⟩

/-- Whether an outcome is a next state of which something holds. -/
def nexts (o : Result) (good : State → Bool) : Bool :=
  match o with
  | .next t => good t
  | .fault _ => false
  | .refused _ => false

/-- Whether an outcome is this refusal. -/
def refuses (o : Result) (r : Refusal) : Bool :=
  match o with
  | .next _ => false
  | .fault _ => false
  | .refused q => decide (q = r)

/-- Whether an outcome is a fault of which something holds. -/
def faults (o : Result) (good : Fault → Bool) : Bool :=
  match o with
  | .next _ => false
  | .fault f => good f
  | .refused _ => false

/-- The first elements of a vector register. -/
def vec (s : State) (r : BitVec 6) (n : Nat) : List Word := ((List.finRange 16).take n).map fun x => s.elem r x

/-- A vector register set from its first elements, zero beyond. -/
def setVec (s : State) (r : BitVec 6) (ws : List Word) : State := s.setV r (Vector.ofFn fun x => ws.getD x.val 0#64)

/-- All ones, the number -1. -/
def ones : Word := 0xFFFFFFFFFFFFFFFF#64

/-- The most negative number. -/
def low : Word := 0x8000000000000000#64

/-- The most positive number. -/
def high : Word := 0x7FFFFFFFFFFFFFFF#64

/-- `VL` = 4, `pc` = 100h. -/
def base : State := { State.reset with vl := 4, pc := 0x100#64 }

/-- `V[1]` and `V[2]` set. -/
def two (a b : List Word) : State := setVec (setVec base 1 a) 2 b

/-- `V[1]` and `x[10]` set. -/
def scalar (a : List Word) (x : Word) : State := (setVec base 1 a).setGpr 10 x

/-- The flags `eq` of `VP[1]` set, the other flags false. -/
def eqFlags (s : State) (es : List Bool) : State := s.setP 1 (Vector.ofFn fun x => ⟨es.getD x.val false, false, false⟩)

/-- The setting of vectors M1: `VP[1]` flags eq = [T, F, T, F], `V[3]` = [AAh, BBh, CCh, DDh]. -/
def masked : State := eqFlags (setVec (two [1, 2, 3, 4] [0x10, 0x20, 0x30, 0x40]) 3 [0xAA, 0xBB, 0xCC, 0xDD]) [true, false, true, false]

/-- The setting of section 6. -/
def logic : State := (two [0xFF00FF00FF00FF00, 0x0123456789ABCDEF, ones, 0] [0x0FF00FF00FF00FF0, 0xFEDCBA9876543210, 0, 0]).setGpr 10 0xFFFF

/-- The setting of section 8: element `i` of `V[1]` holds A0h + `i`, element `i` of `V[3]` B0h + `i`; `x[10]` = n. -/
def moves (n : Word) : State :=
  ((base.setV 1 (Vector.ofFn fun x => BitVec.ofNat 64 (0xA0 + x.val))).setV 3 (Vector.ofFn fun x => BitVec.ofNat 64 (0xB0 + x.val))).setGpr 10 n

/-- Memory that holds some data from an address on. -/
def words (a : Nat) : List Word → Memory
  | [] => []
  | w :: ws => (words (a + 8) ws).writeWord a w

/-- The memory of section 9: 1000h to 103Fh allocated and holding values, program text at 100h. -/
def data : State :=
  { base with
    mem := words 0x1000 [0x8877665544332211, 1, ones - 1, low, 0xEEEEEEEEEEEEEEEE, 0xEEEEEEEEEEEEEEEE, 0xEEEEEEEEEEEEEEEE, 0xEEEEEEEEEEEEEEEE]
    env := { Env.initial with alloc := [⟨0x1000, 0x40⟩, ⟨0x100, 0x20⟩], text := [⟨0x100, 0x20⟩] } }

/-- The datum at an address of a state. -/
def datum (s : State) (a : Nat) : Option Word := s.mem.readWord a

/-! ## Decoding: the words of section 2, each constructor once -/

theorem test_decode_vadd : decode none [0x01, 0x57, 0x81, 0x30, 0x00] = .instr (.vadd pt 0 3 1 2) := by decide
theorem test_decode_vadds : decode none [0x01, 0x57, 0x81, 0x32, 0x80] = .instr (.vadds pt 0 3 1 10) := by decide
theorem test_decode_vsub : decode none [0x01, 0x57, 0x81, 0x30, 0x40] = .instr (.vsub pt 0 3 1 2) := by decide
theorem test_decode_vsubs : decode none [0x01, 0x57, 0x81, 0x32, 0xA0] = .instr (.vsubs pt 0 3 1 10) := by decide
theorem test_decode_vsubrs : decode none [0x01, 0x57, 0x81, 0x32, 0xC0] = .instr (.vsubrs pt 0 3 1 10) := by decide
theorem test_decode_vmul : decode none [0x01, 0x5E, 0x81, 0x30, 0x00] = .instr (.vmul pt 0 3 1 2) := by decide
theorem test_decode_vmuls : decode none [0x01, 0x5E, 0x81, 0x32, 0x80] = .instr (.vmuls pt 0 3 1 10) := by decide
theorem test_decode_vdiv : decode none [0x01, 0x5E, 0x81, 0x30, 0x20] = .instr (.vdiv pt 0 3 1 2) := by decide
theorem test_decode_vdivs : decode none [0x01, 0x5E, 0x81, 0x32, 0xA0] = .instr (.vdivs pt 0 3 1 10) := by decide
theorem test_decode_vmac : decode none [0x01, 0x5A, 0x81, 0x30, 0x10, 0x00] = .instr (.vmac pt 0 0 4 1 2 3) := by decide
theorem test_decode_vand : decode none [0x01, 0x52, 0x81, 0x30, 0x00] = .instr (.vand pt 0 3 1 2) := by decide
theorem test_decode_vands : decode none [0x01, 0x52, 0x81, 0x32, 0x80] = .instr (.vands pt 0 3 1 10) := by decide
theorem test_decode_vor : decode none [0x01, 0x52, 0x81, 0x30, 0x20] = .instr (.vor pt 0 3 1 2) := by decide
theorem test_decode_vors : decode none [0x01, 0x52, 0x81, 0x32, 0xA0] = .instr (.vors pt 0 3 1 10) := by decide
theorem test_decode_veor : decode none [0x01, 0x52, 0x81, 0x30, 0x40] = .instr (.veor pt 0 3 1 2) := by decide
theorem test_decode_veors : decode none [0x01, 0x52, 0x81, 0x32, 0xC0] = .instr (.veors pt 0 3 1 10) := by decide
theorem test_decode_vcmp : decode none [0x01, 0x11, 0x81, 0x80] = .instr (.vcmp pt 0 1 1 2) := by decide
theorem test_decode_vcmps : decode none [0x01, 0x5C, 0x41, 0x11, 0x00] = .instr (.vcmps pt 0 1 1 5) := by decide
theorem test_decode_vex : decode none [0x01, 0x56, 0x4A, 0xB0, 0x00] = .instr (.vex pt 11 1 10) := by decide
theorem test_decode_veins : decode none [0x01, 0x56, 0xCA, 0x32, 0x04] = .instr (.veins pt 3 11 10) := by decide
theorem test_decode_v2bits : decode none [0x01, 0x56, 0x40, 0xB0, 0x18] = .instr (.v2bits pt 11 1) := by decide
theorem test_decode_vshlv : decode none [0x01, 0x56, 0x4A, 0x30, 0x08] = .instr (.vshlv pt 3 1 10) := by decide
theorem test_decode_vshrv : decode none [0x01, 0x56, 0x4A, 0x30, 0x0C] = .instr (.vshrv pt 3 1 10) := by decide
theorem test_decode_vflt2int : decode none [0x01, 0x56, 0xC1, 0x40] = .instr (.vflt2int pt 3 1) := by decide
theorem test_decode_vint2flt : decode none [0x01, 0x56, 0xC1, 0x50] = .instr (.vint2flt pt 3 1) := by decide
theorem test_decode_lv : decode none [0x01, 0xBD, 0x41, 0x00] = .instr (.lv pt 0 1 1) := by decide
theorem test_decode_lvws : decode none [0x01, 0xBE, 0x81, 0x10, 0x00] = .instr (.lvws pt 0 1 1 2) := by decide
theorem test_decode_lvx : decode none [0x01, 0xBF, 0x81, 0x10, 0x00] = .instr (.lvx pt 0 1 1 2) := by decide
theorem test_decode_sv : decode none [0x01, 0xCD, 0xC3, 0x00] = .instr (.sv pt 0 3 3) := by decide
theorem test_decode_svws : decode none [0x01, 0xCE, 0x81, 0x30, 0x00] = .instr (.svws pt 0 3 1 2) := by decide
theorem test_decode_svx : decode none [0x01, 0xCF, 0x81, 0x30, 0x00] = .instr (.svx pt 0 3 1 2) := by decide

/-- E11, E22: VREC and VBITS2V share their bytes; without a rule of the platform both are refused (R101). -/
theorem test_decode_vrec_ambiguous : decode none [0x01, 0x56, 0xC1, 0x60] = .reject .ambiguousEncoding := by decide

/-- With a platform's rule the bytes of E11 are VREC. -/
theorem test_decode_vrec : decode (some [⟨[4], 0xF000FF00, 0x60005600, .vrec⟩]) [0x01, 0x56, 0xC1, 0x60] = .instr (.vrec pt 3 1) := by decide

/-- With a platform's rule the bytes of E22 are VBITS2V. -/
theorem test_decode_vbits2v : decode (some [⟨[4], 0xF000FF00, 0x60005600, .vbits2v⟩]) [0x01, 0x56, 0xCA, 0x60] = .instr (.vbits2v pt 3 10) := by
  decide

/-- E11, E22: the encodings. -/
theorem test_encode_vrec : encode (.vrec pt 3 1) = [0x01, 0x56, 0xC1, 0x60] ∧ encode (.vbits2v pt 3 10) = [0x01, 0x56, 0xCA, 0x60] := by decide

/-! ### Field variants, E34 to E46 -/

theorem test_decode_E34 : decode none [0x01, 0x57, 0x81, 0x30, 0x08] = .instr (.vadd pt 2 3 1 2) := by decide
theorem test_decode_E36 : decode none [0x01, 0x12, 0x81, 0xA0] = .instr (.vcmp pt 2 2 1 2) := by decide
theorem test_decode_E38 : decode none [0x01, 0x5C, 0x41, 0x71, 0x02] = .instr (.vcmps pt 2 7 1 5) := by decide
theorem test_decode_E39 : decode none [0x01, 0x5A, 0x81, 0x30, 0x10, 0x02] = .instr (.vmac pt 0 2 4 1 2 3) := by decide
theorem test_decode_E40 : decode none [0x01, 0x5A, 0x81, 0x30, 0x10, 0x08] = .instr (.vmac pt 1 0 4 1 2 3) := by decide
theorem test_decode_E41 : decode none [0x17, 0x57, 0x41, 0x11, 0xC0] = .instr (.vsubrs ⟨1, .plt⟩ 0 1 1 5) := by decide
theorem test_decode_E42 : decode none [0x90, 0x57, 0x41, 0x10, 0x00] = .instr (.vadd pf 0 1 1 1) := by decide
theorem test_decode_E43 : decode none [0x2B, 0x52, 0x82, 0x40, 0x20] = .instr (.vor ⟨2, .pltu⟩ 0 4 2 2) := by decide
theorem test_decode_E44 : decode none [0x01, 0xBD, 0x41, 0x60] = .instr (.lv pt 3 1 1) := by decide
theorem test_decode_E45 : decode none [0x01, 0xCF, 0x81, 0x30, 0xA0] = .instr (.svx pt 5 3 1 2) := by decide
theorem test_decode_E46 : decode none [0x01, 0x57, 0xC1, 0x3F, 0x80] = .instr (.vadds pt 0 3 1 63) := by decide

/-! ### Refusals of section 3 -/

/-- The refusal of some bytes of program text: by decoding, or by the static checks of what they decode to. -/
def refusedAs (bs : List Byte) : Option StaticRefusal :=
  match decode none bs with
  | .instr i => staticCheck false i
  | .reject r => some r

theorem test_refuse_DV1 : refusedAs [0x00, 0x57, 0x81, 0x30, 0x00] = some .notInScope := by decide
theorem test_refuse_DV2 : refusedAs [0x11, 0x57, 0x81, 0x30, 0x00] = some .notInScope := by decide
theorem test_refuse_DV3 : refusedAs [0x1C, 0x57, 0x81, 0x30, 0x00] = some .reservedCondition := by decide
theorem test_refuse_DV5 : refusedAs [0x82, 0x57, 0x81, 0x30, 0x00] = some .predicateRegisterOutOfRange := by decide
theorem test_refuse_DV6 : refusedAs [0x01, 0x58, 0x00, 0x00, 0x00] = some .notInScope := by decide
theorem test_refuse_DV7 : refusedAs [0x01, 0x56, 0xC1, 0x40, 0x01] = some .ambiguousEncoding := by decide
theorem test_refuse_DV9 : refusedAs [0x01, 0x56, 0xC1, 0x60, 0x90] = some .ambiguousEncoding := by decide
theorem test_refuse_DV10 : refusedAs [0x01, 0x56, 0x4A, 0x40, 0x00] = some .ambiguousEncoding := by decide
theorem test_refuse_DV12 : refusedAs [0x01, 0x56, 0xCA, 0x62, 0x04] = some .ambiguousEncoding := by decide
theorem test_refuse_DV13 : refusedAs [0x01, 0x56, 0x4A, 0x30, 0x10] = some .reservedEncoding := by decide
theorem test_refuse_DV14 : refusedAs [0x01, 0x56, 0xC1, 0x70, 0x90] = some .reservedEncoding := by decide
theorem test_refuse_DV15 : refusedAs [0x01, 0x57, 0x81, 0x30, 0x20] = some .reservedEncoding := by decide
theorem test_refuse_DV16 : refusedAs [0x01, 0x52, 0x81, 0x30, 0x60] = some .reservedEncoding := by decide
theorem test_refuse_DV17 : refusedAs [0x01, 0x5E, 0x81, 0x30, 0x40] = some .reservedEncoding := by decide
theorem test_refuse_DV18 : refusedAs [0x01, 0x57, 0x81, 0x30, 0x0C] = some .reservedType := by decide
theorem test_refuse_DV19 : refusedAs [0x01, 0x57, 0x81, 0x30, 0x10] = some .quadNotRepresentable := by decide
theorem test_refuse_DV20 : refusedAs [0x01, 0x52, 0x81, 0x30, 0x08] = some .reservedType := by decide
theorem test_refuse_DV21 : refusedAs [0x01, 0x11, 0x81, 0xB0] = some .reservedType := by decide
theorem test_refuse_DV22 : refusedAs [0x01, 0x11, 0x81, 0xC0] = some .quadNotRepresentable := by decide
theorem test_refuse_DV23 : refusedAs [0x01, 0x11, 0x81, 0x70] = some .notInScope := by decide
theorem test_refuse_DV24 : refusedAs [0x01, 0x18, 0x81, 0x80] = some .predicateRegisterOutOfRange := by decide
theorem test_refuse_DV25 : refusedAs [0x01, 0x5C, 0x41, 0x81, 0x00] = some .predicateRegisterOutOfRange := by decide
theorem test_refuse_DV26 : refusedAs [0x01, 0x57, 0x81, 0x80, 0x00] = some .vectorRegisterOutOfRange := by decide
theorem test_refuse_DV27 : refusedAs [0x01, 0x57, 0xBF, 0x30, 0x00] = some .vectorRegisterOutOfRange := by decide
theorem test_refuse_DV28 : refusedAs [0x90, 0x57, 0x81, 0x80, 0x00] = some .vectorRegisterOutOfRange := by decide
theorem test_refuse_DV29 : refusedAs [0x01, 0xBD, 0x41, 0x10] = some .reservedEncoding := by decide
theorem test_refuse_DV30 : refusedAs [0x01, 0xBE, 0x81, 0x10, 0x04] = some .reservedEncoding := by decide
theorem test_refuse_DV31 : refusedAs [0x01, 0x5C, 0x41, 0x11, 0x08] = some .reservedEncoding := by decide
theorem test_refuse_DV32 : refusedAs [0x01, 0x5A, 0x81, 0x30, 0x10, 0x08] = some .snNotDecoded := by decide
theorem test_refuse_DV33 : refusedAs [0x12, 0x56, 0x4A, 0xB0, 0x00] = some .pnReadingOpen := by decide
theorem test_refuse_DV34 : refusedAs [0x01, 0x56, 0x4A, 0x10, 0x08] = some .shiftAliasing := by decide
theorem test_refuse_DV35 : refusedAs [0x01, 0x57, 0x81, 0x30] = some .reservedEncoding := by decide
theorem test_accept_DV4 : refusedAs [0x0D, 0x57, 0x81, 0x30, 0x00] = none := by decide
theorem test_accept_DV8 : decode none [0x01, 0x56, 0xC1, 0x40, 0x90] = .instr (.vflt2int pt 3 1) := by decide

/-! ## WellFormed: an ill-formed term for each static check of R134 -/

theorem test_illFormed_pred_false_byte : Instr.wellFormed (.vadd ⟨3, .pf⟩ 0 3 1 2) = false ∧ staticCheck false (.vadd ⟨3, .pf⟩ 0 3 1 2) = some .notInScope := by decide
theorem test_illFormed_pred_true_byte : Instr.wellFormed (.vadd ⟨1, .pt⟩ 0 3 1 2) = false ∧ staticCheck false (.vadd ⟨1, .pt⟩ 0 3 1 2) = some .notInScope := by decide
theorem test_illFormed_condition : Instr.wellFormed (.vadd ⟨1, .rsv14⟩ 0 3 1 2) = false ∧ staticCheck false (.vadd ⟨1, .rsv14⟩ 0 3 1 2) = some .reservedCondition := by decide
theorem test_illFormed_arithmetic_type : Instr.wellFormed (.vmul pt 7 3 1 2) = false ∧ staticCheck false (.vmul pt 7 3 1 2) = some .reservedType := by decide
theorem test_illFormed_logical_type : Instr.wellFormed (.veors pt 1 3 1 2) = false ∧ staticCheck false (.veors pt 1 3 1 2) = some .reservedType := by decide
theorem test_illFormed_quad : Instr.wellFormed (.vcmps pt 4 1 1 2) = false ∧ staticCheck false (.vcmps pt 4 1 1 2) = some .quadNotRepresentable := by decide
theorem test_illFormed_vector_register : Instr.wellFormed (.vmac pt 0 0 4 1 2 8) = false ∧ staticCheck false (.vmac pt 0 0 4 1 2 8) = some .vectorRegisterOutOfRange := by decide
theorem test_illFormed_target_predicate : Instr.wellFormed (.vcmp pt 0 8 1 2) = false ∧ staticCheck false (.vcmp pt 0 8 1 2) = some .predicateRegisterOutOfRange := by decide
theorem test_illFormed_mask_predicate : Instr.wellFormed (.sv ⟨8, .pltu⟩ 0 3 3) = false ∧ staticCheck false (.sv ⟨8, .pltu⟩ 0 3 3) = some .predicateRegisterOutOfRange := by decide
theorem test_illFormed_pn : Instr.wellFormed (.vbits2v eq1 3 10) = false ∧ staticCheck false (.vbits2v eq1 3 10) = some .pnReadingOpen := by decide
theorem test_illFormed_sn : Instr.wellFormed (.vmac pt 31 0 4 1 2 3) = false ∧ staticCheck false (.vmac pt 31 0 4 1 2 3) = some .snNotDecoded := by decide
theorem test_illFormed_aliasing : Instr.wellFormed (.vshrv pt 3 3 10) = false ∧ staticCheck false (.vshrv pt 3 3 10) = some .shiftAliasing := by decide
theorem test_wellFormed_sn : Instr.wellFormedWithSn (.vmac pt 31 0 4 1 2 3) = true := by decide
theorem test_wellFormed_psig : Instr.wellFormed (.sv ⟨15, .psig⟩ 0 3 3) = true := by decide

/-! ## One step of each instruction -/

/-! ### Predication, section 4 -/

theorem test_M1 : nexts (exec (.vadd eq1 0 3 1 2) masked) (fun t => vec t 3 4 == [0x11, 0xBB, 0x33, 0xDD] && t.pc == 0x105) = true := by decide

theorem test_M6 : nexts (exec (.vadd pf 0 3 1 2) masked) (fun t => t == { masked with pc := 0x105, count := 1 }) = true := by decide

/-- The flags of the row (-1, 1) of section 4, under every condition that reads flags. -/
theorem test_conditions : ([.peq, .pne, .ple, .pgt, .pge, .plt, .pleu, .pgtu, .pgeu, .pltu].map fun c => condTest c (compareFlags 0 ones 1) false) =
    [false, true, true, false, false, true, false, true, true, false] := by decide

/-- M12: the mask is taken from the old flags. -/
theorem test_M12 : nexts (exec (.vcmp eq1 0 1 1 2) (eqFlags (two [1, 2, 3, 4] [1, 9, 3, 9]) [true, false, true, false]))
    (fun t => t.flags 1 0 == ⟨true, false, false⟩ && t.flags 1 1 == ⟨false, false, false⟩ && t.flags 1 2 == ⟨true, false, false⟩) = true := by decide

/-! ### Arithmetic, section 5 -/

/-- The sources of A1. -/
def sums : State := two [1, ones, high, low] [2, 1, 1, low]

/-- The sources of A6. -/
def products : State := two [3, ones, 0x100000000, low] [5, ones, 0x100000000, 2]

theorem test_vadd_A1 : nexts (exec (.vadd pt 0 3 1 2) sums) (fun t => vec t 3 4 == [3, 0, low, 0]) = true := by decide
theorem test_vadds_A2 : nexts (exec (.vadds pt 0 3 1 10) (scalar [1, ones, high, low] ones)) (fun t => vec t 3 4 == [0, ones - 1, high - 1, high]) = true := by decide
theorem test_vsub_A3 : nexts (exec (.vsub pt 0 3 1 2) sums) (fun t => vec t 3 4 == [ones, ones - 1, 0x7FFFFFFFFFFFFFFE, 0]) = true := by decide
theorem test_vsubs_A4 : nexts (exec (.vsubs pt 0 3 1 10) (scalar [1, ones, high, low] 1)) (fun t => vec t 3 4 == [0, ones - 1, 0x7FFFFFFFFFFFFFFE, high]) = true := by decide
theorem test_vsubrs_A5 : nexts (exec (.vsubrs pt 0 3 1 10) (scalar [1, ones, high, low] 0)) (fun t => vec t 3 4 == [ones, 1, 0x8000000000000001, low]) = true := by decide
theorem test_vmul_A6 : nexts (exec (.vmul pt 0 3 1 2) products) (fun t => vec t 3 4 == [0xF, 1, 0, 0]) = true := by decide
theorem test_vmuls_A7 : nexts (exec (.vmuls pt 0 3 1 10) (scalar [3, ones, 0x100000000, low] 0xFFFFFFFFFFFFFFFE)) (fun t => vec t 3 4 == [0xFFFFFFFFFFFFFFFA, 2, 0xFFFFFFFE00000000, 0]) = true := by decide
theorem test_vmac_A10 : nexts (exec (.vmac pt 0 0 4 1 2 3) (setVec (two [2, ones, low, ones] [3, ones, 2, 2]) 3 [4, ones, 5, 1]))
    (fun t => vec t 4 4 == [0xA, 0, 5, ones] && t.pc == 0x106) = true := by decide

/-- The target equal to a source (A12), and accumulation in place (A13). -/
theorem test_vmac_A13 : nexts (exec (.vmac pt 0 0 3 1 2 3) (setVec (two [1, 2, 3, 4] [5, 6, 7, 8]) 3 [1, 1, 1, 1]))
    (fun t => vec t 3 4 == [6, 0xD, 0x16, 0x21]) = true := by decide

/-- A8: the quotient is whatever `IDiv` says; the element beyond `VL` keeps its value. -/
theorem test_vdiv : nexts (exec (.vdiv pt 0 3 1 2) (setVec (two [7, 0, 0, 5, 9] [2, 2, ones, 0, 1]) 3 [0, 0, 0, 0, 0xEE]))
    (fun t => t.elem 3 4 == 0xEE && t.pc == 0x105) = true := by decide
theorem test_vdiv_value (t : State) (h : exec (.vdiv pt 0 3 1 2) sums = .next t) : t.elem 3 3 = Config.iDiv low low := by
  cases h; rfl
theorem test_vdivs_value (t : State) (h : exec (.vdivs pt 0 3 1 10) (scalar [9, 8, 2, 0] 3) = .next t) : t.elem 3 0 = Config.iDiv 9 3 := by
  cases h; rfl
theorem test_vadd_A14 (t : State) (h : exec (.vadd pt 2 3 1 2) sums = .next t) : t.elem 3 0 = Config.fAdd 2 1 2 := by
  cases h; rfl
theorem test_vrec_value (t : State) (h : exec (.vrec pt 3 1) sums = .next t) : t.elem 3 0 = Config.recip 1 ∧ t.pc = 0x104 := by
  cases h; exact ⟨rfl, rfl⟩

/-! ### Logical, section 6 -/

theorem test_vand_L1 : nexts (exec (.vand pt 0 3 1 2) logic) (fun t => vec t 3 4 == [0x0F000F000F000F00, 0, 0, 0]) = true := by decide
theorem test_vands_L2 : nexts (exec (.vands pt 0 3 1 10) logic) (fun t => vec t 3 4 == [0xFF00, 0xCDEF, 0xFFFF, 0]) = true := by decide
theorem test_vor_L3 : nexts (exec (.vor pt 0 3 1 2) logic) (fun t => vec t 3 4 == [0xFFF0FFF0FFF0FFF0, ones, ones, 0]) = true := by decide
theorem test_vors_L4 : nexts (exec (.vors pt 0 3 1 10) logic) (fun t => vec t 3 4 == [0xFF00FF00FF00FFFF, 0x0123456789ABFFFF, ones, 0xFFFF]) = true := by decide
theorem test_veor_L5 : nexts (exec (.veor pt 0 3 1 2) logic) (fun t => vec t 3 4 == [0xF0F0F0F0F0F0F0F0, ones, ones, 0]) = true := by decide
theorem test_veors_L6 : nexts (exec (.veors pt 0 3 1 10) logic) (fun t => vec t 3 4 == [0xFF00FF00FF0000FF, 0x0123456789AB3210, 0xFFFFFFFFFFFF0000, 0xFFFF]) = true := by decide

/-! ### Compare, section 7 -/

/-- The first six flags of `VP[1]`. -/
def flags6 (t : State) : List Flags := ((List.finRange 16).take 6).map fun x => t.flags 1 x

/-- The sources of section 7, `VL` = 6. -/
def compared : State := { (two [0, 1, ones, low, high, 5] [0, 2, 1, high, low, ones]).setGpr 5 ones with vl := 6 }

theorem test_vcmp : nexts (exec (.vcmp pt 0 1 1 2) compared) (fun t => flags6 t ==
    [⟨true, false, false⟩, ⟨false, true, true⟩, ⟨false, true, false⟩, ⟨false, true, false⟩, ⟨false, false, true⟩, ⟨false, false, true⟩]) = true := by
  decide
theorem test_vcmps : nexts (exec (.vcmps pt 0 1 1 5) compared) (fun t => flags6 t ==
    [⟨false, false, true⟩, ⟨false, false, true⟩, ⟨true, false, false⟩, ⟨false, true, true⟩, ⟨false, false, true⟩, ⟨false, false, true⟩]) = true := by
  decide
theorem test_vcmp_CV1 (t : State) (h : exec (.vcmp pt 2 2 1 2) compared = .next t) :
    t.flags 2 1 = ⟨Config.fEq 2 1 2, Config.fLt 2 1 2, Config.fUnord 2 1 2⟩ := by cases h; rfl

/-! ### Moves, shifts, bits and conversions, section 8 -/

theorem test_vex_X2 : nexts (exec (.vex pt 11 1 10) (moves 15)) (fun t => t.gpr 11 == 0xAF) = true := by decide
theorem test_vex_X3 : refuses (exec (.vex pt 11 1 10) (moves 16)) .elementIndexOutOfRange = true := by decide
theorem test_veins_X6 : nexts (exec (.veins pt 3 11 10) ((moves 5).setGpr 11 0xDEAD))
    (fun t => vec t 3 7 == [0xB0, 0xB1, 0xB2, 0xB3, 0xB4, 0xDEAD, 0xB6]) = true := by decide
theorem test_veins_X7 : refuses (exec (.veins pt 3 11 10) (moves 16)) .elementIndexOutOfRange = true := by decide
theorem test_vshlv_X9 : nexts (exec (.vshlv pt 3 1 10) (moves 3)) (fun t => vec t 3 6 == [0, 0xA0, 0xA1, 0xA2, 0xB4, 0xB5]) = true := by decide
theorem test_vshlv_X11 : refuses (exec (.vshlv pt 3 1 10) (moves 16)) .shiftCountOutOfRange = true := by decide
theorem test_vshrv_X14 : nexts (exec (.vshrv pt 3 1 10) (moves 3)) (fun t => vec t 3 5 == [0xA1, 0xA2, 0, 0xB3, 0xB4]) = true := by decide
theorem test_vshrv_X15 : nexts (exec (.vshrv pt 3 1 10) (moves 16)) (fun t => t.elem 3 0 == 0xA1 && t.elem 3 14 == 0xAF && t.elem 3 15 == 0) = true := by
  decide
theorem test_vbits2v_X17 : nexts (exec (.vbits2v pt 3 10) (moves 0xFFFFFFFFFFFFFFF5)) (fun t => vec t 3 5 == [1, 0, 1, 0, 0xB4]) = true := by decide
/-- X18: bits 3:0 are 1010b; nothing is said of the others. -/
theorem test_v2bits_X18 (t : State) (h : exec (.v2bits pt 11 1) (moves 0) = .next t) (k : Fin 4) :
    (t.gpr 11).getLsbD k.val = (0b1010#4).getLsbD k.val := by
  cases h
  refine Eq.trans (getLsbD_packBits _ 64 k.val (by decide)) ?_
  revert k; decide
theorem test_vflt2int_X21 (t : State) (h : exec (.vflt2int pt 3 1) (moves 0) = .next t) :
    t.elem 3 1 = Config.fltToInt 0xA1 ∧ t.elem 3 4 = 0xB4 := by cases h; exact ⟨rfl, rfl⟩
theorem test_vint2flt_X22 (t : State) (h : exec (.vint2flt pt 3 1) (moves 0) = .next t) :
    t.elem 3 1 = Config.intToFlt 0xA1 ∧ t.elem 3 4 = 0xB4 := by cases h; exact ⟨rfl, rfl⟩

/-! ### Loads and stores, section 9 -/

/-- The four data of `V[1]` after S1. -/
def loaded : List Word := [0x8877665544332211, 1, 0xFFFFFFFFFFFFFFFE, low]

theorem test_lv_S1 : nexts (exec (.lv pt 0 1 1) (data.setGpr 1 0x1000)) (fun t => vec t 1 4 == loaded && t.pc == 0x104) = true := by decide
theorem test_lv_S3 : refuses (exec (.lv pt 0 1 1) (data.setGpr 1 0x1004)) .misalignedAccess = true := by decide
theorem test_lvws_S10 : nexts (exec (.lvws pt 0 1 1 2) ((data.setGpr 1 0x1018).setGpr 2 0xFFFFFFFFFFFFFFF8)) (fun t => vec t 1 4 == loaded.reverse) = true := by
  decide
theorem test_lvws_S13 : nexts (exec (.lvws eq1 0 1 1 2) { eqFlags ((data.setGpr 1 0x1000).setGpr 2 4) [true, false] with vl := 2 })
    (fun t => vec t 1 2 == [0x8877665544332211, 0]) = true := by decide
theorem test_lvx_S15 : nexts (exec (.lvx pt 0 2 1 2) (setVec (data.setGpr 1 0x1000) 2 [0x18, 0, 8, 8]))
    (fun t => vec t 2 4 == [low, 0x8877665544332211, 1, 1]) = true := by decide
/-- S8: LMT from offset 1010h on, with `VL` = 3 so that element 2 alone faults; the recorded address is the offset. -/
theorem test_lv_S8 : faults (exec (.lv pt 3 1 1)
      { data.setGpr 1 0x1000 with vl := 3, env := { data.env with segRules := [⟨3, 0x1010, ones, none⟩] } })
    (fun f => match f with | .exception c pc e a _ => decide (c = .lmt ∧ pc = 0x100 ∧ e = 2 ∧ a = 0x1010) | .noValue => false) = true := by decide
theorem test_sv_S18 : nexts (exec (.sv eq1 0 3 3) (eqFlags (setVec (data.setGpr 3 0x1020) 3 [0x0102030405060708, 0xFF, 0, ones]) [true, false, false, true]))
    (fun t => t.mem.read 0x1020 == some 8 && datum t 0x1020 == some 0x0102030405060708 && datum t 0x1028 == some 0xEEEEEEEEEEEEEEEE &&
      datum t 0x1038 == some ones) = true := by decide
theorem test_sv_S21 : refuses (exec (.sv pt 0 3 3) (data.setGpr 3 0x100)) .storeToProgramText = true := by decide
/-- S22: element 1 alone is unallocated. -/
theorem test_sv_S22 : faults (exec (.sv pt 0 3 3) { data.setGpr 3 0x1038 with vl := 2 })
    (fun f => match f with | .exception c pc e a _ => decide (c = .dbe ∧ pc = 0x100 ∧ e = 1 ∧ a = 0x1040) | .noValue => false) = true := by decide
theorem test_svws : nexts (exec (.svws pt 0 3 1 2) { setVec ((data.setGpr 1 0x1020).setGpr 2 0x10) 3 [1, 2] with vl := 2 })
    (fun t => datum t 0x1020 == some 1 && datum t 0x1028 == some 0xEEEEEEEEEEEEEEEE && datum t 0x1030 == some 2) = true := by decide
theorem test_svx_S20 : nexts (exec (.svx pt 0 3 1 2) (setVec (setVec (data.setGpr 1 0x1020) 2 [0x18, 0x10, 8, 0]) 3 [1, 2, 3, 4]))
    (fun t => datum t 0x1020 == some 4 && datum t 0x1028 == some 3 && datum t 0x1030 == some 2 && datum t 0x1038 == some 1) = true := by decide

/-! ### The step -/

/-- A word placed by the host is fetched and run as the first instruction after reset. -/
theorem test_step_withFetchWord : nexts (step (State.reset.withFetchWord 40 0x0030815701)) (fun t => t.pc == 5) = true := by decide
theorem test_decodeTableWord : decodeTableWord 40 0x0030815701 = some (.vadd pt 0 3 1 2) := by decide
/-- R262: after an instruction the run ends at the end address, also where an action of the environment is due. -/
theorem test_step_ended : refuses (step { base with env := { base.env with endAddr := some 0x100 }, count := 1, pendingVL := [⟨1, 16⟩] })
    .runEnded = true := by decide
/-- R262: a launch at the end address has completed no instruction, so the instruction there runs. -/
theorem test_step_launch_at_end : nexts (step { (State.reset.withFetchWord 40 0x0030815701) with
      env := { (State.reset.withFetchWord 40 0x0030815701).env with endAddr := some 0 } }) (fun t => t.pc == 5) = true := by decide
/-- A `SetVL` that is due is a step of its own and comes first. -/
theorem test_step_setVL : nexts (step { base with pendingVL := [⟨0, 16⟩, ⟨1, 2⟩] })
    (fun t => t.vl == 16 && t.pendingVL == [⟨1, 2⟩] && t.pc == 0x100 && t.count == 0) = true := by decide
/-- A `SetVL` timed for the completion of one instruction waits for it. -/
theorem test_step_setVL_between : nexts (step { (State.reset.withFetchWord 40 0x0030815701) with pendingVL := [⟨1, 16⟩] })
    (fun t => t.vl == 0 && t.pc == 5 && t.actionDue == some ⟨1, 16⟩) = true := by decide
/-- R101: a rule of the platform says which of two members a word is. -/
theorem test_decode56_rule : decode (some [⟨[4, 5, 6], 0xF000FF00, 0x60005600, .vrec⟩]) [0x01, 0x56, 0xC1, 0x60] = .instr (.vrec pt 3 1) := by decide
/-- U29: a rule that names a member of five bytes where four are present. -/
theorem test_decode56_missing : decode (some [⟨[4], 0, 0, .vex⟩]) [0x01, 0x56, 0xC1, 0x60] = .reject .reservedEncoding := by decide
/-- R34: the same where the four bytes end at the top of the address space. -/
theorem test_decode56_straddles : refuses (step { base with
      pc := 0xFFFFFFFFFFFFFFFC
      mem := Memory.writeBytes [] (2 ^ 64 - 4) [0x01, 0x56, 0xC1, 0x60]
      env := { base.env with text := [⟨2 ^ 64 - 4, 4⟩], decode56 := some [⟨[4], 0, 0, .vex⟩] } }) (.static .notInScope) = true := by decide

/-! ## Witnesses: the hypotheses of each obligation can be met, each clause at a boundary of its range -/

theorem runs_pt : PredRuns pt := .inl ⟨rfl, rfl⟩
theorem always_pt : AlwaysTrue pt := ⟨rfl, rfl⟩
theorem runs_eq7 : PredRuns ⟨7, .peq⟩ := .inr (.inr (by decide))
theorem active_pt (s : State) (x : Fin 16) : ActiveAt s pt x ↔ x.val < s.vl.val := by simp [ActiveAt, Holds, pt]
theorem active_base : ActiveAt base pt 3 ∧ ¬ ActiveAt base pt 4 := by simp only [active_pt]; decide

theorem witness_VaddAddsElements : PredRuns pt ∧ TypeRuns 0#3 ∧ TypeRuns 2#3 ∧ (7 : BitVec 6).toNat < 8 ∧ (0 : BitVec 6).toNat < 8 ∧ ActiveAt base pt 3 ∧ ¬ ActiveAt base pt 4 :=
  ⟨runs_pt, .inl rfl, .inr (.inr rfl), by decide, by decide, active_base⟩
theorem witness_VaddsAddsScalar : PredRuns pt ∧ TypeRuns 0#3 ∧ TypeRuns 2#3 ∧ (7 : BitVec 6).toNat < 8 ∧ (0 : BitVec 6).toNat < 8 ∧ ActiveAt base pt 3 ∧ ¬ ActiveAt base pt 4 :=
  ⟨runs_pt, .inl rfl, .inr (.inr rfl), by decide, by decide, active_base⟩
theorem witness_VsubSubtractsElements : PredRuns pt ∧ TypeRuns 0#3 ∧ TypeRuns 2#3 ∧ (7 : BitVec 6).toNat < 8 ∧ (0 : BitVec 6).toNat < 8 ∧ ActiveAt base pt 3 ∧ ¬ ActiveAt base pt 4 :=
  ⟨runs_pt, .inl rfl, .inr (.inr rfl), by decide, by decide, active_base⟩
theorem witness_VsubsSubtractsScalar : PredRuns pt ∧ TypeRuns 0#3 ∧ TypeRuns 2#3 ∧ (7 : BitVec 6).toNat < 8 ∧ (0 : BitVec 6).toNat < 8 ∧ ActiveAt base pt 3 ∧ ¬ ActiveAt base pt 4 :=
  ⟨runs_pt, .inl rfl, .inr (.inr rfl), by decide, by decide, active_base⟩
theorem witness_VsubrsSubtractsFromScalar : PredRuns pt ∧ TypeRuns 0#3 ∧ TypeRuns 2#3 ∧ (7 : BitVec 6).toNat < 8 ∧ (0 : BitVec 6).toNat < 8 ∧ ActiveAt base pt 3 ∧ ¬ ActiveAt base pt 4 :=
  ⟨runs_pt, .inl rfl, .inr (.inr rfl), by decide, by decide, active_base⟩
theorem witness_VmulMultipliesElements : PredRuns pt ∧ TypeRuns 0#3 ∧ TypeRuns 2#3 ∧ (7 : BitVec 6).toNat < 8 ∧ (0 : BitVec 6).toNat < 8 ∧ ActiveAt base pt 3 ∧ ¬ ActiveAt base pt 4 :=
  ⟨runs_pt, .inl rfl, .inr (.inr rfl), by decide, by decide, active_base⟩
theorem witness_VmulsMultipliesByScalar : PredRuns pt ∧ TypeRuns 0#3 ∧ TypeRuns 2#3 ∧ (7 : BitVec 6).toNat < 8 ∧ (0 : BitVec 6).toNat < 8 ∧ ActiveAt base pt 3 ∧ ¬ ActiveAt base pt 4 :=
  ⟨runs_pt, .inl rfl, .inr (.inr rfl), by decide, by decide, active_base⟩
theorem witness_VdivDividesElements : PredRuns pt ∧ TypeRuns 0#3 ∧ TypeRuns 2#3 ∧ (7 : BitVec 6).toNat < 8 ∧ (0 : BitVec 6).toNat < 8 ∧ ActiveAt base pt 3 ∧ ¬ ActiveAt base pt 4 :=
  ⟨runs_pt, .inl rfl, .inr (.inr rfl), by decide, by decide, active_base⟩
theorem witness_VdivsDividesByScalar : PredRuns pt ∧ TypeRuns 0#3 ∧ TypeRuns 2#3 ∧ (7 : BitVec 6).toNat < 8 ∧ (0 : BitVec 6).toNat < 8 ∧ ActiveAt base pt 3 ∧ ¬ ActiveAt base pt 4 :=
  ⟨runs_pt, .inl rfl, .inr (.inr rfl), by decide, by decide, active_base⟩
theorem witness_VcmpComparesElements : PredRuns pt ∧ TypeRuns 0#3 ∧ TypeRuns 2#3 ∧ (7 : BitVec 4).toNat < 8 ∧ (0 : BitVec 6).toNat < 8 ∧ ActiveAt base pt 3 ∧ ¬ ActiveAt base pt 4 :=
  ⟨runs_pt, .inl rfl, .inr (.inr rfl), by decide, by decide, active_base⟩
theorem witness_VcmpsComparesWithScalar : PredRuns pt ∧ TypeRuns 0#3 ∧ TypeRuns 2#3 ∧ (7 : BitVec 4).toNat < 8 ∧ (0 : BitVec 6).toNat < 8 ∧ ActiveAt base pt 3 ∧ ¬ ActiveAt base pt 4 :=
  ⟨runs_pt, .inl rfl, .inr (.inr rfl), by decide, by decide, active_base⟩

/-- A table that gives every `Sn` the meaning "invert the result". -/
def negated : Vector Signs 31 := Vector.replicate 31 ⟨false, false, false, true⟩
theorem witness_VmacMultipliesAndAccumulates : PredRuns pt ∧ TypeRuns 0#3 ∧ (7 : BitVec 6).toNat < 8 ∧ (31#5 ≠ 0#5) ∧
    (31#5 ≠ 0#5 ∧ ∃ table : Vector Signs 31, { base.env with snDecode := some negated }.snDecode = some table ∧
      table[(31#5).toNat - 1]? = some ⟨false, false, false, true⟩) ∧ base.env.snDecode = none :=
  ⟨runs_pt, .inl rfl, by decide, by decide, ⟨by decide, negated, rfl, by decide⟩, rfl⟩
theorem witness_VrecWritesReciprocals : PredRuns ⟨7, .peq⟩ ∧ (7 : BitVec 6).toNat < 8 ∧ (0 : BitVec 6).toNat < 8 := ⟨runs_eq7, by decide, by decide⟩
theorem witness_ConversionsConvertElements : PredRuns ⟨7, .peq⟩ ∧ (7 : BitVec 6).toNat < 8 ∧ (0 : BitVec 6).toNat < 8 := ⟨runs_eq7, by decide, by decide⟩
theorem witness_VandAndsElements : PredRuns ⟨7, .peq⟩ ∧ (0#3 = 0#3) ∧ (7 : BitVec 6).toNat < 8 ∧ (0 : BitVec 6).toNat < 8 :=
  ⟨runs_eq7, rfl, by decide, by decide⟩
theorem witness_VandsAndsScalar : PredRuns ⟨7, .peq⟩ ∧ (0#3 = 0#3) ∧ (7 : BitVec 6).toNat < 8 ∧ (0 : BitVec 6).toNat < 8 :=
  ⟨runs_eq7, rfl, by decide, by decide⟩
theorem witness_VorOrsElements : PredRuns ⟨7, .peq⟩ ∧ (0#3 = 0#3) ∧ (7 : BitVec 6).toNat < 8 ∧ (0 : BitVec 6).toNat < 8 :=
  ⟨runs_eq7, rfl, by decide, by decide⟩
theorem witness_VorsOrsScalar : PredRuns ⟨7, .peq⟩ ∧ (0#3 = 0#3) ∧ (7 : BitVec 6).toNat < 8 ∧ (0 : BitVec 6).toNat < 8 :=
  ⟨runs_eq7, rfl, by decide, by decide⟩
theorem witness_VeorXorsElements : PredRuns ⟨7, .peq⟩ ∧ (0#3 = 0#3) ∧ (7 : BitVec 6).toNat < 8 ∧ (0 : BitVec 6).toNat < 8 :=
  ⟨runs_eq7, rfl, by decide, by decide⟩
theorem witness_VeorsXorsScalar : PredRuns ⟨7, .peq⟩ ∧ (0#3 = 0#3) ∧ (7 : BitVec 6).toNat < 8 ∧ (0 : BitVec 6).toNat < 8 :=
  ⟨runs_eq7, rfl, by decide, by decide⟩

/-- Register 0 hard-wired to zero. -/
def hardWired : State := { base with env := { base.env with gpr0Zero := true } }

theorem witness_VexExtractsElement : AlwaysTrue pt ∧ (7 : BitVec 6).toNat < 8 ∧ ((moves 15).gpr 10).toNat = (15 : Fin 16).val ∧
    16 ≤ ((moves 16).gpr 10).toNat ∧ ¬ HardWired base 0 ∧ HardWired hardWired 0 :=
  ⟨always_pt, by decide, by decide, by decide, by simp [HardWired, base, State.reset, Env.initial], rfl, rfl⟩
theorem witness_VeinsInsertsElement : AlwaysTrue pt ∧ (7 : BitVec 6).toNat < 8 ∧ ((moves 15).gpr 10).toNat < 16 ∧
    16 ≤ ((moves 16).gpr 10).toNat := ⟨always_pt, by decide, by decide, by decide⟩
theorem witness_VshlvShiftsUp : AlwaysTrue pt ∧ (3 : BitVec 6).toNat < 8 ∧ (3 : BitVec 6) ≠ 1 ∧ ((moves 0).gpr 10).toNat ≤ 15 ∧
    ((moves 15).gpr 10).toNat ≤ 15 ∧ 15 < ((moves 16).gpr 10).toNat :=
  ⟨always_pt, by decide, by decide, by decide, by decide, by decide⟩
theorem witness_VshrvShiftsDown : AlwaysTrue pt ∧ (3 : BitVec 6).toNat < 8 ∧ (3 : BitVec 6) ≠ 1 ∧ 1 ≤ ((moves 1).gpr 10).toNat ∧
    ((moves 16).gpr 10).toNat ≤ 16 ∧ ((moves 0).gpr 10).toNat < 1 ∧ 16 < ((moves 17).gpr 10).toNat :=
  ⟨always_pt, by decide, by decide, by decide, by decide, by decide, by decide⟩
theorem witness_Vbits2vWritesBits : AlwaysTrue pt ∧ (7 : BitVec 6).toNat < 8 := ⟨always_pt, by decide⟩
theorem witness_V2bitsCollectsLowBits : PredRuns pt ∧ (7 : BitVec 6).toNat < 8 ∧ ActiveAt base pt 3 ∧ ¬ HardWired base 0 ∧
    HardWired hardWired 0 := ⟨runs_pt, by decide, active_base.1, by simp [HardWired, base, State.reset, Env.initial], rfl, rfl⟩

/-! ### Loads and stores -/

/-- The address of element `x` from 1000h on, and from 1020h on. -/
def at1000 (x : Fin 16) : Word := 0x1000 + BitVec.ofNat 64 (8 * x.val)
def at1020 (x : Fin 16) : Word := 0x1020 + BitVec.ofNat 64 (8 * x.val)

/-- S1 and S17 with a stride or with offsets. -/
def loadState : State := setVec ((data.setGpr 1 0x1000).setGpr 2 8) 2 [0, 8, 16, 24]
def storeState : State := setVec ((data.setGpr 1 0x1020).setGpr 2 8) 2 [0, 8, 16, 24]

theorem witness_LvLoadsUnitStride : PredRuns pt ∧ (1 : BitVec 6).toNat < 8 ∧
    AccessesReach loadState pt .load 0 (fun x => loadState.gpr 1 + BitVec.ofNat 64 (8 * x.val)) at1000 ∧
    (∀ x, ActiveAt loadState pt x → ∀ k, k < 8 → (loadState.mem.read ((at1000 x).toNat + k)).isSome = true) ∧ ActiveAt loadState pt 3 := by
  simp only [AccessesReach, active_pt]
  exact ⟨runs_pt, by decide, by decide, by decide, by decide⟩
theorem witness_LvwsLoadsWithStride : PredRuns pt ∧ (1 : BitVec 6).toNat < 8 ∧
    AccessesReach loadState pt .load 0 (fun x => loadState.gpr 1 + loadState.gpr 2 * BitVec.ofNat 64 x.val) at1000 ∧
    (∀ x, ActiveAt loadState pt x → ∀ k, k < 8 → (loadState.mem.read ((at1000 x).toNat + k)).isSome = true) ∧ ActiveAt loadState pt 3 := by
  simp only [AccessesReach, active_pt]
  exact ⟨runs_pt, by decide, by decide, by decide, by decide⟩
theorem witness_LvxLoadsIndexed : PredRuns pt ∧ (1 : BitVec 6).toNat < 8 ∧ (2 : BitVec 6).toNat < 8 ∧
    AccessesReach loadState pt .load 0 (fun x => loadState.gpr 1 + loadState.elem 2 x) at1000 ∧
    (∀ x, ActiveAt loadState pt x → ∀ k, k < 8 → (loadState.mem.read ((at1000 x).toNat + k)).isSome = true) ∧ ActiveAt loadState pt 3 := by
  simp only [AccessesReach, active_pt]
  exact ⟨runs_pt, by decide, by decide, by decide, by decide, by decide⟩

/-- No byte from 1020h to 103Fh is program text. -/
theorem storeState_notText : ∀ x, ActiveAt storeState pt x → ∀ b, Within (at1020 x) b → storeState.env.inText b = false := by
  intro x hx b hb
  have hx4 : x.val < 4 := (active_pt _ _).mp hx
  have ha : (at1020 x).toNat = 0x1020 + 8 * x.val := (show ∀ x : Fin 16, (at1020 x).toNat = 0x1020 + 8 * x.val by decide) x
  simp only [Within, ha] at hb
  have e : storeState.env.inText b = (decide (0x100 ≤ b) && decide (b < 0x100 + 0x20)) := by
    simp [Env.inText, Env.inTextBytes, ByteRange.has, storeState, setVec, data, Env.initial]
  rw [e]
  simp
  omega

theorem witness_SvStoresUnitStride : PredRuns pt ∧ (3 : BitVec 6).toNat < 8 ∧
    AccessesReach storeState pt .store 0 (fun x => storeState.gpr 1 + BitVec.ofNat 64 (8 * x.val)) at1020 ∧
    (∀ x, ActiveAt storeState pt x → ∀ b, Within (at1020 x) b → storeState.env.inText b = false) ∧ ActiveAt storeState pt 3 := by
  refine ⟨runs_pt, by decide, ?_, storeState_notText, ?_⟩ <;> simp only [AccessesReach, active_pt] <;> decide
theorem witness_SvwsStoresWithStride : PredRuns pt ∧ (3 : BitVec 6).toNat < 8 ∧
    AccessesReach storeState pt .store 0 (fun x => storeState.gpr 1 + storeState.gpr 2 * BitVec.ofNat 64 x.val) at1020 ∧
    (∀ x, ActiveAt storeState pt x → ∀ b, Within (at1020 x) b → storeState.env.inText b = false) ∧ ActiveAt storeState pt 3 := by
  refine ⟨runs_pt, by decide, ?_, storeState_notText, ?_⟩ <;> simp only [AccessesReach, active_pt] <;> decide
theorem witness_SvxStoresIndexed : PredRuns pt ∧ (3 : BitVec 6).toNat < 8 ∧ (2 : BitVec 6).toNat < 8 ∧
    AccessesReach storeState pt .store 0 (fun x => storeState.gpr 1 + storeState.elem 2 x) at1020 ∧
    (∀ x, ActiveAt storeState pt x → ∀ b, Within (at1020 x) b → storeState.env.inText b = false) ∧ ActiveAt storeState pt 3 := by
  refine ⟨runs_pt, by decide, by decide, ?_, storeState_notText, ?_⟩ <;> simp only [AccessesReach, active_pt] <;> decide

/-- Both clauses: S12, where element 1 stands at 1004h; and a store to the program text. -/
theorem witness_MisalignedAccessIsRefused :
    (let s := (data.setGpr 1 0x1000).setGpr 2 4
     Executes s (.lvws pt 0 1 1 2) ∧
       accessOf s (.lvws pt 0 1 1 2) = some (.load, 0, 1, fun x => s.gpr 1 + s.gpr 2 * BitVec.ofNat 64 x.val) ∧
       ActiveAt s pt 1 ∧ s.env.segMap 0 (s.gpr 1 + s.gpr 2 * BitVec.ofNat 64 1) = some 0x1004 ∧ (0x1004#64).toNat % 8 ≠ 0) ∧
    (let s := data.setGpr 3 0x118
     Executes s (.sv pt 0 3 3) ∧ accessOf s (.sv pt 0 3 3) = some (.store, 0, 3, fun x => s.gpr 3 + BitVec.ofNat 64 (8 * x.val)) ∧
       (∀ x a, ActiveAt s pt x → s.env.segMap 0 (s.gpr 3 + BitVec.ofNat 64 (8 * x.val)) = some a → a.toNat % 8 = 0) ∧
       ActiveAt s pt 0 ∧ s.env.segMap 0 (s.gpr 3 + BitVec.ofNat 64 (8 * 0)) = some 0x118 ∧ Within 0x118 0x11F ∧
       s.env.inText 0x11F = true) := by
  refine ⟨⟨⟨by decide, by decide⟩, rfl, (active_pt _ _).mpr (by decide), by decide, by decide⟩,
    ⟨⟨by decide, by decide⟩, rfl, ?_, (active_pt _ _).mpr (by decide), by decide, ⟨by decide, by decide⟩, by decide⟩⟩
  intro x a hx h
  obtain rfl : _ = a := Option.some.inj h
  clear hx h; revert x; decide

/-- S5: elements 2 and 3 are outside the allocation. -/
def outside : State := data.setGpr 1 0x1030
theorem outside_access : accessOf outside (.lv pt 0 1 1) = some (.load, 0, 1, fun x => outside.gpr 1 + BitVec.ofNat 64 (8 * x.val)) := rfl
theorem outside_raises : Raises outside pt .load 0 (fun x => outside.gpr 1 + BitVec.ofNat 64 (8 * x.val)) 2 .dbe 0x1040 :=
  ⟨(active_pt _ _).mpr (by decide), .inr ⟨by decide, .inl ⟨by decide, rfl⟩⟩⟩
theorem witness_ElementFaultIsTaken : Executes outside (.lv pt 0 1 1) ∧
    NotRefused outside pt .load 0 (fun x => outside.gpr 1 + BitVec.ofNat 64 (8 * x.val)) ∧
    ∃ x c a, Raises outside pt .load 0 (fun x => outside.gpr 1 + BitVec.ofNat 64 (8 * x.val)) x c a := by
  refine ⟨⟨by decide, by decide⟩, ?_, _, _, _, outside_raises⟩
  intro x a hx h
  obtain rfl : _ = a := Option.some.inj h
  clear hx h
  exact ⟨by revert x; decide, nofun⟩
theorem witness_FaultedLoadLeavesOldOrLoaded :
    accessOf outside (.lv pt 0 1 1) = some (.load, 0, 1, fun x => outside.gpr 1 + BitVec.ofNat 64 (8 * x.val)) ∧
    (∃ c pc e a after, exec (.lv pt 0 1 1) outside = .fault (.exception c pc e a after)) ∧ ¬ ActiveAt outside pt 4 ∧
    (∃ x c a, Raises outside pt .load 0 (fun x => outside.gpr 1 + BitVec.ofNat 64 (8 * x.val)) x c a) ∧
    ActiveAt outside pt 1 ∧ outside.env.segMap 0 0x1038 = some 0x1038 ∧ outside.env.memFault .load 0x1038 = none := by
  refine ⟨rfl, ?_, ?_, ⟨_, _, _, outside_raises⟩, (active_pt _ _).mpr (by decide), by decide, by decide⟩
  · have h : ∃ f, chooseOne (Config.faultDraw outside.count) (faulting outside.env .load (accesses outside pt 0 (unitOffset (outside.gpr 1)))) = some f :=
      ⟨_, List.getElem?_eq_getElem (Nat.mod_lt _ (by decide))⟩
    obtain ⟨f, hf⟩ := h
    refine ⟨f.2, outside.pc, f.1.elem, f.1.recorded, outside.loadElems 1 (partlyDone outside .load (accesses outside pt 0 (unitOffset (outside.gpr 1)))), ?_⟩
    show vecLoad (.lv pt 0 1 1) 0 1 (unitOffset (outside.gpr 1)) outside = _
    rw [vecLoad, perform_executes (by decide) (by decide)]
    simp only [show (Instr.lv pt 0 1 1).pred = pt from rfl]
    rw [if_neg (by decide), hf]; rfl
  · rw [active_pt]; decide
theorem witness_FaultedStoreLeavesOldOrStored :
    (let s := { data.setGpr 3 0x1038 with vl := 2 }
     accessOf s (.sv pt 0 3 3) = some (.store, 0, 3, fun x => s.gpr 3 + BitVec.ofNat 64 (8 * x.val)) ∧
       ∃ c pc e a after, exec (.sv pt 0 3 3) s = .fault (.exception c pc e a after)) := ⟨rfl, _, _, _, _, _, rfl⟩

/-- S24: byte 1003h allocated and holding no value. -/
def hole : State := { data.setGpr 1 0x1000 with mem := data.mem.filter fun c => c.1 != 0x1003 }
theorem witness_LoadOfValuelessByteFaults : Executes hole (.lv pt 0 1 1) ∧
    accessOf hole (.lv pt 0 1 1) = some (.load, 0, 1, fun x => hole.gpr 1 + BitVec.ofNat 64 (8 * x.val)) ∧
    AccessesReach hole pt .load 0 (fun x => hole.gpr 1 + BitVec.ofNat 64 (8 * x.val)) at1000 ∧
    ActiveAt hole pt 0 ∧ Within (at1000 0) 0x1003 ∧ hole.mem.read 0x1003 = none := by
  refine ⟨⟨by decide, by decide⟩, rfl, ?_, (active_pt _ _).mpr (by decide), ⟨by decide, by decide⟩, by decide⟩
  simp only [AccessesReach, active_pt]; decide

/-- A store of four elements from 1020h on and a load from there. -/
theorem witness_StoreThenLoadGivesBack : storeState.env.segRules = [] ∧ pt.cond ≠ .psig ∧ (1 : BitVec 6).toNat < 8 ∧
    (∃ t u, exec (.sv pt 0 3 1) storeState = .next t ∧ exec (.lv pt 0 1 1) t = .next u) ∧ ActiveAt storeState pt 3 :=
  ⟨rfl, by decide, by decide, ⟨_, _, rfl, rfl⟩, (active_pt _ _).mpr (by decide)⟩

/-! ### The machine -/

theorem witness_AlwaysFalseOnlyAdvances : (Instr.vadd pf 0 3 1 2).pred = ⟨9, .pf⟩ ∧ staticCheck false (.vadd pf 0 3 1 2) = none ∧
    staticCheck false (.vadd pf 0 8 1 2) = some .vectorRegisterOutOfRange := by decide
theorem witness_ConditionTableIsFollowed : (Instr.vadd ⟨0, .rsv12⟩ 0 3 1 2).pred.cond.code ∈ [12#4, 14#4, 15#4] ∧
    (Instr.sv ⟨0, .rsv15⟩ 0 3 1).pred.cond.code ∈ [12#4, 14#4, 15#4] ∧
    decode none [0x7B, 0x57, 0x81, 0x30, 0x00] = .instr (.vadd ⟨7, .pltu⟩ 0 3 1 2) := by decide

/-- Program text whose last four bytes are `bs`, at the top of the address space. -/
def atTop (bs : List Byte) : State :=
  { base with
    pc := 0xFFFFFFFFFFFFFFFC
    mem := Memory.writeBytes [] (2 ^ 64 - 4) bs
    env := { base.env with text := [⟨2 ^ 64 - 4, 4⟩] } }

/-- No action of the environment is due where the schedule is empty. -/
theorem noActionDue_of_empty {s : State} (h : s.pendingVL = []) : NoActionDue s := by
  intro a rest e; rw [h] at e; cases e
/-- The run has not ended where no end address is supplied. -/
theorem notEnded_of_none {s : State} (h : s.env.endAddr = none) : ¬ RunEnded s := by
  rintro ⟨-, e⟩; rw [h] at e; cases e
/-- A completed VMAC; a load that ends at the top exactly; a listed instruction that straddles it; bytes that do. -/
theorem witness_ProgramCounterOnlyAdvances : (∃ t, exec (.vmac pt 0 0 4 1 2 3) base = .next t) ∧
    fetch (atTop [0x01, 0xBD, 0x41, 0x00]) = .instr (.lv pt 0 1 1) ∧
    (let s := { atTop [] with env := { base.env with listing := [(0xFFFFFFFFFFFFFFFC, .vadd pt 0 3 1 2)] } }
     NoActionDue s ∧ ¬ RunEnded s ∧
       s.env.listing.find? (fun l => l.1 == s.pc) = some (s.pc, .vadd pt 0 3 1 2) ∧
       2 ^ 64 < s.pc.toNat + (encode (.vadd pt 0 3 1 2)).length) ∧
    (let s := atTop [0x01, 0x57, 0x81, 0x30]
     NoActionDue s ∧ ¬ RunEnded s ∧ (∀ l ∈ s.env.listing, l.1 ≠ s.pc) ∧
       fetchWindow s = 0x01 :: [0x57, 0x81, 0x30] ∧ firstByteRefusal 0x01 = none ∧ rowLength 0x57 = some 5 ∧
       [0x01#8, 0x57#8, 0x81#8, 0x30#8].length < 5 ∧ s.pc.toNat + [0x01#8, 0x57#8, 0x81#8, 0x30#8].length = 2 ^ 64) := by
  refine ⟨⟨_, rfl⟩, by decide, ⟨noActionDue_of_empty rfl, notEnded_of_none rfl, by decide, by decide⟩,
    ⟨noActionDue_of_empty rfl, notEnded_of_none rfl, nofun, by decide, by decide, by decide, by decide, by decide⟩⟩

/-- S22 at the program counter, as a listing. -/
def faultingProgram : State :=
  { data.setGpr 3 0x1038 with vl := 2, env := { data.env with text := [], listing := [(0x100, .sv pt 0 3 3)] } }
theorem witness_OnlyLoadsAndStoresFault : ∃ f, step faultingProgram = .fault f := ⟨_, rfl⟩

/-- A listing of one addition. -/
def addProgram : State := { base with env := { base.env with listing := [(0x100, .vadd pt 0 3 1 2)] } }
theorem witness_ListingWithoutMemoryNeverFaults : addProgram.env.text = [] ∧ ∀ l ∈ addProgram.env.listing, ¬ IsMemory l.2 := by
  refine ⟨rfl, ?_⟩
  intro l hl h
  obtain rfl : l = (0x100, .vadd pt 0 3 1 2) := by simpa [addProgram] using hl
  exact absurd (h base) (by decide)
theorem addProgram_reaches : ∃ t, Safety.Reaches addProgram t ∧ t.pc = 0x105 := ⟨_, .step .refl rfl, rfl⟩
theorem witness_StepsKeepMemoryCanonical : Safety.Inv data ∧ ∃ t, Safety.Reaches addProgram t ∧ t.pc = 0x105 :=
  ⟨by unfold Safety.Inv; decide, addProgram_reaches⟩
theorem witness_StepsKeepProgramText : (∃ t, Safety.Reaches addProgram t ∧ t.pc = 0x105) ∧ addProgram.env.inText 0x104 = true :=
  ⟨addProgram_reaches, by decide⟩
/-- An action due now; one timed for the completion of the next instruction, which completes and does not end the run. -/
theorem witness_VlChangesOnlyBySetVL : ({ base with pendingVL := [⟨0, 16⟩] }.pendingVL = ⟨0, 16⟩ :: [] ∧ 0 ≤ base.count ∧ ¬ RunEnded base) ∧
    (let s := { addProgram with pendingVL := [⟨1, 16⟩] }
     NoActionDue s ∧ s.pendingVL = ⟨s.count + 1, 16⟩ :: [] ∧ ∃ t, step s = .next t ∧ ¬ RunEnded t) := by
  refine ⟨⟨rfl, by decide, notEnded_of_none rfl⟩, ?_, rfl, _, rfl, notEnded_of_none rfl⟩
  intro a rest h; cases h; decide

/-- The listing of one addition, the run ending right after it, and an action of the environment timed for that moment. -/
def endingProgram : State :=
  { addProgram with env := { addProgram.env with endAddr := some 0x105 }, pendingVL := [⟨1, 16⟩] }
/-- Both sides: an instruction that ends the run while an action is due; a launch at the end address. -/
theorem witness_RunEndsAtTheEndAddress :
    (∃ t, exec (.vadd pt 0 3 1 2) endingProgram = .next t ∧ t.env.endAddr = some t.pc ∧ RunEnded t ∧ ¬ NoActionDue t) ∧
    ¬ RunEnded { base with env := { base.env with endAddr := some 0x100 } } := by
  refine ⟨⟨_, rfl, rfl, ⟨by decide, rfl⟩, fun h => absurd (h _ _ rfl) (by decide)⟩, fun h => absurd h.1 (by decide)⟩
theorem witness_EachKindOfStateHasItsWriters : ∃ t, exec (.vadd pt 0 3 1 2) base = .next t := ⟨_, rfl⟩
theorem witness_ElementsBeyondVlKeepTheirValues : (∃ t, exec (.vadd pt 0 3 1 2) base = .next t) ∧ base.vl.val ≤ (4 : Fin 16).val ∧
    ∀ p vt a ra, Instr.vadd pt 0 3 1 2 ≠ .veins p vt a ra ∧ Instr.vadd pt 0 3 1 2 ≠ .vshlv p vt a ra ∧ Instr.vadd pt 0 3 1 2 ≠ .vshrv p vt a ra :=
  ⟨⟨_, rfl⟩, by decide, fun _ _ _ _ => ⟨nofun, nofun, nofun⟩⟩
theorem witness_HardWiredRegisterReadsZero : HardWired hardWired 0 ∧ ¬ HardWired hardWired 1 ∧ (1 : BitVec 6) ≠ 0 := by
  unfold HardWired; decide
/-- Every clause at a boundary: the predicate bytes, the types, a vector register 8 in a form the others do not have, `Vpt` and `Vpn` 8,
`Pn`, `Sn` 31, a shift onto itself, and an instruction that none of them refuses. -/
theorem witness_StaticChecksRefuseFirst :
    ((Instr.vadd ⟨8, .pf⟩ 0 3 1 2).pred.cond = .pf ∧ (Instr.vadd ⟨8, .pf⟩ 0 3 1 2).pred.vpn ≠ 9#4) ∧
    ((Instr.vadd ⟨1, .pt⟩ 0 3 1 2).pred.cond = .pt ∧ (Instr.vadd ⟨1, .pt⟩ 0 3 1 2).pred.vpn ≠ 0#4) ∧
    (Instr.vadd ⟨0, .rsv14⟩ 0 3 1 2).pred.cond = .rsv14 ∧ PredLegal pt ∧ PredLegal pf ∧ PredLegal ⟨8, .peq⟩ ∧
    (arithmeticTypeOf (.vmac pt 0 4 3 1 2 0) = some 4#3 ∧ arithmeticTypeOf (.vcmp pt 3 1 1 2) = some 3#3 ∧
      arithmeticTypeOf (.vcmps pt 7 1 1 2) = some 7#3 ∧ logicalTypeOf (.veors pt 1 3 1 2) = some 1#3) ∧
    (TypeLegal (.vmac pt 0 2 3 1 2 8) ∧ 8#6 ∈ vectorNumbers (.vmac pt 0 2 3 1 2 8) ∧ 8 ≤ (8#6).toNat) ∧
    (TypeLegal (.vcmp pt 0 8 1 2) ∧ PredicateOut (.vcmp pt 0 8 1 2) ∧ PredicateOut (.sv ⟨8, .pltu⟩ 0 3 1)) ∧
    (¬ PredicateOut (.vex ⟨7, .peq⟩ 11 1 10) ∧ PnOpen (.vex ⟨7, .peq⟩ 11 1 10)) ∧
    (¬ PredicateOut (.vmac pt 31 0 4 1 2 3) ∧ ¬ PnOpen (.vmac pt 31 0 4 1 2 3) ∧ SnOpen base (.vmac pt 31 0 4 1 2 3)) ∧
    (¬ PnOpen (.vshlv pt 3 3 10) ∧ Aliased (.vshlv pt 3 3 10)) ∧
    (¬ SnOpen base (.vshlv pt 3 1 10) ∧ ¬ Aliased (.vshlv pt 3 1 10)) := by
  refine ⟨by decide, by decide, rfl, .inr (.inl ⟨rfl, rfl⟩), .inl ⟨rfl, rfl⟩, .inr (.inr (.inr (by decide))), ⟨rfl, rfl, rfl, rfl⟩,
    ⟨⟨?_, nofun⟩, by decide, by decide⟩, ⟨⟨?_, nofun⟩, .inl ⟨_, rfl, by decide⟩, .inr (by decide)⟩, ⟨?_, trivial, by decide, by decide⟩,
    ⟨?_, fun h => h.1, ⟨_, _, _, _, _, _, _, rfl, by decide, rfl⟩⟩, ⟨fun h => h.2.1 rfl, _, _, _, .inl rfl⟩, ?_, ?_⟩
  · rintro t h; cases h; exact .inr (.inr rfl)
  · rintro t h; cases h; exact .inl rfl
  · rintro (⟨r, h, _⟩ | h)
    · cases h
    · revert h; decide
  · rintro (⟨r, h, _⟩ | h)
    · cases h
    · revert h; decide
  · rintro ⟨p, sn, t, vt, va, vb, vc, h, _⟩; cases h
  · rintro ⟨p, v, ra, h | h⟩ <;> cases h

/-! ### Encoding -/

theorem witness_DecodeEncodeOutside56 : Outside56 (.vadd pt 0 3 1 2) ∧ Outside56 (.svx pt 7 63 63 63) := ⟨trivial, trivial⟩
theorem witness_DecodeEncodeLong56 : fieldA (.vex pt 11 1 10) = some 11 ∧ LongIsUnique 11 ∧ fieldA (.vex pt 4 1 10) = some 4 ∧
    ¬ LongIsUnique 4 ∧ PredLegal (Instr.vex pt 4 1 10).pred ∧ LongIsUnique 63 ∧ ¬ LongIsUnique 54 := by
  refine ⟨rfl, by unfold LongIsUnique; decide, rfl, by unfold LongIsUnique; decide, .inr (.inl ⟨rfl, rfl⟩), ?_, ?_⟩ <;>
    unfold LongIsUnique <;> decide
theorem witness_DecodeEncodeShort56 : ShortIsUnique [] ∧ ShortIsUnique [0x1C] ∧ ¬ ShortIsUnique [0x01] ∧ ¬ ShortIsUnique [0x1B] ∧
    PredLegal pt := by
  refine ⟨nofun, ?_, ?_, ?_, .inr (.inl ⟨rfl, rfl⟩)⟩
  · intro b bs h; obtain ⟨rfl, -⟩ := List.cons.inj h; decide
  · intro h; exact absurd (h _ _ rfl).1 (by decide)
  · intro h; exact absurd (h _ _ rfl).2.2.2.2 (by decide)
theorem witness_EncodeDecodeGivesTheBytesBack : decode none [0x01, 0x57, 0x81, 0x30, 0x00] = .instr (.vadd pt 0 3 1 2) ∧
    (∀ p rt va, Instr.vadd pt 0 3 1 2 ≠ .v2bits p rt va) ∧
    decode none [0x01, 0x56, 0x7F, 0xB0, 0x18] = .instr (.v2bits pt 11 1) := ⟨by decide, nofun, by decide⟩
/-- Every clause at a boundary of its range. -/
theorem witness_DecodeRefusesByName : rowLength 0x0F = none ∧ rowLength 0x20 = none ∧ rowLength 0x10 = some 4 ∧ rowLength 0x1F = some 4 ∧
    [0x01#8, 0x10#8, 0#8].length < 4 ∧ rowLength 0x5A = some 6 ∧ [0x01#8, 0x5A#8, 0#8, 0#8, 0#8].length < 6 ∧
    (0x1F#8).toNat / 16 = 1 ∧ (0x7F#8).toNat < 128 ∧ (0x10#8).toNat / 16 % 2 = 1 ∧ ¬ ShortMember 0x3F ∧ ¬ ShortMember 0x70 ∧
    (0x7F#8).toNat / 32 ∈ [3, 7] ∧ (0x20#8).toNat / 32 ∈ [1, 3, 7] ∧ (0x5F#8).toNat / 32 ∈ [2, 3, 6, 7] ∧ ¬ LongMember 0x10 ∧
    (0x08#8).toNat / 8 ≠ 0 ∧ (0x1C#8).toNat / 4 % 8 ≠ 0 ∧ firstByteRefusal 0x01 = none ∧ firstByteRefusal 0x00 = some .notInScope ∧
    firstByteRefusal 0xFF = some .reservedCondition := by unfold ShortMember LongMember; decide
/-- A word placed at the program counter after reset. -/
theorem witness_StepRunsTheDecodedInstruction : (let s := State.reset.withFetchWord 40 0x0030815701
    NoActionDue s ∧ ¬ RunEnded s ∧ (∀ l ∈ s.env.listing, l.1 ≠ s.pc) ∧
    decode s.env.decode56 (fetchWindow s) = .instr (.vadd pt 0 3 1 2)) := ⟨noActionDue_of_empty rfl, notEnded_of_none rfl, nofun, by decide⟩
theorem witness_StepRunsTheListedInstruction : NoActionDue addProgram ∧ ¬ RunEnded addProgram ∧
    addProgram.env.listing.find? (fun l => l.1 == addProgram.pc) = some (addProgram.pc, .vadd pt 0 3 1 2) ∧
    addProgram.pc.toNat + (encode (.vadd pt 0 3 1 2)).length ≤ 2 ^ 64 := ⟨noActionDue_of_empty rfl, notEnded_of_none rfl, by decide, by decide⟩

end Sys2Proof.Tests
end

section
/-! PROOFS. The statements about common execution (40_common_execution.md): the always-false byte (R130) and the Predicate
Conditions table (R121). -/

namespace Sys2Proof.CommonExecution

open Sys2Proof.Machine Sys2Proof.Spec Sys2Proof.Laws.EncodeLength

/-! ## Every instruction runs in the skeleton -/

/-- Each instruction is the skeleton of R120 around an effect of its own, so what the skeleton does before the effect holds of all. -/
theorem exec_eq_perform (i : Instr) (s : State) : ∃ effect, exec i s = perform i s effect := by
  cases i <;> exact ⟨_, rfl⟩

/-- What a static check refuses, the instruction refuses, whatever the state holds (R134). -/
theorem exec_of_staticCheck_eq_some {i : Instr} {s : State} {r : StaticRefusal} (h : staticCheck s.env.snDecode.isSome i = some r) :
    exec i s = .refused (.static r) := by
  obtain ⟨effect, he⟩ := exec_eq_perform i s
  rw [he, perform, h]

/-- An instruction that no static check refuses merely ends where its condition is the always-false one (R130). -/
theorem exec_of_always_false {i : Instr} {s : State} (h : staticCheck s.env.snDecode.isSome i = none) (hc : i.pred.cond = .pf) :
    exec i s = .next (s.retire i) := by
  obtain ⟨effect, he⟩ := exec_eq_perform i s
  simp [he, perform, h, hc]

/-- Settles O39: the skeleton answers before any instruction's own effect is looked at. -/
theorem alwaysFalseOnlyAdvances : Obligations.AlwaysFalseOnlyAdvances := by
  intro s i hp
  refine ⟨fun h => ⟨s.count + 1, ?_⟩, fun r => exec_of_staticCheck_eq_some⟩
  rw [exec_of_always_false h (by rw [hp]), length_encode]
  rfl

/-! ## The predicate byte in encoding and decoding -/

/-- The predicate of a sequence of bytes is read from the first: its low nibble is the condition's row number, its high nibble `Vpn`
(R81, R121). -/
theorem predOf_wordOf_cons (b : Byte) (bs : List Byte) :
    (predOf (wordOf (b :: bs))).cond.code.toNat = b.toNat % 16 ∧ (predOf (wordOf (b :: bs))).vpn.toNat = b.toNat / 16 := by
  have hlow : field (wordOf (b :: bs)) 0 4 = b.extractLsb' 0 4 := field_byteAt _ 0 4 0 rfl (by decide) (by decide)
  have hhigh : field (wordOf (b :: bs)) 4 4 = b.extractLsb' 4 4 := field_byteAt _ 4 4 0 rfl (by decide) (by decide)
  have hb := b.isLt
  simp only [predOf, Cond.code_ofCode, hlow, hhigh, BitVec.extractLsb'_toNat]
  omega

/-- A member of opcode 56h has the word's predicate (R81, R91). -/
theorem pred_build (m : Member56) (w : BitVec 48) : (m.build w).pred = predOf w := by cases m <;> rfl

/-- Every candidate has the word's predicate (R81, R91, R100): the members of opcode 56h by `build`, every other row outright. -/
theorem pred_candidates (n : Nat) (w : BitVec 48) : ∀ i ∈ candidates n w, i.pred = predOf w := by
  have members (k : Nat) (ms : List Member56) : ∀ i ∈ whenPresent n k (ms.map fun m => m.build w), i.pred = predOf w :=
    forall_mem_ite (List.forall_mem_map.mpr fun m _ => pred_build m w) (by simp)
  unfold candidates
  refine forall_mem_ite ?_ <| forall_mem_ite ?_ <| forall_mem_ite ?opcode56 ?_
  case opcode56 => exact List.forall_mem_append.mpr ⟨members 4 _, members 5 _⟩
  all_goals
    simp only [whenPresent, rowsCmp, rows52, rows57, rows5A, rows5C, rows5E, rowsLS2, rowsLS3]
    repeat' refine forall_mem_ite ?_ ?_
    all_goals simp [Instr.pred]

/-- Decoding by a platform's rule answers only members of opcode 56h, built from the word (R101). -/
theorem decodeByRules_build {rs : List Rule56} {n : Nat} {w : BitVec 48} {i : Instr} (h : decodeByRules rs n w = .instr i) :
    ∃ m : Member56, i = m.build w := by
  unfold decodeByRules rejectAfterPred at h
  split at h
  · next r _ =>
    split at h
    · cases h; exact ⟨r.member, rfl⟩
    · cases h
  · cases h

/-- An instruction that decoding finds has the predicate of the bytes it is found in, also under a platform's own rule (R81, R101). -/
theorem pred_of_decode {rules : Option (List Rule56)} {bs : List Byte} {i : Instr} (h : decode rules bs = .instr i) :
    i.pred = predOf (wordOf bs) := by
  have table (h : decodeByTable bs.length (wordOf bs) = .instr i) : i.pred = predOf (wordOf bs) :=
    pred_candidates _ _ i (decodeByTable_mem h)
  cases rules with
  | none => exact table h
  | some rs =>
    simp only [decode] at h
    split at h
    · obtain ⟨m, rfl⟩ := decodeByRules_build h; exact pred_build m _
    · exact table h

/-- An encoding begins with the predicate byte's nibbles (R81, R107). -/
theorem encode_eq_cons (i : Instr) :
    ∃ b bs, encode i = b :: bs ∧ b.toNat % 16 = i.pred.cond.code.toNat ∧ b.toNat / 16 = i.pred.vpn.toNat := by
  have hpred := predOf_encode i []
  rw [List.append_nil] at hpred
  cases he : encode i with
  | nil =>
    have hlen := length_encode i
    rw [he] at hlen
    cases i <;> cases hlen
  | cons b bs =>
    rw [he] at hpred
    obtain ⟨hcode, hvpn⟩ := predOf_wordOf_cons b bs
    exact ⟨b, bs, rfl, by rw [← hpred, hcode], by rw [← hpred, hvpn]⟩

/-! ## The rows of the table -/

/-- The model's test of a condition is the test of its row (R121). -/
theorem condTest_iff_holds (c : Cond) (f : Flags) (signal : Bool) : condTest c f signal = true ↔ Holds c f signal := by
  cases c <;> simp [condTest, Holds]

/-- The mask bit of an element is the test of the condition's row on that element's flags (R121, R122). -/
theorem mask_iff_holds (s : State) (p : Pred) (x : Fin 16) :
    s.mask p x = true ↔ Holds p.cond (s.flags p.vpn x) (Config.signal s.count x.val) := condTest_iff_holds _ _ _

/-- The blank rows are the reserved conditions (R121, R122). -/
theorem reject_of_blank_row {p : Pred} (h : p.cond.code ∈ [12#4, 14#4, 15#4]) : p.reject = some .reservedCondition := by
  obtain ⟨vpn, c⟩ := p
  cases c
  case rsv12 | rsv14 | rsv15 => rfl
  all_goals simp [Cond.code] at h

/-- The predicate byte is what the static checks look at first (R134). -/
theorem staticCheck_of_reject {i : Instr} {r : StaticRefusal} (snSupplied : Bool) (h : i.pred.reject = some r) :
    staticCheck snSupplied i = some r := by rw [staticCheck, h, Option.some_or]

/-- Settles O40: row numbers by evaluation, the nibbles by the predicate of a word, the tests row by row, and the blank rows by the
first of the static checks. -/
theorem conditionTableIsFollowed : Obligations.ConditionTableIsFollowed := by
  refine ⟨by decide, encode_eq_cons, ?decoding, mask_iff_holds, ?blank⟩
  case decoding =>
    intro rules b bs i h
    rw [pred_of_decode h]
    exact predOf_wordOf_cons b bs
  case blank => exact fun s i h => exec_of_staticCheck_eq_some (staticCheck_of_reject _ (reject_of_blank_row h))

end Sys2Proof.CommonExecution
end

section
/-! PROOFS. The statements about the arithmetic instructions (41_arithmetic.md): what each writes (R140 to R150), its frame, and its
bytes. -/

namespace Sys2Proof.Arithmetic

open Sys2Proof.Machine Sys2Proof.Spec Sys2Proof.CommonExecution

/-! ## When an instruction executes -/

/-- A predicate byte under which a masked instruction executes is one that begins a vector instruction (R82). -/
theorem reject_of_predRuns {p : Pred} (hp : PredRuns p) : p.reject = none := by
  obtain ⟨vpn, c⟩ := p
  obtain ⟨hc, hv⟩ | hc | ⟨hlo, hhi, hv⟩ := hp
  · simp [Pred.reject, show c = .pt from hc, show vpn = 0#4 from hv]
  · simp [Pred.reject, show c = .psig from hc]
  · cases c
    case pf | pt | rsv12 | rsv14 | rsv15 => simp [Cond.code] at hlo hhi
    all_goals rfl

/-- Such a byte is not the always-false one (R82, R130). -/
theorem cond_ne_pf_of_predRuns {p : Pred} (hp : PredRuns p) : p.cond ≠ .pf := by
  intro hc
  obtain ⟨h, _⟩ | h | ⟨hlo, _, _⟩ := hp
  · simp [hc] at h
  · simp [hc] at h
  · simp [hc, Cond.code] at hlo

/-- Where such a byte's condition reads flags, its `Vpn` names a register (R31). -/
theorem vpn_lt_of_predRuns {p : Pred} (hp : PredRuns p) (hr : p.cond.readsFlags = true) : p.vpn.toNat < 8 := by
  obtain ⟨h, _⟩ | h | ⟨_, _, hv⟩ := hp
  · simp [h, Cond.readsFlags] at hr
  · simp [h, Cond.readsFlags] at hr
  · exact hv

/-- Registers that exist pass the check of the vector registers (R23). -/
theorem vectorCheck_eq_none {i : Instr} (h : ∀ r ∈ vectorFields i, r.toNat < 8) : vectorCheck i = none := by
  simpa [vectorCheck] using h

/-- A predicate byte that executes and a target that exists pass the check of the predicate registers (R31). -/
theorem predicateCheck_eq_none {i : Instr} (hp : PredRuns i.pred)
    (ht : (targetPredicate i).all (fun r => decide (r.toNat < 8)) = true) : predicateCheck i = none := by
  have hvpn : (!i.pred.cond.readsFlags || decide (i.pred.vpn.toNat < 8)) = true := by
    cases hr : i.pred.cond.readsFlags with
    | false => rfl
    | true => simp [vpn_lt_of_predRuns hp hr]
  rw [predicateCheck, ht, hvpn]; rfl

/-- Types with a meaning pass the check of the arithmetic types (R88, R127). -/
theorem arithmeticType_eq_none {t : BitVec 3} (ht : TypeRuns t) : arithmeticType t = none := if_pos ht

/-- Where every field is in range, only the instruction's own check is left of the static checks (R134). -/
theorem staticCheck_eq_ownCheck {i : Instr} (snSupplied : Bool) (hp : PredRuns i.pred) (htype : typeCheck i = none)
    (hv : ∀ r ∈ vectorFields i, r.toNat < 8) (ht : (targetPredicate i).all (fun r => decide (r.toNat < 8)) = true)
    (hpn : pnCheck i = none) : staticCheck snSupplied i = ownCheck snSupplied i := by
  rw [staticCheck, reject_of_predRuns hp, htype, vectorCheck_eq_none hv, predicateCheck_eq_none hp ht, hpn]
  simp only [Option.none_or]

/-- An instruction with every field in range whose own check passes executes (R120, R134). -/
theorem executes_of_inRange {s : State} {i : Instr} (hp : PredRuns i.pred) (htype : typeCheck i = none)
    (hv : ∀ r ∈ vectorFields i, r.toNat < 8) (ht : (targetPredicate i).all (fun r => decide (r.toNat < 8)) = true)
    (hpn : pnCheck i = none) (hown : ownCheck s.env.snDecode.isSome i = none) : Executes s i :=
  ⟨(staticCheck_eq_ownCheck _ hp htype hv ht hpn).trans hown, cond_ne_pf_of_predRuns hp⟩

/-! ## What an instruction that writes a vector register does -/

/-- The model's active elements are the spec's (R125). -/
theorem active_iff_activeAt (s : State) (p : Pred) (x : Fin 16) : s.active p x = true ↔ ActiveAt s p x := by
  rw [State.active_iff, mask_iff_holds, ActiveAt]

/-- What the elements of the target are after a write of the active ones (R25, R125). -/
theorem elem_writeElems_active {s : State} {vt : BitVec 6} (hvt : vt.toNat < 8) (p : Pred) (value : Fin 16 → Word) (x : Fin 16) :
    (ActiveAt s p x → (s.writeElems vt (s.active p) value).elem vt x = value x) ∧
      (¬ ActiveAt s p x → (s.writeElems vt (s.active p) value).elem vt x = s.elem vt x) := by
  rw [s.elem_writeElems_same hvt, ← active_iff_activeAt]
  exact ⟨fun h => if_pos h, fun h => if_neg h⟩

/-- An instruction that executes and writes `value` to the active elements of a vector register does that and nothing else. -/
theorem writesVector_of_executes {s : State} {i : Instr} {vt : BitVec 6} {value val : Fin 16 → Word} (hx : Executes s i)
    (hvt : vt.toNat < 8) (hexec : exec i s = writeVector i vt value s) (hval : ∀ x, value x = val x) :
    WritesVector s i i.ilen vt val := by
  obtain rfl : value = val := funext hval
  obtain ⟨hcheck, hcond⟩ := hx
  refine ⟨(s.writeElems vt (s.active i.pred) value).retire i, ?runs, ?elems, ?others, ?flags, ?gprs, ?mem, ⟨rfl, rfl, rfl⟩, rfl⟩
  case runs => rw [hexec, writeVector, perform_executes hcheck hcond]
  case elems => exact elem_writeElems_active hvt i.pred value
  case others => exact fun q x hq => s.elem_writeElems_other hq _ _ x
  case flags => exact fun _ _ => rfl
  case gprs => exact fun _ => rfl
  case mem => exact fun _ => rfl

/-! ## The element operations in the integers -/

/-- Addition modulo 2^64 is that of the integers the words stand for (R135). -/
theorem addOp_eq (t : BitVec 3) (a b : Word) :
    addOp t a b = if t = 0#3 then BitVec.ofInt 64 (a.toInt + b.toInt) else Config.fAdd t a b := by
  rw [addOp, BitVec.ofInt_add, BitVec.ofInt_toInt, BitVec.ofInt_toInt]

/-- Subtraction modulo 2^64 is that of the integers the words stand for (R135). -/
theorem subOp_eq (t : BitVec 3) (a b : Word) :
    subOp t a b = if t = 0#3 then BitVec.ofInt 64 (a.toInt - b.toInt) else Config.fSub t a b := by
  rw [subOp, Int.sub_eq_add_neg, BitVec.ofInt_add, BitVec.ofInt_neg, BitVec.ofInt_toInt, BitVec.ofInt_toInt, BitVec.sub_eq_add_neg]

/-- The low 64 bits of a product are those of the product of the integers the words stand for (R135). -/
theorem mulOp_eq (t : BitVec 3) (a b : Word) :
    mulOp t a b = if t = 0#3 then BitVec.ofInt 64 (a.toInt * b.toInt) else Config.fMul t a b := by
  rw [mulOp, BitVec.ofInt_mul, BitVec.ofInt_toInt, BitVec.ofInt_toInt]

/-- Inverting the sign of a word where asked is doing so in the integers (R149). -/
theorem negateIf_ofInt (neg : Bool) (z : Int) : negateIf neg (BitVec.ofInt 64 z) = BitVec.ofInt 64 (if neg then -z else z) := by
  cases neg with
  | false => rfl
  | true => exact (BitVec.ofInt_neg).symm

/-- The sign-controlled operand of VMAC stands for the integer with its sign inverted where asked (R149). -/
theorem negateIf_eq_signed (neg : Bool) (a : Word) : negateIf neg a = BitVec.ofInt 64 (signed neg a) := by
  rw [signed, ← negateIf_ofInt, BitVec.ofInt_toInt]

/-- Multiplying and accumulating modulo 2^64 is doing so in the integers (R149). -/
theorem macOp_eq (t : BitVec 3) (g : Signs) (a b c : Word) :
    macOp t g a b c = if t = 0#3 then
        BitVec.ofInt 64 (let r := signed g.na a * signed g.nb b + signed g.nc c
          if g.nr then -r else r)
      else Config.fMac t g a b c := by
  simp only [macOp, negateIf_eq_signed g.na, negateIf_eq_signed g.nb, negateIf_eq_signed g.nc, ← BitVec.ofInt_mul, ← BitVec.ofInt_add,
    negateIf_ofInt]

/-- The sign controls of an `Sn` that can be decoded (R149). -/
theorem signsOf_eq {table : Option (Vector Signs 31)} {sn : BitVec 5} {g : Signs}
    (h : (sn = 0#5 ∧ g = Signs.plain) ∨ (sn ≠ 0#5 ∧ ∃ v : Vector Signs 31, table = some v ∧ v[sn.toNat - 1]? = some g)) :
    signsOf table sn = g := by
  obtain ⟨rfl, rfl⟩ | ⟨hsn, v, rfl, hg⟩ := h
  · rfl
  · rw [signsOf, if_neg hsn, Option.bind_some, hg, Option.getD_some]

/-! ## Addition and subtraction -/

/-- Settles O1: the shared write of the active elements, with addition in the integers. -/
theorem vaddAddsElements : Obligations.VaddAddsElements := by
  intro s p t vt va vb hp ht hvt hva hvb
  have hx : Executes s (.vadd p t vt va vb) :=
    executes_of_inRange hp (arithmeticType_eq_none ht) (by simp [vectorFields, hvt, hva, hvb]) rfl rfl rfl
  exact ⟨writesVector_of_executes hx hvt rfl fun x => addOp_eq t _ _, rfl⟩

/-- Settles O2: as VADD, the scalar being the second operand. -/
theorem vaddsAddsScalar : Obligations.VaddsAddsScalar := by
  intro s p t vt va rb hp ht hvt hva
  have hx : Executes s (.vadds p t vt va rb) :=
    executes_of_inRange hp (arithmeticType_eq_none ht) (by simp [vectorFields, hvt, hva]) rfl rfl rfl
  exact ⟨writesVector_of_executes hx hvt rfl fun x => addOp_eq t _ _, rfl⟩

/-- Settles O3: the shared write of the active elements, with subtraction in the integers. -/
theorem vsubSubtractsElements : Obligations.VsubSubtractsElements := by
  intro s p t vt va vb hp ht hvt hva hvb
  have hx : Executes s (.vsub p t vt va vb) :=
    executes_of_inRange hp (arithmeticType_eq_none ht) (by simp [vectorFields, hvt, hva, hvb]) rfl rfl rfl
  exact ⟨writesVector_of_executes hx hvt rfl fun x => subOp_eq t _ _, rfl⟩

/-- Settles O4: as VSUB, the scalar being what is subtracted. -/
theorem vsubsSubtractsScalar : Obligations.VsubsSubtractsScalar := by
  intro s p t vt va rb hp ht hvt hva
  have hx : Executes s (.vsubs p t vt va rb) :=
    executes_of_inRange hp (arithmeticType_eq_none ht) (by simp [vectorFields, hvt, hva]) rfl rfl rfl
  exact ⟨writesVector_of_executes hx hvt rfl fun x => subOp_eq t _ _, rfl⟩

/-- Settles O5: as VSUB, the scalar being what is subtracted from. -/
theorem vsubrsSubtractsFromScalar : Obligations.VsubrsSubtractsFromScalar := by
  intro s p t vt va rb hp ht hvt hva
  have hx : Executes s (.vsubrs p t vt va rb) :=
    executes_of_inRange hp (arithmeticType_eq_none ht) (by simp [vectorFields, hvt, hva]) rfl rfl rfl
  exact ⟨writesVector_of_executes hx hvt rfl fun x => subOp_eq t (s.gpr rb) (s.elem va x), rfl⟩

/-! ## Multiplication and division -/

/-- Settles O6: the shared write of the active elements, with multiplication in the integers. -/
theorem vmulMultipliesElements : Obligations.VmulMultipliesElements := by
  intro s p t vt va vb hp ht hvt hva hvb
  have hx : Executes s (.vmul p t vt va vb) :=
    executes_of_inRange hp (arithmeticType_eq_none ht) (by simp [vectorFields, hvt, hva, hvb]) rfl rfl rfl
  exact ⟨writesVector_of_executes hx hvt rfl fun x => mulOp_eq t _ _, rfl⟩

/-- Settles O7: as VMUL, the scalar being the second factor. -/
theorem vmulsMultipliesByScalar : Obligations.VmulsMultipliesByScalar := by
  intro s p t vt va rb hp ht hvt hva
  have hx : Executes s (.vmuls p t vt va rb) :=
    executes_of_inRange hp (arithmeticType_eq_none ht) (by simp [vectorFields, hvt, hva]) rfl rfl rfl
  exact ⟨writesVector_of_executes hx hvt rfl fun x => mulOp_eq t _ _, rfl⟩

/-- Settles O8: the shared write of the active elements; the quotient is the open function's, as the model has it. -/
theorem vdivDividesElements : Obligations.VdivDividesElements := by
  intro s p t vt va vb hp ht hvt hva hvb
  have hx : Executes s (.vdiv p t vt va vb) :=
    executes_of_inRange hp (arithmeticType_eq_none ht) (by simp [vectorFields, hvt, hva, hvb]) rfl rfl rfl
  exact ⟨writesVector_of_executes hx hvt rfl fun _ => rfl, rfl⟩

/-- Settles O9: as VDIV, the scalar being the divisor. -/
theorem vdivsDividesByScalar : Obligations.VdivsDividesByScalar := by
  intro s p t vt va rb hp ht hvt hva
  have hx : Executes s (.vdivs p t vt va rb) :=
    executes_of_inRange hp (arithmeticType_eq_none ht) (by simp [vectorFields, hvt, hva]) rfl rfl rfl
  exact ⟨writesVector_of_executes hx hvt rfl fun _ => rfl, rfl⟩

/-! ## Multiply and accumulate -/

/-- Settles O10: with decoded signs VMAC passes its own check and writes what it computes; without them that check is the one of the
static checks that refuses. -/
theorem vmacMultipliesAndAccumulates : Obligations.VmacMultipliesAndAccumulates := by
  intro s p sn t vt va vb vc hp ht hvt hva hvb hvc
  have hv : ∀ r ∈ vectorFields (.vmac p sn t vt va vb vc), r.toNat < 8 := by simp [vectorFields, hvt, hva, hvb, hvc]
  refine ⟨?decoded, ?undecoded, rfl⟩
  case decoded =>
    intro g hg
    have hown : ownCheck s.env.snDecode.isSome (.vmac p sn t vt va vb vc) = none := by
      obtain ⟨hsn, _⟩ | ⟨_, table, htable, _⟩ := hg
      · simp [ownCheck, hsn]
      · simp [ownCheck, htable]
    refine writesVector_of_executes (executes_of_inRange hp (arithmeticType_eq_none ht) hv rfl rfl hown) hvt rfl fun x => ?_
    rw [signsOf_eq hg, macOp_eq]
  case undecoded =>
    intro hsn hnone
    refine exec_of_staticCheck_eq_some ?_
    rw [staticCheck_eq_ownCheck (i := .vmac p sn t vt va vb vc) _ hp (arithmeticType_eq_none ht) hv rfl rfl]
    simp [ownCheck, hsn, hnone]

/-! ## Reciprocal -/

/-- A choice between lists keeps an implication between memberships that each of them has. -/
theorem mem_ite_of_mem_ite {α : Type} {i j : α} {c : Prop} [Decidable c] {a b : List α} (ha : i ∈ a → j ∈ a) (hb : i ∈ b → j ∈ b) :
    i ∈ (if c then a else b) → j ∈ (if c then a else b) := by split <;> assumption

/-- Wherever VREC is a candidate, so is VBITS2V with the same fields: one function value of opcode 56h names both (R91, R101). -/
theorem vbits2v_mem_candidates {n : Nat} {w : BitVec 48} {p : Pred} {vt va : BitVec 6} :
    .vrec p vt va ∈ candidates n w → .vbits2v p vt va ∈ candidates n w := by
  unfold candidates
  refine mem_ite_of_mem_ite ?_ <| mem_ite_of_mem_ite ?_ <| mem_ite_of_mem_ite ?opcode56 ?_
  case opcode56 =>
    rw [List.mem_append, List.mem_append]
    refine Or.imp (mem_ite_of_mem_ite ?short nofun) (mem_ite_of_mem_ite ?long nofun)
    case short => simp only [short56]; split_ifs <;> simp [Member56.build]
    case long => simp only [long56]; split_ifs <;> simp [Member56.build]
  all_goals
    simp only [whenPresent, rowsCmp, rows52, rows57, rows5A, rows5C, rows5E, rowsLS2, rowsLS3]
    repeat' refine mem_ite_of_mem_ite ?_ ?_
    all_goals simp

/-- Rule R100's choice finds only an instruction that is the one candidate. -/
theorem candidates_of_decodeByTable {n : Nat} {w : BitVec 48} {i : Instr} (h : decodeByTable n w = .instr i) :
    candidates n w = [i] := by
  unfold decodeByTable rejectAfterPred at h
  split at h
  · cases h
  · next j hj => cases h; exact hj
  · cases h

/-- No bytes decode to VREC under the unique-candidate rule: VBITS2V is always a candidate beside it (R101). -/
theorem decode_none_ne_vrec (bs : List Byte) (p : Pred) (vt va : BitVec 6) : decode none bs ≠ .instr (.vrec p vt va) := by
  intro h
  have hc : candidates bs.length (wordOf bs) = [.vrec p vt va] := candidates_of_decodeByTable h
  have hmem : Instr.vbits2v p vt va ∈ candidates bs.length (wordOf bs) := vbits2v_mem_candidates (by simp [hc])
  simp [hc] at hmem

/-- Settles O11: the shared write of the active elements, and VBITS2V as the second candidate of every word that matches VREC. -/
theorem vrecWritesReciprocals : Obligations.VrecWritesReciprocals := by
  intro s p vt va hp hvt hva
  have hx : Executes s (.vrec p vt va) := executes_of_inRange hp rfl (by simp [vectorFields, hvt, hva]) rfl rfl rfl
  exact ⟨writesVector_of_executes hx hvt rfl fun _ => rfl, rfl, fun bs => decode_none_ne_vrec bs p vt va⟩

end Sys2Proof.Arithmetic
end

section
/-! PROOFS. The statements about the logical instructions (42_logical.md): what each writes (R170 to R175), its frame, and its bytes. -/

namespace Sys2Proof.Logical

open Sys2Proof.Machine Sys2Proof.Spec Sys2Proof.Arithmetic

/-- Of the checks that differ from instruction to instruction, only that of the type field can refuse a logical one (R88, R134). -/
theorem checks_of_logicalTypeOf {i : Instr} {t : BitVec 3} (h : logicalTypeOf i = some t) (snSupplied : Bool) :
    typeCheck i = logicalType t ∧ targetPredicate i = none ∧ pnCheck i = none ∧ ownCheck snSupplied i = none := by
  cases i
  case vand | vands | vor | vors | veor | veors => cases h; exact ⟨rfl, rfl, rfl, rfl⟩
  all_goals cases h

/-- Type 0 is the one that a logical instruction may have (R88). -/
theorem logicalType_eq_none {t : BitVec 3} (ht : t = 0#3) : logicalType t = none := if_pos ht

/-- A logical instruction of type 0 executes where its predicate byte does and its vector registers exist (R120, R134). -/
theorem executes_of_logicalTypeOf {s : State} {i : Instr} {t : BitVec 3} (hi : logicalTypeOf i = some t) (ht : t = 0#3)
    (hp : PredRuns i.pred) (hv : ∀ r ∈ vectorFields i, r.toNat < 8) : Executes s i := by
  obtain ⟨htype, htarget, hpn, hown⟩ := checks_of_logicalTypeOf hi s.env.snDecode.isSome
  exact executes_of_inRange hp (htype.trans (logicalType_eq_none ht)) hv (by rw [htarget]; rfl) hpn hown

/-! ## Bitwise and -/

/-- Settles O12: the shared write of the active elements, with the bitwise and of two elements. -/
theorem vandAndsElements : Obligations.VandAndsElements := by
  intro s p t vt va vb hp ht hvt hva hvb
  have hx : Executes s (.vand p t vt va vb) := executes_of_logicalTypeOf rfl ht hp (by simp [vectorFields, hvt, hva, hvb])
  exact ⟨writesVector_of_executes hx hvt rfl fun _ => rfl, rfl⟩

/-- Settles O13: as VAND, the scalar being the second operand of every element. -/
theorem vandsAndsScalar : Obligations.VandsAndsScalar := by
  intro s p t vt va rb hp ht hvt hva
  have hx : Executes s (.vands p t vt va rb) := executes_of_logicalTypeOf rfl ht hp (by simp [vectorFields, hvt, hva])
  exact ⟨writesVector_of_executes hx hvt rfl fun _ => rfl, rfl⟩

/-! ## Bitwise or -/

/-- Settles O14: the shared write of the active elements, with the bitwise or of two elements. -/
theorem vorOrsElements : Obligations.VorOrsElements := by
  intro s p t vt va vb hp ht hvt hva hvb
  have hx : Executes s (.vor p t vt va vb) := executes_of_logicalTypeOf rfl ht hp (by simp [vectorFields, hvt, hva, hvb])
  exact ⟨writesVector_of_executes hx hvt rfl fun _ => rfl, rfl⟩

/-- Settles O15: as VOR, the scalar being the second operand of every element. -/
theorem vorsOrsScalar : Obligations.VorsOrsScalar := by
  intro s p t vt va rb hp ht hvt hva
  have hx : Executes s (.vors p t vt va rb) := executes_of_logicalTypeOf rfl ht hp (by simp [vectorFields, hvt, hva])
  exact ⟨writesVector_of_executes hx hvt rfl fun _ => rfl, rfl⟩

/-! ## Bitwise exclusive or -/

/-- Settles O16: the shared write of the active elements, with the bitwise exclusive or of two elements. -/
theorem veorXorsElements : Obligations.VeorXorsElements := by
  intro s p t vt va vb hp ht hvt hva hvb
  have hx : Executes s (.veor p t vt va vb) := executes_of_logicalTypeOf rfl ht hp (by simp [vectorFields, hvt, hva, hvb])
  exact ⟨writesVector_of_executes hx hvt rfl fun _ => rfl, rfl⟩

/-- Settles O17: as VEOR, the scalar being the second operand of every element. -/
theorem veorsXorsScalar : Obligations.VeorsXorsScalar := by
  intro s p t vt va rb hp ht hvt hva
  have hx : Executes s (.veors p t vt va rb) := executes_of_logicalTypeOf rfl ht hp (by simp [vectorFields, hvt, hva])
  exact ⟨writesVector_of_executes hx hvt rfl fun _ => rfl, rfl⟩

end Sys2Proof.Logical
end

section
/-! PROOFS. The statements about the compare instructions (43_compare.md): which flags each writes (R180 to R182), its frame, and its
bytes. -/

namespace Sys2Proof.Compare

open Sys2Proof.Machine Sys2Proof.Spec Sys2Proof.Arithmetic

/-! ## What an instruction that writes a predicate register does -/

/-- What the flags of the target are after a write of the active elements (R25, R125). The mask is that of the old state, so the
target may be the predicate register the mask is read from. -/
theorem flags_writeFlags_active {s : State} {vpt : BitVec 4} (hvpt : vpt.toNat < 8) (p : Pred) (value : Fin 16 → Flags) (x : Fin 16) :
    (ActiveAt s p x → (s.writeFlags vpt (s.active p) value).flags vpt x = value x) ∧
      (¬ ActiveAt s p x → (s.writeFlags vpt (s.active p) value).flags vpt x = s.flags vpt x) := by
  rw [s.flags_writeFlags_same hvpt, ← active_iff_activeAt]
  exact ⟨fun h => if_pos h, fun h => if_neg h⟩

/-- An instruction that executes and writes `value` to the active elements of a predicate register does that and nothing else. -/
theorem writesPredicate_of_executes {s : State} {i : Instr} {vpt : BitVec 4} {value val : Fin 16 → Flags} (hx : Executes s i)
    (hvpt : vpt.toNat < 8) (hexec : exec i s = writePredicate i vpt value s) (hval : ∀ x, value x = val x) :
    WritesPredicate s i i.ilen vpt val := by
  obtain rfl : value = val := funext hval
  obtain ⟨hcheck, hcond⟩ := hx
  refine ⟨(s.writeFlags vpt (s.active i.pred) value).retire i, ?runs, ?flags, ?others, ?elems, ?gprs, ?mem, ⟨rfl, rfl, rfl⟩, rfl⟩
  case runs => rw [hexec, writePredicate, perform_executes hcheck hcond]
  case flags => exact flags_writeFlags_active hvpt i.pred value
  case others => exact fun q x hq => s.flags_writeFlags_other hq _ _ x
  case elems => exact fun _ _ => rfl
  case gprs => exact fun _ => rfl
  case mem => exact fun _ => rfl

/-! ## The flags of one element -/

/-- The integer flags are equality, and order between the signed and between the unsigned values of the words (R180). -/
theorem compareFlags_eq (t : BitVec 3) (a b : Word) :
    compareFlags t a b = if t = 0#3 then ⟨decide (a = b), decide (a.toInt < b.toInt), decide (a.toNat < b.toNat)⟩
      else ⟨Config.fEq t a b, Config.fLt t a b, Config.fUnord t a b⟩ := by
  rw [compareFlags, beq_eq_decide, BitVec.slt_eq_decide, BitVec.ult_eq_decide]

/-! ## The two compares -/

/-- Settles O18: the shared write of the active flags, with the flags read as order between integers. -/
theorem vcmpComparesElements : Obligations.VcmpComparesElements := by
  intro s p t vpt va vb hp ht hvpt hva hvb
  have hx : Executes s (.vcmp p t vpt va vb) :=
    executes_of_inRange hp (arithmeticType_eq_none ht) (by simp [vectorFields, hva, hvb]) (by simp [targetPredicate, hvpt]) rfl rfl
  exact ⟨writesPredicate_of_executes hx hvpt rfl fun x => compareFlags_eq t _ _, rfl⟩

/-- Settles O19: as VCMP, the scalar being the second operand of every element. -/
theorem vcmpsComparesWithScalar : Obligations.VcmpsComparesWithScalar := by
  intro s p t vpt va rb hp ht hvpt hva
  have hx : Executes s (.vcmps p t vpt va rb) :=
    executes_of_inRange hp (arithmeticType_eq_none ht) (by simp [vectorFields, hva]) (by simp [targetPredicate, hvpt]) rfl rfl
  exact ⟨writesPredicate_of_executes hx hvpt rfl fun x => compareFlags_eq t _ _, rfl⟩

end Sys2Proof.Compare
end

section
/-! PROOFS. The statements about the element moves, the shifts, the bit moves and the conversions (44_move_convert.md): what each writes
(R191 to R198), its frame, and its bytes. -/

namespace Sys2Proof.MoveConvert

open Sys2Proof.Machine Sys2Proof.Spec Sys2Proof.CommonExecution Sys2Proof.Arithmetic

/-! ## When a `Pn` instruction executes -/

/-- A `Pn` instruction has neither a type field nor a target predicate register (R124). -/
theorem checks_of_isPn {i : Instr} (hi : isPn i = true) : typeCheck i = none ∧ targetPredicate i = none := by
  cases i
  case vex | veins | vshlv | vshrv | vbits2v => exact ⟨rfl, rfl⟩
  all_goals cases hi

/-- Under the byte 01h no instruction's `Pn` is open (R124). -/
theorem pnCheck_eq_none_of_alwaysTrue {i : Instr} (hp : AlwaysTrue i.pred) : pnCheck i = none := by
  obtain ⟨hcond, hvpn⟩ := hp
  have hbyte : i.pred.byte = 0x01#8 := by rw [Pred.byte, hcond, hvpn]; rfl
  simp [pnCheck, hbyte]

/-- Of the static checks, a `Pn` instruction under the byte 01h whose vector registers exist can only fail its own (R134). -/
theorem staticCheck_of_isPn {i : Instr} (snSupplied : Bool) (hi : isPn i = true) (hp : AlwaysTrue i.pred)
    (hv : ∀ r ∈ vectorFields i, r.toNat < 8) : staticCheck snSupplied i = ownCheck snSupplied i := by
  obtain ⟨htype, htarget⟩ := checks_of_isPn hi
  exact staticCheck_eq_ownCheck snSupplied (.inl hp) htype hv (by rw [htarget]; rfl) (pnCheck_eq_none_of_alwaysTrue hp)

/-- Such an instruction executes where its own check passes (R120, R134). -/
theorem executes_of_isPn {s : State} {i : Instr} (hi : isPn i = true) (hp : AlwaysTrue i.pred)
    (hv : ∀ r ∈ vectorFields i, r.toNat < 8) (hown : ownCheck s.env.snDecode.isSome i = none) : Executes s i :=
  ⟨(staticCheck_of_isPn _ hi hp hv).trans hown, cond_ne_pf_of_predRuns (.inl hp)⟩

/-- Such an instruction is refused where its own check refuses it (R134). -/
theorem exec_of_isPn_of_ownCheck_eq_some {s : State} {i : Instr} {r : StaticRefusal} (hi : isPn i = true) (hp : AlwaysTrue i.pred)
    (hv : ∀ q ∈ vectorFields i, q.toNat < 8) (hown : ownCheck s.env.snDecode.isSome i = some r) : exec i s = .refused (.static r) :=
  exec_of_staticCheck_eq_some ((staticCheck_of_isPn _ hi hp hv).trans hown)

/-- An instruction that executes has its own effect (R120). -/
theorem exec_of_executes {s : State} {i : Instr} {effect : Result} (hx : Executes s i) (h : exec i s = perform i s effect) :
    exec i s = effect := by
  obtain ⟨hcheck, hcond⟩ := hx
  rw [h, perform_executes hcheck hcond]

/-! ## Effects on one register -/

/-- An instruction whose effect is to write selected elements of a vector register does that and nothing else (R25). -/
theorem writesSelected_of_exec {s : State} {i : Instr} {vt : BitVec 6} {written : Fin 16 → Bool} {value : Fin 16 → Word}
    (hvt : vt.toNat < 8) (hexec : exec i s = .next ((s.writeElems vt written value).retire i)) :
    ∃ t, exec i s = .next t ∧ (∀ x, t.elem vt x = if written x then value x else s.elem vt x) ∧
      SameVBut s t vt ∧ SameX s t ∧ SameP s t ∧ SameMem s t ∧ SameRest s t ∧ t.pc = s.pc + BitVec.ofNat 64 i.ilen := by
  refine ⟨_, hexec, ?elems, ?others, fun _ => rfl, fun _ _ => rfl, fun _ => rfl, ⟨rfl, rfl, rfl⟩, rfl⟩
  case elems => exact s.elem_writeElems_same hvt written value
  case others => exact fun q x hq => s.elem_writeElems_other hq written value x

/-- A general register reads back what was written to it, unless the write is discarded (R32). -/
theorem gpr_setGpr_of_not_hardWired {s : State} {r : BitVec 6} (h : ¬ HardWired s r) (w : Word) : (s.setGpr r w).gpr r = w :=
  (s.gpr_setGpr_cases r r w).trans ((if_neg h).trans (if_pos rfl))

/-- A register that is hard-wired to zero reads as zero whatever was written to it (R32). -/
theorem gpr_setGpr_of_hardWired {s : State} {r : BitVec 6} (h : HardWired s r) (w : Word) : (s.setGpr r w).gpr r = 0#64 :=
  (s.gpr_setGpr_cases r r w).trans (if_pos h)

/-- A write of one general register leaves the others alone (R32). -/
theorem gpr_setGpr_other {s : State} {r q : BitVec 6} (h : q ≠ r) (w : Word) : (s.setGpr r w).gpr q = s.gpr q := by
  rw [State.gpr_setGpr_cases, if_neg h, State.gpr]
  split <;> rfl

/-- An instruction whose effect is to write a general register does that and nothing else (R32). -/
theorem writesGeneral_of_exec {s : State} {i : Instr} {rt : BitVec 6} {w : Word}
    (hexec : exec i s = .next ((s.setGpr rt w).retire i)) :
    ∃ t, exec i s = .next t ∧ (¬ HardWired s rt → t.gpr rt = w) ∧ (HardWired s rt → t.gpr rt = 0#64) ∧
      SameXBut s t rt ∧ SameV s t ∧ SameP s t ∧ SameMem s t ∧ SameRest s t ∧ t.pc = s.pc + BitVec.ofNat 64 i.ilen := by
  refine ⟨_, hexec, fun h => gpr_setGpr_of_not_hardWired h w, fun h => gpr_setGpr_of_hardWired h w, ?others, ?elems, ?flags, ?mem,
    ?rest, ?pc⟩
  case others => exact fun q hq => gpr_setGpr_other hq w
  case elems => exact s.elem_setGpr rt w
  case flags => exact s.flags_setGpr rt w
  case mem => intro a; simp
  case rest => simp [SameRest]
  case pc => simp

/-! ## Element moves -/

/-- Settles O20: the write of a general register where the index names an element, and the effect's own refusal where it names none. -/
theorem vexExtractsElement : Obligations.VexExtractsElement := by
  intro s p rt va ra hp hva
  have hx : Executes s (.vex p rt va ra) := executes_of_isPn rfl hp (by simp [vectorFields, hva]) rfl
  have heffect := exec_of_executes hx rfl
  refine ⟨?inRange, ?outOfRange, rfl⟩
  case inRange =>
    rintro ⟨k, hk⟩ rfl
    exact writesGeneral_of_exec (heffect.trans (dif_pos hk))
  case outOfRange => exact fun h => heffect.trans (dif_neg (by omega))

/-- Settles O21: the write of the one selected element where the index names one, and the effect's own refusal where it names none. -/
theorem veinsInsertsElement : Obligations.VeinsInsertsElement := by
  intro s p vt rb ra hp hvt
  have hx : Executes s (.veins p vt rb ra) := executes_of_isPn rfl hp (by simp [vectorFields, hvt]) rfl
  have heffect := exec_of_executes hx rfl
  refine ⟨?inRange, ?outOfRange, rfl⟩
  case inRange =>
    intro h
    obtain ⟨t, ht, helem, hframe⟩ := writesSelected_of_exec hvt (heffect.trans (if_pos h))
    exact ⟨t, ht, by simpa using helem, hframe⟩
  case outOfRange => exact fun h => heffect.trans (if_neg (by omega))

/-! ## Shifts -/

/-- The lower neighbour of the element above `x` is `x`. -/
theorem sub_one_of_val_eq {x y : Fin 16} (h : y.val = x.val + 1) : y - 1 = x := by
  apply Fin.ext
  rw [Fin.val_sub_one_of_ne_zero (fun h0 => by simp [h0] at h), h, Nat.add_sub_cancel]

/-- The upper neighbour of `x` is the element above it. -/
theorem add_one_of_val_eq {x y : Fin 16} (h : y.val = x.val + 1) : x + 1 = y := by
  rw [← sub_one_of_val_eq h, sub_add_cancel]

/-- Settles O22: with distinct registers VSHLV passes its own check and writes elements 0 to `n`, each case of the statement being one
branch of what it writes; with one register that check is the one of the static checks that refuses. -/
theorem vshlvShiftsUp : Obligations.VshlvShiftsUp := by
  intro s p vt va ra hp hvt hva
  have hv : ∀ r ∈ vectorFields (.vshlv p vt va ra), r.toNat < 8 := by simp [vectorFields, hvt, hva]
  have hx (hne : vt ≠ va) : Executes s (.vshlv p vt va ra) := executes_of_isPn rfl hp hv (if_neg hne)
  have heffect (hne : vt ≠ va) := exec_of_executes (hx hne) rfl
  refine ⟨?inRange, ?outOfRange, ?aliased, rfl⟩
  case inRange =>
    intro hne hn
    obtain ⟨t, ht, helem, hframe⟩ := writesSelected_of_exec hvt ((heffect hne).trans (if_pos hn))
    refine ⟨t, ht, ?zero, ?shifted, ?above, hframe⟩
    case zero => simp [helem]
    case shifted =>
      intro x y hxy hy
      rw [helem, if_pos (decide_eq_true hy), if_neg (by omega), sub_one_of_val_eq hxy]
    case above =>
      intro y hy
      rw [helem, if_neg (by simpa using hy)]
  case outOfRange => exact fun hne hn => (heffect hne).trans (if_neg (by omega))
  case aliased => exact fun he => exec_of_isPn_of_ownCheck_eq_some rfl hp hv (if_pos he)

/-- Settles O23: as VSHLV, with the elements 0 to `n - 1` written. -/
theorem vshrvShiftsDown : Obligations.VshrvShiftsDown := by
  intro s p vt va ra hp hvt hva
  have hv : ∀ r ∈ vectorFields (.vshrv p vt va ra), r.toNat < 8 := by simp [vectorFields, hvt, hva]
  have hx (hne : vt ≠ va) : Executes s (.vshrv p vt va ra) := executes_of_isPn rfl hp hv (if_neg hne)
  have heffect (hne : vt ≠ va) := exec_of_executes (hx hne) rfl
  refine ⟨?inRange, ?outOfRange, ?aliased, rfl⟩
  case inRange =>
    intro hne hpos hn
    obtain ⟨t, ht, helem, hframe⟩ := writesSelected_of_exec hvt ((heffect hne).trans (if_pos ⟨hpos, hn⟩))
    refine ⟨t, ht, ?shifted, ?zero, ?above, hframe⟩
    case shifted =>
      intro x y hxy hy
      rw [helem, if_pos (decide_eq_true (by omega)), if_neg (by omega), add_one_of_val_eq hxy]
    case zero =>
      intro x hlast
      rw [helem, if_pos (decide_eq_true (by omega)), if_pos hlast]
    case above =>
      intro x hxn
      rw [helem, if_neg (by simpa using hxn)]
  case outOfRange => exact fun hne hn => (heffect hne).trans (if_neg (by omega))
  case aliased => exact fun he => exec_of_isPn_of_ownCheck_eq_some rfl hp hv (if_pos he)

/-! ## Bits to a vector -/

/-- One bit of a word as a number is that binary digit of the word's value (R195). -/
theorem bitWord_eq_digit (a : Word) (k : Nat) : bitWord a k = BitVec.ofNat 64 (a.toNat / 2 ^ k % 2) := by
  rw [bitWord, BitVec.getLsbD, Nat.testBit_eq_decide_div_mod_eq]
  obtain h | h := Nat.mod_two_eq_zero_or_one (a.toNat / 2 ^ k) <;> simp [h]

/-- What the rows of opcode 56h contribute to the candidates, the shorter members first (R91, R100). -/
def members56 (n : Nat) (w : BitVec 48) : List Instr :=
  whenPresent n 4 ((short56 w).map fun m => m.build w) ++ whenPresent n 5 ((long56 w).map fun m => m.build w)

/-- A choice between lists is what each of them is where it has a given member. -/
theorem ite_eq_of_mem {α : Type} {i : α} {c : Prop} [Decidable c] {a b l : List α} (ha : i ∈ a → a = l) (hb : i ∈ b → b = l) :
    i ∈ (if c then a else b) → (if c then a else b) = l := by split <;> assumption

/-- Where a member of opcode 56h is a candidate, the candidates are those that opcode's rows contribute: no other row has one (R91). -/
theorem candidates_eq_members56 {n : Nat} {w : BitVec 48} {i : Instr} (hi : ¬ Outside56 i) (h : i ∈ candidates n w) :
    candidates n w = members56 n w := by
  have other {rows : List Instr} (hrows : ∀ j ∈ rows, Outside56 j) : i ∈ rows → rows = members56 n w :=
    fun h => absurd (hrows i h) hi
  revert h
  unfold candidates
  refine ite_eq_of_mem (other ?_) <| ite_eq_of_mem (other ?_) <| ite_eq_of_mem (fun _ => rfl) (other ?_)
  all_goals
    simp only [whenPresent, rowsCmp, rows52, rows57, rows5A, rows5C, rows5E, rowsLS2, rowsLS3]
    repeat' refine forall_mem_ite ?_ ?_
    all_goals simp [Outside56]

/-- Wherever the rows of opcode 56h contribute VBITS2V, they contribute VREC with the same fields (R91, R101). -/
theorem vrec_mem_members56 {n : Nat} {w : BitVec 48} {p : Pred} {vt ra : BitVec 6} :
    .vbits2v p vt ra ∈ members56 n w → .vrec p vt ra ∈ members56 n w := by
  rw [members56, List.mem_append, List.mem_append]
  refine Or.imp (mem_ite_of_mem_ite ?short nofun) (mem_ite_of_mem_ite ?long nofun)
  case short => simp only [short56]; split_ifs <;> simp [Member56.build]
  case long => simp only [long56]; split_ifs <;> simp [Member56.build]

/-- No bytes decode to VBITS2V under the unique-candidate rule: VREC is always a candidate beside it (R101). -/
theorem decode_none_ne_vbits2v (bs : List Byte) (p : Pred) (vt ra : BitVec 6) : decode none bs ≠ .instr (.vbits2v p vt ra) := by
  intro h
  have hc : candidates bs.length (wordOf bs) = [.vbits2v p vt ra] := candidates_of_decodeByTable h
  have hmembers : members56 bs.length (wordOf bs) = [.vbits2v p vt ra] :=
    (candidates_eq_members56 (i := .vbits2v p vt ra) id (by simp [hc])).symm.trans hc
  have hmem : Instr.vrec p vt ra ∈ members56 bs.length (wordOf bs) := vrec_mem_members56 (by simp [hmembers])
  simp [hmembers] at hmem

/-- Settles O24: the shared write of the active elements, with the bit read as a binary digit, and VREC as the second candidate of every
word that matches VBITS2V. -/
theorem vbits2vWritesBits : Obligations.Vbits2vWritesBits := by
  intro s p vt ra hp hvt
  have hx : Executes s (.vbits2v p vt ra) := executes_of_isPn rfl hp (by simp [vectorFields, hvt]) rfl
  exact ⟨writesVector_of_executes hx hvt rfl fun x => bitWord_eq_digit _ _, rfl, fun bs => decode_none_ne_vbits2v bs p vt ra⟩

/-! ## Bits from a vector -/

/-- Where an element is active, its bit of what V2BITS leaves is the element's least significant one (R196). -/
theorem getLsbD_boolBits_of_active {s : State} {p : Pred} {x : Fin 16} (va : BitVec 6) (h : ActiveAt s p x) :
    (boolBits s p va).getLsbD x.val = (s.elem va x).getLsbD 0 := by
  rw [boolBits, getLsbD_packBits _ _ _ le_rfl, dif_pos x.isLt, if_pos ((active_iff_activeAt s p x).mpr h),
    decide_eq_true (by omega), Bool.true_and]

/-- Settles O25: the write of a general register, of which the statement says the bits of the active elements alone. -/
theorem v2bitsCollectsLowBits : Obligations.V2bitsCollectsLowBits := by
  intro s p rt va hp hva
  have hx : Executes s (.v2bits p rt va) := executes_of_inRange hp rfl (by simp [vectorFields, hva]) rfl rfl rfl
  obtain ⟨t, ht, hwritten, hzero, hframe⟩ := writesGeneral_of_exec (exec_of_executes hx rfl)
  refine ⟨⟨t, ht, ?bits, hzero, hframe⟩, rfl⟩
  case bits =>
    intro hrt x hactive
    rw [hwritten hrt, getLsbD_boolBits_of_active va hactive]

/-! ## Conversions -/

/-- Settles O26: the shared write of the active elements; the conversions are the open functions', as the model has them. -/
theorem conversionsConvertElements : Obligations.ConversionsConvertElements := by
  intro s p vt va hp hvt hva
  have hToInt : Executes s (.vflt2int p vt va) := executes_of_inRange hp rfl (by simp [vectorFields, hvt, hva]) rfl rfl rfl
  have hToFlt : Executes s (.vint2flt p vt va) := executes_of_inRange hp rfl (by simp [vectorFields, hvt, hva]) rfl rfl rfl
  exact ⟨⟨writesVector_of_executes hToInt hvt rfl fun _ => rfl, rfl⟩, writesVector_of_executes hToFlt hvt rfl fun _ => rfl, rfl⟩

end Sys2Proof.MoveConvert
end

section
/-! PROOFS. The statements about the vector loads and stores (45_load_store.md): the common procedure (R210) in the terms of the
statements, what each instruction loads or stores (R211 to R216), the refusals (R55, R66), the exceptions (R231) and what they leave
behind (R218), and a load after a store (R61). -/

namespace Sys2Proof.LoadStore

open Sys2Proof.Machine Sys2Proof.Spec Sys2Proof.CommonExecution Sys2Proof.Arithmetic

/-! ## The common procedure that each load and store runs -/

/-- The offsets with unit stride, the multiple of 8 taken before it becomes a word (R58). -/
theorem unitOffset_eq (base : Word) : unitOffset base = fun x => base + BitVec.ofNat 64 (8 * x.val) := by
  funext x
  rw [unitOffset, BitVec.ofNat_mul]

/-- Each load runs the common procedure on its own access (R211 to R213). -/
theorem exec_eq_vecLoad {s : State} {i : Instr} {seg : BitVec 3} {r : BitVec 6} {off : Fin 16 → Word}
    (hi : accessOf s i = some (.load, seg, r, off)) : exec i s = vecLoad i seg r off s := by
  cases i
  case lv p seg vt ra => cases hi; rw [← unitOffset_eq]; rfl
  case lvws | lvx => cases hi; rfl
  all_goals cases hi

/-- Each store runs the common procedure on its own access (R214 to R216). -/
theorem exec_eq_vecStore {s : State} {i : Instr} {seg : BitVec 3} {r : BitVec 6} {off : Fin 16 → Word}
    (hi : accessOf s i = some (.store, seg, r, off)) : exec i s = vecStore i seg r off s := by
  cases i
  case sv p seg vs ra => cases hi; rw [← unitOffset_eq]; rfl
  case svws | svx => cases hi; rfl
  all_goals cases hi

/-! ## The accesses in the terms of the statements -/

section Accesses

variable {s : State} {p : Pred} {kind : AccessKind} {seg : BitVec 3} {off : Fin 16 → Word} {x : Fin 16}

/-- The access of element `x` is performed exactly where `x` is active (R210). -/
theorem accessAt_mem_iff : accessAt s seg off x ∈ accesses s p seg off ↔ ActiveAt s p x := by
  rw [mem_accesses, ← active_iff_activeAt]
  exact and_iff_left rfl

/-- What every access of an instruction is, the access of every active element is. -/
theorem forall_access_iff {P : Access → Prop} :
    (∀ c ∈ accesses s p seg off, P c) ↔ ∀ x, ActiveAt s p x → P (accessAt s seg off x) := by
  refine ⟨fun h x hx => h _ (accessAt_mem_iff.mpr hx), fun h c hc => ?_⟩
  obtain ⟨hactive, hc⟩ := mem_accesses.mp hc
  rw [hc]
  exact h _ ((active_iff_activeAt _ _ _).mp hactive)

/-- An access is misaligned where its offset has an address that is not a multiple of 8 (R55). -/
theorem misaligned_accessAt :
    (accessAt s seg off x).misaligned = true ↔ ∃ a, s.env.segMap seg (off x) = some a ∧ a.toNat % 8 ≠ 0 := by
  simp only [Access.misaligned, accessAt]
  cases s.env.segMap seg (off x) <;> simp

/-- Eight bytes meet the program text where one of them is program text (R53, R66). -/
theorem meetsText_eq_true_iff {e : Env} {a : Word} : e.meetsText a.toNat = true ↔ ∃ b, Within a b ∧ e.inText b = true := by
  simp only [Env.meetsText, List.any_eq_true, List.mem_range]
  constructor
  · rintro ⟨k, hk, ht⟩
    exact ⟨a.toNat + k, ⟨by omega, by omega⟩, ht⟩
  · rintro ⟨b, ⟨hlo, hhi⟩, ht⟩
    exact ⟨b - a.toNat, by omega, by rwa [Nat.add_sub_cancel' hlo]⟩

/-- An access meets the program text where its offset has an address one of whose eight bytes is program text (R66). -/
theorem meetsText_accessAt : (accessAt s seg off x).meetsText s.env = true ↔
    ∃ a, s.env.segMap seg (off x) = some a ∧ ∃ b, Within a b ∧ s.env.inText b = true := by
  simp only [Access.meetsText, accessAt]
  cases s.env.segMap seg (off x) <;> simp [meetsText_eq_true_iff]

/-- An access does not fault exactly where its offset has an address at which the environment reports nothing (R231). -/
theorem cause_accessAt_eq_none :
    (accessAt s seg off x).cause s.env kind = none ↔ ∃ a, s.env.segMap seg (off x) = some a ∧ s.env.memFault kind a = none := by
  simp only [Access.cause, accessAt]
  cases s.env.segMap seg (off x) <;> simp

/-- An active element raises an exception exactly where its access has that cause and records that address (R231). -/
theorem raises_iff {c : Cause} {a : Word} : Raises s p kind seg off x c a ↔
    ActiveAt s p x ∧ (accessAt s seg off x).cause s.env kind = some c ∧ (accessAt s seg off x).recorded = a := by
  refine and_congr_right fun _ => ?_
  simp only [Access.cause, Access.recorded, accessAt]
  cases s.env.segMap seg (off x) with
  | none => simp [eq_comm]
  | some d =>
    simp only [Option.getD_some, Option.map_eq_some_iff, Option.some.injEq, reduceCtorEq, false_and, false_or]
    constructor
    · rintro ⟨rfl, ⟨hf, rfl⟩ | ⟨hf, rfl⟩ | ⟨hf, rfl⟩⟩ <;> exact ⟨⟨_, hf, rfl⟩, rfl⟩
    · rintro ⟨⟨f, hf, rfl⟩, rfl⟩
      cases f <;> simp [hf, BusFault.cause]

end Accesses

/-! ## What the common procedure answers where it executes -/

section Procedure

variable {s t : State} {i : Instr} {kind : AccessKind} {seg : BitVec 3} {r : BitVec 6} {off : Fin 16 → Word}

/-- A load or store with a misaligned active element is refused, whatever else would happen (R55, R210). -/
theorem exec_of_misaligned (hx : Executes s i) (hi : accessOf s i = some (kind, seg, r, off))
    (h : (accesses s i.pred seg off).any Access.misaligned = true) : exec i s = .refused .misalignedAccess := by
  obtain ⟨hcheck, hcond⟩ := hx
  cases kind with
  | load => rw [exec_eq_vecLoad hi, vecLoad, perform_executes hcheck hcond, if_pos h]
  | store => rw [exec_eq_vecStore hi, vecStore, perform_executes hcheck hcond, if_pos h]

/-- An aligned store that meets the program text is refused (R66, R210). -/
theorem exec_of_meetsText (hx : Executes s i) (hi : accessOf s i = some (.store, seg, r, off))
    (hal : (accesses s i.pred seg off).any Access.misaligned = false)
    (h : (accesses s i.pred seg off).any (Access.meetsText s.env) = true) : exec i s = .refused .storeToProgramText := by
  obtain ⟨hcheck, hcond⟩ := hx
  rw [exec_eq_vecStore hi, vecStore, perform_executes hcheck hcond, if_neg (by simp [hal]), if_pos h]

/-- A load that is not refused takes the exception of the faulting access that is chosen (R210, R231). -/
theorem exec_of_chosen_load {f : Access × Cause} (hx : Executes s i) (hi : accessOf s i = some (.load, seg, r, off))
    (hal : (accesses s i.pred seg off).any Access.misaligned = false)
    (hf : chooseOne (Config.faultDraw s.count) (faulting s.env .load (accesses s i.pred seg off)) = some f) :
    exec i s = takeException s f.2 f.1.elem f.1.recorded (s.loadElems r (partlyDone s .load (accesses s i.pred seg off))) := by
  obtain ⟨hcheck, hcond⟩ := hx
  rw [exec_eq_vecLoad hi, vecLoad, perform_executes hcheck hcond]
  simp only [hal, hf, Bool.false_eq_true, if_false]

/-- A load that is not refused and of which no access faults completes where every byte holds a value, and lacks one otherwise
(R52, R210). -/
theorem exec_of_faultless_load (hx : Executes s i) (hi : accessOf s i = some (.load, seg, r, off))
    (hal : (accesses s i.pred seg off).any Access.misaligned = false)
    (hf : faulting s.env .load (accesses s i.pred seg off) = []) :
    exec i s = if (accesses s i.pred seg off).all (fun c => (c.loaded s.mem).isSome) then
        .next ((s.loadElems r (accesses s i.pred seg off)).retire i)
      else .fault .noValue := by
  obtain ⟨hcheck, hcond⟩ := hx
  rw [exec_eq_vecLoad hi, vecLoad, perform_executes hcheck hcond]
  simp only [hal, chooseOne_eq_none.mpr hf, Bool.false_eq_true, if_false]

/-- A store that is not refused takes the exception of the faulting access that is chosen (R210, R231). -/
theorem exec_of_chosen_store {f : Access × Cause} (hx : Executes s i) (hi : accessOf s i = some (.store, seg, r, off))
    (hal : (accesses s i.pred seg off).any Access.misaligned = false)
    (htext : (accesses s i.pred seg off).any (Access.meetsText s.env) = false)
    (hf : chooseOne (Config.faultDraw s.count) (faulting s.env .store (accesses s i.pred seg off)) = some f) :
    exec i s = takeException s f.2 f.1.elem f.1.recorded (s.storeElems r (partlyDone s .store (accesses s i.pred seg off))) := by
  obtain ⟨hcheck, hcond⟩ := hx
  rw [exec_eq_vecStore hi, vecStore, perform_executes hcheck hcond]
  simp only [hal, htext, hf, Bool.false_eq_true, if_false]

/-- A store that is not refused and of which no access faults completes (R210). -/
theorem exec_of_faultless_store (hx : Executes s i) (hi : accessOf s i = some (.store, seg, r, off))
    (hal : (accesses s i.pred seg off).any Access.misaligned = false)
    (htext : (accesses s i.pred seg off).any (Access.meetsText s.env) = false)
    (hf : faulting s.env .store (accesses s i.pred seg off) = []) :
    exec i s = .next ((s.storeElems r (accesses s i.pred seg off)).retire i) := by
  obtain ⟨hcheck, hcond⟩ := hx
  rw [exec_eq_vecStore hi, vecStore, perform_executes hcheck hcond]
  simp only [hal, htext, chooseOne_eq_none.mpr hf, Bool.false_eq_true, if_false]

/-! ## When the procedure refuses nothing and nothing faults -/

/-- No access is misaligned where every address of an active element is a multiple of 8 (R55). -/
theorem any_misaligned_eq_false (h : ∀ x a, ActiveAt s i.pred x → s.env.segMap seg (off x) = some a → a.toNat % 8 = 0) :
    (accesses s i.pred seg off).any Access.misaligned = false := by
  rw [List.any_eq_false, forall_access_iff]
  intro x hx hm
  obtain ⟨a, ha, hne⟩ := misaligned_accessAt.mp hm
  exact hne (h x a hx ha)

/-- No access meets the program text where no byte at an address of an active element is program text (R66). -/
theorem any_meetsText_eq_false
    (h : ∀ x a, ActiveAt s i.pred x → s.env.segMap seg (off x) = some a → ∀ b, Within a b → s.env.inText b = false) :
    (accesses s i.pred seg off).any (Access.meetsText s.env) = false := by
  rw [List.any_eq_false, forall_access_iff]
  intro x hx hm
  obtain ⟨a, ha, b, hb, htext⟩ := meetsText_accessAt.mp hm
  simp [h x a hx ha b hb] at htext

/-- No access faults where the access of no active element does (R210). -/
theorem faulting_eq_nil (h : ∀ x, ActiveAt s i.pred x → (accessAt s seg off x).cause s.env kind = none) :
    faulting s.env kind (accesses s i.pred seg off) = [] := by
  refine List.eq_nil_iff_forall_not_mem.mpr fun ⟨c, k⟩ hm => ?_
  obtain ⟨hc, hk⟩ := mem_faulting.mp hm
  have hnone : c.cause s.env kind = none := forall_access_iff (P := fun c => c.cause s.env kind = none) |>.mpr h c hc
  simp [hnone] at hk

/-- Accesses that all reach memory are aligned and do not fault. -/
theorem faultless_of_reach {addr : Fin 16 → Word} (h : AccessesReach s i.pred kind seg off addr) :
    (accesses s i.pred seg off).any Access.misaligned = false ∧ faulting s.env kind (accesses s i.pred seg off) = [] := by
  refine ⟨any_misaligned_eq_false fun x a hx ha => ?_, faulting_eq_nil fun x hx => ?_⟩
  · obtain ⟨hmap, hal, _⟩ := h x hx
    obtain rfl : addr x = a := Option.some.inj (hmap.symm.trans ha)
    exact hal
  · obtain ⟨hmap, _, hfault⟩ := h x hx
    exact cause_accessAt_eq_none.mpr ⟨addr x, hmap, hfault⟩

end Procedure

/-! ## What is loaded -/

section Loading

variable {s : State} {seg : BitVec 3} {r : BitVec 6} {off : Fin 16 → Word} {x : Fin 16}

/-- The datum an access loads is a word whose bytes are those at its address, lowest first (R51, R52). -/
theorem loaded_accessAt {a w : Word} (ha : s.env.segMap seg (off x) = some a) (h : (accessAt s seg off x).loaded s.mem = some w) {k : Nat}
    (hk : k < 8) : s.mem.read (a.toNat + k) = some (w.extractLsb' (8 * k) 8) := by
  simp only [Access.loaded, accessAt, ha, Option.bind_some] at h
  exact Memory.readWord_byte h hk

/-- An access has a datum to load exactly where each byte at its address holds a value (R52). -/
theorem loaded_isSome_iff {a : Word} (ha : s.env.segMap seg (off x) = some a) :
    ((accessAt s seg off x).loaded s.mem).isSome = true ↔ ∀ k, k < 8 → (s.mem.read (a.toNat + k)).isSome = true := by
  simp only [Access.loaded, accessAt, ha, Option.bind_some]
  exact Memory.readWord_isSome _ _

/-- After some accesses of one instruction are performed, an element is what its own access loads where that is among them and its bytes
hold values, and what it was otherwise (R210). -/
theorem elem_loadElems_cases (hr : r.toNat < 8) {cs : List Access} (hcs : ∀ c ∈ cs, c = accessAt s seg off c.elem) (x : Fin 16) :
    (accessAt s seg off x ∈ cs ∧ (s.loadElems r cs).elem r x = ((accessAt s seg off x).loaded s.mem).getD (s.elem r x)) ∨
    (accessAt s seg off x ∉ cs ∧ (s.loadElems r cs).elem r x = s.elem r x) := by
  rw [s.elem_loadElems_same hr]
  obtain ⟨hm, hfind⟩ | ⟨hm, hfind⟩ := find_access hcs x
  · exact .inl ⟨hm, by rw [hfind]⟩
  · exact .inr ⟨hm, by rw [hfind]⟩

end Loading

/-- A load whose accesses reach memory and whose bytes hold values loads every active element and does nothing else (R210). -/
theorem loadsVector_of_reach {s : State} {i : Instr} {seg : BitVec 3} {r : BitVec 6} {off addr : Fin 16 → Word} (hx : Executes s i)
    (hr : r.toNat < 8) (hi : accessOf s i = some (.load, seg, r, off)) (hreach : AccessesReach s i.pred .load seg off addr)
    (hval : ∀ x, ActiveAt s i.pred x → ∀ k, k < 8 → (s.mem.read ((addr x).toNat + k)).isSome = true) :
    LoadsVector s i i.ilen r addr := by
  have hloaded (x : Fin 16) (hactive : ActiveAt s i.pred x) : ((accessAt s seg off x).loaded s.mem).isSome = true :=
    (loaded_isSome_iff (hreach x hactive).1).mpr (hval x hactive)
  have hall : (accesses s i.pred seg off).all (fun c => (c.loaded s.mem).isSome) = true := by
    rw [List.all_eq_true, forall_access_iff]
    exact hloaded
  obtain ⟨hal, hfault⟩ := faultless_of_reach hreach
  have hcs : ∀ c ∈ accesses s i.pred seg off, c = accessAt s seg off c.elem := fun c hc => (mem_accesses.mp hc).2
  refine ⟨_, (exec_of_faultless_load hx hi hal hfault).trans (if_pos hall), fun x => ⟨?active, ?inactive⟩, ?others, fun _ _ => rfl,
    fun _ => rfl, fun _ => rfl, ⟨rfl, rfl, rfl⟩, rfl⟩
  case active =>
    intro hactive k hk
    obtain ⟨w, hw⟩ := Option.isSome_iff_exists.mp (hloaded x hactive)
    obtain ⟨_, helem⟩ | ⟨hm, _⟩ := elem_loadElems_cases hr hcs x
    · rw [State.elem_retire, helem, hw, Option.getD_some]
      exact loaded_accessAt (hreach x hactive).1 hw hk
    · exact absurd (accessAt_mem_iff.mpr hactive) hm
  case inactive =>
    intro hinactive
    obtain ⟨hm, _⟩ | ⟨_, helem⟩ := elem_loadElems_cases hr hcs x
    · exact absurd (accessAt_mem_iff.mp hm) hinactive
    · exact helem
  case others => exact fun q x hq => s.elem_loadElems_other hq _ x

/-! ## What is stored -/

section Storing

variable {s : State} {seg : BitVec 3} {r : BitVec 6} {off : Fin 16 → Word} {cs : List Access}

/-- The eight bytes at the address of a performed access hold the element of a performed access with that address (R63, R210). -/
theorem read_storeElems_within (hal : ∀ c ∈ cs, c.misaligned = false) (hcs : ∀ c ∈ cs, c = accessAt s seg off c.elem) {x : Fin 16}
    {a : Word} (hm : accessAt s seg off x ∈ cs) (ha : s.env.segMap seg (off x) = some a) :
    ∃ y, accessAt s seg off y ∈ cs ∧ s.env.segMap seg (off y) = some a ∧
      ∀ b, Within a b → (s.storeElems r cs).mem.read b = some ((s.elem r y).extractLsb' (8 * (b - a.toNat)) 8) := by
  have hstored (b : Nat) (hb : Within a b) := (read_storeElems (s := s) (r := r) hal b).2 _ hm a ha hb.1 hb.2
  obtain ⟨hsurvivor, haddr⟩ := survivor_mem (s := s) hm ha
  have hy := hcs _ hsurvivor
  exact ⟨_, by rwa [← hy], (congrArg Access.addr hy).symm.trans haddr, fun b hb => (hstored b hb).2⟩

/-- A byte that no performed access covers reads as before (R210). -/
theorem read_storeElems_outside (hal : ∀ c ∈ cs, c.misaligned = false) (hcs : ∀ c ∈ cs, c = accessAt s seg off c.elem) {b : Nat}
    (h : ∀ x a, accessAt s seg off x ∈ cs → s.env.segMap seg (off x) = some a → ¬ Within a b) :
    (s.storeElems r cs).mem.read b = s.mem.read b := by
  refine (read_storeElems hal b).1 fun c hc ⟨a, ha, hb⟩ => ?_
  have hcx := hcs c hc
  exact h c.elem a (by rwa [← hcx]) ((congrArg Access.addr hcx).symm.trans ha) hb

end Storing

/-- A store whose accesses reach memory and meet no program text stores every active element and does nothing else (R210). -/
theorem storesVector_of_reach {s : State} {i : Instr} {seg : BitVec 3} {r : BitVec 6} {off addr : Fin 16 → Word} (hx : Executes s i)
    (hi : accessOf s i = some (.store, seg, r, off)) (hreach : AccessesReach s i.pred .store seg off addr)
    (htext : ∀ x, ActiveAt s i.pred x → ∀ b, Within (addr x) b → s.env.inText b = false) :
    StoresVector s i i.ilen r addr := by
  obtain ⟨hal, hfault⟩ := faultless_of_reach hreach
  have haddr {x : Fin 16} {a : Word} (hactive : ActiveAt s i.pred x) (ha : s.env.segMap seg (off x) = some a) : addr x = a :=
    Option.some.inj ((hreach x hactive).1.symm.trans ha)
  have hnotText : (accesses s i.pred seg off).any (Access.meetsText s.env) = false :=
    any_meetsText_eq_false fun x a hactive ha => haddr hactive ha ▸ htext x hactive
  have haligned : ∀ c ∈ accesses s i.pred seg off, c.misaligned = false := by simpa using hal
  have hcs : ∀ c ∈ accesses s i.pred seg off, c = accessAt s seg off c.elem := fun c hc => (mem_accesses.mp hc).2
  refine ⟨_, exec_of_faultless_store hx hi hal hnotText hfault, ?stored, ?others, fun _ _ => rfl, fun _ _ => rfl, fun _ => rfl,
    ⟨rfl, rfl, rfl⟩, rfl⟩
  case stored =>
    intro x hactive
    obtain ⟨y, hm, hy, hread⟩ := read_storeElems_within (r := r) haligned hcs (accessAt_mem_iff.mpr hactive) (hreach x hactive).1
    have hyActive := accessAt_mem_iff.mp hm
    refine ⟨y, hyActive, haddr hyActive hy, fun k hk => ?_⟩
    simpa using hread ((addr x).toNat + k) ⟨by omega, by omega⟩
  case others =>
    intro b hb
    refine read_storeElems_outside haligned hcs fun x a hm ha => ?_
    have hactive := accessAt_mem_iff.mp hm
    exact haddr hactive ha ▸ hb x hactive

/-! ## The six instructions -/

/-- Settles O27: the common procedure of a load, at offsets of unit stride. -/
theorem lvLoadsUnitStride : Obligations.LvLoadsUnitStride := by
  intro s p seg vt ra addr
  refine ⟨fun hp hvt hreach hval => ?_, rfl⟩
  have hx : Executes s (.lv p seg vt ra) := executes_of_inRange hp rfl (by simp [vectorFields, hvt]) rfl rfl rfl
  exact loadsVector_of_reach hx hvt rfl hreach hval

/-- Settles O28: as LV, with a stride from a register. -/
theorem lvwsLoadsWithStride : Obligations.LvwsLoadsWithStride := by
  intro s p seg vt ra rb addr
  refine ⟨fun hp hvt hreach hval => ?_, rfl⟩
  have hx : Executes s (.lvws p seg vt ra rb) := executes_of_inRange hp rfl (by simp [vectorFields, hvt]) rfl rfl rfl
  exact loadsVector_of_reach hx hvt rfl hreach hval

/-- Settles O29: as LV, with the offsets of a vector register. -/
theorem lvxLoadsIndexed : Obligations.LvxLoadsIndexed := by
  intro s p seg vt ra vb addr
  refine ⟨fun hp hvt hvb hreach hval => ?_, rfl⟩
  have hx : Executes s (.lvx p seg vt ra vb) := executes_of_inRange hp rfl (by simp [vectorFields, hvt, hvb]) rfl rfl rfl
  exact loadsVector_of_reach hx hvt rfl hreach hval

/-- Settles O30: the common procedure of a store, at offsets of unit stride. -/
theorem svStoresUnitStride : Obligations.SvStoresUnitStride := by
  intro s p seg vs ra addr
  refine ⟨fun hp hvs hreach htext => ?_, rfl⟩
  have hx : Executes s (.sv p seg vs ra) := executes_of_inRange hp rfl (by simp [vectorFields, hvs]) rfl rfl rfl
  exact storesVector_of_reach hx rfl hreach htext

/-- Settles O31: as SV, with a stride from a register. -/
theorem svwsStoresWithStride : Obligations.SvwsStoresWithStride := by
  intro s p seg vs ra rb addr
  refine ⟨fun hp hvs hreach htext => ?_, rfl⟩
  have hx : Executes s (.svws p seg vs ra rb) := executes_of_inRange hp rfl (by simp [vectorFields, hvs]) rfl rfl rfl
  exact storesVector_of_reach hx rfl hreach htext

/-- Settles O32: as SV, with the offsets of a vector register. -/
theorem svxStoresIndexed : Obligations.SvxStoresIndexed := by
  intro s p seg vs ra vb addr
  refine ⟨fun hp hvs hvb hreach htext => ?_, rfl⟩
  have hx : Executes s (.svx p seg vs ra vb) := executes_of_inRange hp rfl (by simp [vectorFields, hvs, hvb]) rfl rfl rfl
  exact storesVector_of_reach hx rfl hreach htext

/-! ## Refusals -/

/-- Settles O33: the two refusals of the common procedure, in its order. -/
theorem misalignedAccessIsRefused : Obligations.MisalignedAccessIsRefused := by
  intro s i kind seg r off hx hi
  refine ⟨?misaligned, ?text⟩
  case misaligned =>
    intro x a hactive ha hne
    exact exec_of_misaligned hx hi
      (List.any_eq_true.mpr ⟨_, accessAt_mem_iff.mpr hactive, misaligned_accessAt.mpr ⟨a, ha, hne⟩⟩)
  case text =>
    rintro hal rfl x a b hactive ha hb htext
    exact exec_of_meetsText hx hi (any_misaligned_eq_false hal)
      (List.any_eq_true.mpr ⟨_, accessAt_mem_iff.mpr hactive, meetsText_accessAt.mpr ⟨a, ha, b, hb, htext⟩⟩)

/-- Settles O37: no access faults, so the procedure comes to look for values, and one is missing. -/
theorem loadOfValuelessByteFaults : Obligations.LoadOfValuelessByteFaults := by
  intro s i seg r off addr hx hi hreach x b hactive hb hnone
  obtain ⟨hal, hfault⟩ := faultless_of_reach hreach
  refine (exec_of_faultless_load hx hi hal hfault).trans (if_neg fun hall => ?_)
  rw [List.all_eq_true, forall_access_iff] at hall
  have hread := (loaded_isSome_iff (hreach x hactive).1).mp (hall x hactive) (b - (addr x).toNat) (by have := hb.2; omega)
  rw [Nat.add_sub_cancel' hb.1, hnone] at hread
  cases hread

/-! ## Exceptions -/

/-- Settles O34: the exception is that of a chosen member of the set of faulting accesses, which is not empty. -/
theorem elementFaultIsTaken : Obligations.ElementFaultIsTaken := by
  intro s i kind seg r off hx hi hclear ⟨x, c, a, hraises⟩
  obtain ⟨hactive, hcause, _⟩ := raises_iff.mp hraises
  have hal : (accesses s i.pred seg off).any Access.misaligned = false :=
    any_misaligned_eq_false fun x a hx ha => (hclear x a hx ha).1
  obtain ⟨f, hf⟩ : ∃ f, chooseOne (Config.faultDraw s.count) (faulting s.env kind (accesses s i.pred seg off)) = some f := by
    refine Option.ne_none_iff_exists'.mp fun hnone => ?_
    have hm := mem_faulting.mpr ⟨accessAt_mem_iff.mpr hactive, hcause⟩
    simp [chooseOne_eq_none.mp hnone] at hm
  obtain ⟨hchosen, hfcause⟩ := mem_faulting.mp (show (f.1, f.2) ∈ _ from chooseOne_mem hf)
  obtain ⟨hfactive, hfaccess⟩ := mem_accesses.mp hchosen
  have hfraises : Raises s i.pred kind seg off f.1.elem f.2 f.1.recorded :=
    raises_iff.mpr ⟨(active_iff_activeAt _ _ _).mp hfactive, hfaccess ▸ hfcause, by rw [← hfaccess]⟩
  cases kind with
  | load =>
    exact ⟨_, _, _, _, hfraises, exec_of_chosen_load hx hi hal hf, rfl, fun _ _ => rfl, fun _ => rfl, rfl, rfl, rfl⟩
  | store =>
    have htext := any_meetsText_eq_false fun x a hx ha => (hclear x a hx ha).2 rfl
    exact ⟨_, _, _, _, hfraises, exec_of_chosen_store hx hi hal htext hf, rfl, fun _ _ => rfl, fun _ => rfl, rfl, rfl, rfl⟩

/-! ## Partial completion -/

/-- The accesses that may have been performed before an exception are those of active elements that do not fault (R218). -/
theorem accessAt_of_mem_partlyDone {s : State} {p : Pred} {kind : AccessKind} {seg : BitVec 3} {off : Fin 16 → Word} {x : Fin 16}
    (h : accessAt s seg off x ∈ partlyDone s kind (accesses s p seg off)) :
    ActiveAt s p x ∧ (accessAt s seg off x).cause s.env kind = none := by
  obtain ⟨hm, hcause⟩ := mem_partlyDone h
  exact ⟨accessAt_mem_iff.mp hm, hcause⟩

/-- Settles O35: an element is old unless its access is among those performed, and the performed ones do not fault. -/
theorem faultedLoadLeavesOldOrLoaded : Obligations.FaultedLoadLeavesOldOrLoaded := by
  intro s i seg r off c pc e a after hr hi hexec
  rw [exec_eq_vecLoad hi] at hexec
  obtain ⟨_, _, _, ⟨d, k, hd, hk, heq⟩ | ⟨_, _, heq⟩⟩ := vecLoad_fault hexec
  case inr => cases heq
  cases heq
  have hcs : ∀ c ∈ partlyDone s .load (accesses s i.pred seg off), c = accessAt s seg off c.elem :=
    fun c hc => (mem_accesses.mp (mem_partlyDone hc).1).2
  have hold (x : Fin 16) (h : ¬ (ActiveAt s i.pred x ∧ (accessAt s seg off x).cause s.env .load = none)) :
      (s.loadElems r (partlyDone s .load (accesses s i.pred seg off))).elem r x = s.elem r x := by
    obtain ⟨hm, _⟩ | ⟨_, helem⟩ := elem_loadElems_cases hr hcs x
    · exact absurd (accessAt_of_mem_partlyDone hm) h
    · exact helem
  refine ⟨fun q x hq => s.elem_loadElems_other hq _ x, fun _ => rfl, ?reported, fun x hx => hold x fun h => hx h.1, ?faulting, ?done⟩
  case reported =>
    refine hold _ fun h => ?_
    rw [← (mem_accesses.mp hd).2, hk] at h
    cases h.2
  case faulting =>
    intro x c' a' hraises
    refine hold _ fun h => ?_
    rw [(raises_iff.mp hraises).2.1] at h
    cases h.2
  case done =>
    intro x d _ hd _
    obtain ⟨_, helem⟩ | ⟨_, helem⟩ := elem_loadElems_cases hr hcs x
    · rw [helem]
      cases hw : (accessAt s seg off x).loaded s.mem with
      | none => exact .inl rfl
      | some w => exact .inr fun k hk => loaded_accessAt hd hw hk
    · exact .inl helem

/-- Settles O36: a byte is old unless a performed access covers it, and then it is that of a performed access with its address. -/
theorem faultedStoreLeavesOldOrStored : Obligations.FaultedStoreLeavesOldOrStored := by
  intro s i seg r off c pc e a after hi hexec
  rw [exec_eq_vecStore hi] at hexec
  obtain ⟨_, _, hal, _, d, k, hd, hk, heq⟩ := vecStore_fault hexec
  cases heq
  refine ⟨fun _ _ => rfl, fun b => ?_⟩
  have hcs : ∀ c ∈ partlyDone s .store (accesses s i.pred seg off), c = accessAt s seg off c.elem :=
    fun c hc => (mem_accesses.mp (mem_partlyDone hc).1).2
  have haligned : ∀ c ∈ partlyDone s .store (accesses s i.pred seg off), c.misaligned = false :=
    fun c hc => hal c (mem_partlyDone hc).1
  by_cases hcovered : ∃ x a, accessAt s seg off x ∈ partlyDone s .store (accesses s i.pred seg off) ∧
      s.env.segMap seg (off x) = some a ∧ Within a b
  · obtain ⟨x, a, hm, ha, hb⟩ := hcovered
    obtain ⟨y, hy, hya, hread⟩ := read_storeElems_within (r := r) haligned hcs hm ha
    obtain ⟨hactive, hcause⟩ := accessAt_of_mem_partlyDone hy
    obtain ⟨a', ha', hfault⟩ := cause_accessAt_eq_none.mp hcause
    obtain rfl : a = a' := Option.some.inj (hya.symm.trans ha')
    exact .inr ⟨y, a, hactive, hya, hfault, hb, hread b hb⟩
  · exact .inl (read_storeElems_outside haligned hcs fun x a hm ha hb => hcovered ⟨x, a, hm, ha, hb⟩)

/-! ## A load after a store -/

/-- An instruction that completes under a condition other than the always-false one has executed (R120). -/
theorem executes_of_next {s t : State} {i : Instr} (h : exec i s = .next t) (hc : i.pred.cond ≠ .pf) : Executes s i := by
  refine ⟨?_, hc⟩
  cases hcheck : staticCheck s.env.snDecode.isSome i with
  | none => rfl
  | some r =>
    rw [exec_of_staticCheck_eq_some hcheck] at h
    cases h

/-- A store that executes and completes was aligned and has performed every access (R210). -/
theorem stored_of_next {s t : State} {i : Instr} {seg : BitVec 3} {r : BitVec 6} {off : Fin 16 → Word} (hx : Executes s i)
    (hi : accessOf s i = some (.store, seg, r, off)) (h : exec i s = .next t) :
    (∀ c ∈ accesses s i.pred seg off, c.misaligned = false) ∧ t = (s.storeElems r (accesses s i.pred seg off)).retire i := by
  cases hal : (accesses s i.pred seg off).any Access.misaligned with
  | true => rw [exec_of_misaligned hx hi hal] at h; cases h
  | false =>
    cases htext : (accesses s i.pred seg off).any (Access.meetsText s.env) with
    | true => rw [exec_of_meetsText hx hi hal htext] at h; cases h
    | false =>
      cases hf : chooseOne (Config.faultDraw s.count) (faulting s.env .store (accesses s i.pred seg off)) with
      | some f => rw [exec_of_chosen_store hx hi hal htext hf] at h; cases h
      | none =>
        rw [exec_of_faultless_store hx hi hal htext (chooseOne_eq_none.mp hf)] at h
        cases h
        exact ⟨by simpa using hal, rfl⟩

/-- A load that executes and completes found a value in every byte and has performed every access (R210). -/
theorem loaded_of_next {s t : State} {i : Instr} {seg : BitVec 3} {r : BitVec 6} {off : Fin 16 → Word} (hx : Executes s i)
    (hi : accessOf s i = some (.load, seg, r, off)) (h : exec i s = .next t) :
    (∀ c ∈ accesses s i.pred seg off, (c.loaded s.mem).isSome = true) ∧
      t = (s.loadElems r (accesses s i.pred seg off)).retire i := by
  cases hal : (accesses s i.pred seg off).any Access.misaligned with
  | true => rw [exec_of_misaligned hx hi hal] at h; cases h
  | false =>
    cases hf : chooseOne (Config.faultDraw s.count) (faulting s.env .load (accesses s i.pred seg off)) with
    | some f => rw [exec_of_chosen_load hx hi hal hf] at h; cases h
    | none =>
      rw [exec_of_faultless_load hx hi hal (chooseOne_eq_none.mp hf)] at h
      split at h
      · next hall => cases h; exact ⟨by simpa using hall, rfl⟩
      · cases h

/-- With flat segments every offset is its own address (R57). -/
theorem segMap_of_flat {e : Env} (h : e.segRules = []) (seg : BitVec 3) (off : Word) : e.segMap seg off = some off := by
  simp [Env.segMap, h]

/-- Only PSIG looks at the external signal (R131). -/
theorem holds_of_ne_psig {c : Cond} (hc : c ≠ .psig) (f : Flags) (b b' : Bool) : Holds c f b ↔ Holds c f b' := by
  cases c
  case psig => exact absurd rfl hc
  all_goals exact Iff.rfl

/-- The sixteen offsets of unit stride are distinct (R58). -/
theorem unit_offset_injective {base : Word} {x y : Fin 16}
    (h : base + BitVec.ofNat 64 (8 * y.val) = base + BitVec.ofNat 64 (8 * x.val)) : y = x := by
  have hn := congrArg BitVec.toNat ((BitVec.add_right_inj base).mp h)
  simp only [BitVec.toNat_ofNat] at hn
  omega

/-- A word is determined by its eight bytes (R51). -/
theorem eq_of_bytes {a b : Word} (h : ∀ k, k < 8 → a.extractLsb' (8 * k) 8 = b.extractLsb' (8 * k) 8) : a = b := by
  apply BitVec.eq_of_getLsbD_eq
  intro j hj
  have hbit := congrArg (·.getLsbD (j % 8)) (h (j / 8) (by omega))
  simpa [Nat.mod_lt, Nat.div_add_mod] using hbit

/-- Where no other active element has its address, the bytes there are those of the element stored (R63, R214). -/
theorem read_of_store_next {s t : State} {i : Instr} {seg : BitVec 3} {r : BitVec 6} {off : Fin 16 → Word} {x : Fin 16} {a : Word}
    (hx : Executes s i) (hi : accessOf s i = some (.store, seg, r, off)) (h : exec i s = .next t) (hactive : ActiveAt s i.pred x)
    (ha : s.env.segMap seg (off x) = some a) (hunique : ∀ y, s.env.segMap seg (off y) = some a → y = x) {k : Nat} (hk : k < 8) :
    t.mem.read (a.toNat + k) = some ((s.elem r x).extractLsb' (8 * k) 8) := by
  obtain ⟨hal, rfl⟩ := stored_of_next hx hi h
  obtain ⟨y, _, hy, hread⟩ := read_storeElems_within (r := r) hal (fun c hc => (mem_accesses.mp hc).2) (accessAt_mem_iff.mpr hactive) ha
  obtain rfl := hunique y hy
  simpa using hread (a.toNat + k) ⟨by omega, by omega⟩

/-- An active element takes the word whose bytes stand at its address (R211). -/
theorem elem_of_load_next {s t : State} {i : Instr} {seg : BitVec 3} {r : BitVec 6} {off : Fin 16 → Word} {x : Fin 16} {a w : Word}
    (hx : Executes s i) (hr : r.toNat < 8) (hi : accessOf s i = some (.load, seg, r, off)) (h : exec i s = .next t)
    (hactive : ActiveAt s i.pred x) (ha : s.env.segMap seg (off x) = some a)
    (hw : ∀ k, k < 8 → s.mem.read (a.toNat + k) = some (w.extractLsb' (8 * k) 8)) : t.elem r x = w := by
  obtain ⟨hval, rfl⟩ := loaded_of_next hx hi h
  obtain ⟨v, hv⟩ := Option.isSome_iff_exists.mp (hval _ (accessAt_mem_iff.mpr hactive))
  obtain ⟨_, helem⟩ | ⟨hn, _⟩ := elem_loadElems_cases hr (fun c hc => (mem_accesses.mp hc).2) x
  case inr => exact absurd (accessAt_mem_iff.mpr hactive) hn
  rw [State.elem_retire, helem, hv, Option.getD_some]
  exact eq_of_bytes fun k hk => Option.some.inj ((loaded_accessAt ha hv hk).symm.trans (hw k hk))

/-- Settles O38: the store leaves at each address the bytes of the element stored there, no other element having that address, and the
load reads these bytes back. -/
theorem storeThenLoadGivesBack : Obligations.StoreThenLoadGivesBack := by
  intro s t u p seg vs vt ra hflat hpsig hvt hsv hlv x hactive
  have hcond : p.cond ≠ .pf := fun hc => by simp [ActiveAt, hc, Holds] at hactive
  have hseg := segMap_of_flat hflat seg
  have hstored {k : Nat} (hk : k < 8) := read_of_store_next (executes_of_next hsv hcond) rfl hsv hactive (hseg _)
    (fun y hy => unit_offset_injective (Option.some.inj ((hseg _).symm.trans hy))) hk
  obtain ⟨_, rfl⟩ := stored_of_next (executes_of_next hsv hcond) rfl hsv
  exact elem_of_load_next (executes_of_next hlv hcond) hvt rfl hlv ⟨hactive.1, (holds_of_ne_psig hpsig _ _ _).mp hactive.2⟩ (hseg _)
    fun k hk => hstored hk

end Sys2Proof.LoadStore
end

section
/-! PROOFS. The statements about the whole machine: what an instruction that completes has done (10_state.md), which instructions fault
(60_exceptions.md), the environment's actions (R27), the end of a run (R262), and what holds along every run. -/

namespace Sys2Proof.WholeMachine

open Sys2Proof.Machine Sys2Proof.Spec Sys2Proof.CommonExecution Sys2Proof.Arithmetic Sys2Proof.MoveConvert Sys2Proof.LoadStore
open Sys2Proof.Laws.EncodeLength

/-! ## What an instruction that completes has done -/

/-- The kinds of state that instructions write. -/
inductive Written where
  | activeElements | chosenElements | flags | general | loaded | stored

/-- What each instruction writes: the elements that are active or that its operands choose, flags, a general register, elements from
memory, or memory (40_common_execution.md to 45_load_store.md). -/
def written : Instr → Written
  | .vcmp .. | .vcmps .. => .flags
  | .vex .. | .v2bits .. => .general
  | .veins .. | .vshlv .. | .vshrv .. => .chosenElements
  | .lv .. | .lvws .. | .lvx .. => .loaded
  | .sv .. | .svws .. | .svx .. => .stored
  | _ => .activeElements

/-- `Done s i u`: with the program counter and the count left aside, `i` may make `u` of `s` (R120). -/
inductive Done (s : State) (i : Instr) : State → Prop where
  | nothing : Done s i s
  | activeElements (r : BitVec 6) (f : Fin 16 → Word) (hi : written i = .activeElements) : Done s i (s.writeElems r (s.active i.pred) f)
  | chosenElements (r : BitVec 6) (w : Fin 16 → Bool) (f : Fin 16 → Word) (hi : written i = .chosenElements) :
      Done s i (s.writeElems r w f)
  | flags (r : BitVec 4) (f : Fin 16 → Flags) (hi : written i = .flags) : Done s i (s.writeFlags r (s.active i.pred) f)
  | general (r : BitVec 6) (w : Word) (hi : written i = .general) : Done s i (s.setGpr r w)
  | loaded (seg : BitVec 3) (r : BitVec 6) (off : Fin 16 → Word) (hi : written i = .loaded) :
      Done s i (s.loadElems r (accesses s i.pred seg off))
  | stored (seg : BitVec 3) (r : BitVec 6) (off : Fin 16 → Word) (hi : written i = .stored)
      (hal : ∀ c ∈ accesses s i.pred seg off, c.misaligned = false)
      (htext : ∀ c ∈ accesses s i.pred seg off, c.meetsText s.env = false) : Done s i (s.storeElems r (accesses s i.pred seg off))

/-- An instruction that completes has done what its kind allows, and then has moved the program counter on (R120, R129). -/
theorem done_of_next {s t : State} {i : Instr} (h : exec i s = .next t) : ∃ u, Done s i u ∧ t = u.retire i := by
  cases i
  case vcmp | vcmps =>
    obtain rfl | rfl := writePredicate_next h
    · exact ⟨_, .nothing, rfl⟩
    · exact ⟨_, .flags _ _ rfl, rfl⟩
  case vex =>
    obtain rfl | h := perform_next h
    · exact ⟨_, .nothing, rfl⟩
    · split at h
      · cases h; exact ⟨_, .general _ _ rfl, rfl⟩
      · cases h
  case v2bits =>
    obtain rfl | h := perform_next h
    · exact ⟨_, .nothing, rfl⟩
    · cases h; exact ⟨_, .general _ _ rfl, rfl⟩
  case veins | vshlv | vshrv =>
    obtain rfl | h := perform_next h
    · exact ⟨_, .nothing, rfl⟩
    · split at h
      · cases h; exact ⟨_, .chosenElements _ _ _ rfl, rfl⟩
      · cases h
  case lv | lvws | lvx =>
    obtain rfl | ⟨_, _, _, rfl⟩ := vecLoad_next h
    · exact ⟨_, .nothing, rfl⟩
    · exact ⟨_, .loaded _ _ _ rfl, rfl⟩
  case sv | svws | svx =>
    obtain rfl | ⟨hal, htext, _, rfl⟩ := vecStore_next h
    · exact ⟨_, .nothing, rfl⟩
    · exact ⟨_, .stored _ _ _ rfl hal htext, rfl⟩
  all_goals
    obtain rfl | rfl := writeVector_next h
    · exact ⟨_, .nothing, rfl⟩
    · exact ⟨_, .activeElements _ _ rfl, rfl⟩

/-- No instruction touches `VL`, the launch record, the schedule, the program counter or the count but by completing (R27, R260). -/
theorem Done.same {s u : State} {i : Instr} (h : Done s i u) : SameRest s u ∧ u.pc = s.pc ∧ u.count = s.count := by
  cases h
  case general => simp [SameRest]
  all_goals exact ⟨⟨rfl, rfl, rfl⟩, rfl, rfl⟩

/-- What every instruction that completes leaves alone, and by how much it moves the program counter and the count (R34, R129). -/
theorem frame_of_next {s t : State} {i : Instr} (h : exec i s = .next t) :
    SameRest s t ∧ t.pc = s.pc + BitVec.ofNat 64 i.ilen ∧ t.count = s.count + 1 := by
  obtain ⟨u, hu, rfl⟩ := done_of_next h
  obtain ⟨hrest, hpc, hcount⟩ := hu.same
  exact ⟨hrest, by rw [State.retire_pc, hpc], by rw [State.retire_count, hcount]⟩

/-! ## What stays as it is -/

/-- An element that is replaced by its own value is unchanged, whichever register is read. -/
theorem elem_setV_of_eq {s : State} {r : BitVec 6} {w : VReg} {x : Fin 16} (h : w[x.val] = s.elem r x) (q : BitVec 6) :
    (s.setV r w).elem q x = s.elem q x := by
  by_cases hq : q = r
  · subst hq
    by_cases hlt : q.toNat < 8
    · rw [s.elem_setV_same hlt, h]
    · simp [State.elem, hlt]
  · exact s.elem_setV_other hq w x

/-- The same for the flags of an element. -/
theorem flags_setP_of_eq {s : State} {r : BitVec 4} {w : PReg} {x : Fin 16} (h : w[x.val] = s.flags r x) (q : BitVec 4) :
    (s.setP r w).flags q x = s.flags q x := by
  by_cases hq : q = r
  · subst hq
    by_cases hlt : q.toNat < 8
    · rw [s.flags_setP_same hlt, h]
    · simp [State.flags, hlt]
  · exact s.flags_setP_other hq w x

/-- A byte of memory changes only where a store is done (R36). -/
theorem Done.sameMem {s u : State} {i : Instr} (h : Done s i u) (hi : written i ≠ .stored) : SameMem s u := by
  cases h
  case stored hi' _ _ => exact absurd hi' hi
  case general => intro a; simp
  all_goals exact fun _ => rfl

/-- A flag changes only where a compare is done (R31). -/
theorem Done.sameP {s u : State} {i : Instr} (h : Done s i u) (hi : written i ≠ .flags) : SameP s u := by
  cases h
  case flags hi' => exact absurd hi' hi
  case general => intro q x; simp
  all_goals exact fun _ _ => rfl

/-- A general register changes only where one is written (R33). -/
theorem Done.sameX {s u : State} {i : Instr} (h : Done s i u) (hi : written i ≠ .general) : SameX s u := by
  cases h
  case general hi' => exact absurd hi' hi
  all_goals exact fun _ => rfl

/-- A vector register changes only where elements are written or loaded (R24). -/
theorem Done.sameV {s u : State} {i : Instr} (h : Done s i u) (hi : written i ∈ [.flags, .general, .stored]) : SameV s u := by
  cases h
  case activeElements hi' | chosenElements hi' | loaded hi' => simp [hi'] at hi
  case general => intro q x; simp
  all_goals exact fun _ _ => rfl

/-- An element that is not active, and its flags, change only where an instruction chooses its elements by operands (R25, R28). -/
theorem Done.same_of_inactive {s u : State} {i : Instr} {x : Fin 16} (h : Done s i u) (hi : written i ≠ .chosenElements)
    (hx : s.active i.pred x = false) : (∀ r, u.elem r x = s.elem r x) ∧ (∀ r, u.flags r x = s.flags r x) := by
  cases h
  case nothing => exact ⟨fun _ => rfl, fun _ => rfl⟩
  case activeElements => exact ⟨elem_setV_of_eq (by simp [hx]), fun _ => rfl⟩
  case chosenElements hi' => exact absurd hi' hi
  case flags => exact ⟨fun _ => rfl, flags_setP_of_eq (by simp [hx])⟩
  case general => simp
  case loaded seg r off hi' =>
    refine ⟨elem_setV_of_eq ?_, fun _ => rfl⟩
    rw [Vector.getElem_ofFn]
    obtain ⟨hm, _⟩ | ⟨_, hfind⟩ := find_access (cs := accesses s i.pred seg off) (fun c hc => (mem_accesses.mp hc).2) x
    · have hactive : s.active i.pred x = true := (mem_accesses.mp hm).1
      simp [hx] at hactive
    · simp [hfind]
  case stored => exact ⟨fun _ => rfl, fun _ => rfl⟩

/-- Settles O48: each clause is what the kinds of instruction it names, or leaves out, can have done. -/
theorem eachKindOfStateHasItsWriters : Obligations.EachKindOfStateHasItsWriters := by
  intro s t i h
  obtain ⟨u, hu, rfl⟩ := done_of_next h
  refine ⟨fun hi => hu.sameP ?flags, fun hi => hu.sameX ?general, fun hi => hu.sameMem ?memory, fun hi => hu.sameV ?vector⟩
  case flags =>
    cases i
    case vcmp => exact absurd rfl (hi _ _ _ _ _).1
    case vcmps => exact absurd rfl (hi _ _ _ _ _).2
    all_goals nofun
  case general =>
    cases i
    case vex => exact absurd rfl (hi _ _ _ _).1
    case v2bits p rt va => exact absurd rfl (hi p rt va 0).2
    all_goals nofun
  case memory =>
    cases i
    case sv p seg vs ra => exact absurd rfl (hi p seg vs ra 0).1
    case svws => exact absurd rfl (hi _ _ _ _ _).2.1
    case svx => exact absurd rfl (hi _ _ _ _ _).2.2
    all_goals nofun
  case vector => obtain ⟨p, t, vpt, rt, vs, va, ra, b, seg, rfl | rfl | rfl | rfl | rfl | rfl | rfl⟩ := hi <;> simp [written]

/-- Settles O49: such an element is not active, and the instructions left out are the ones that choose their elements otherwise. -/
theorem elementsBeyondVlKeepTheirValues : Obligations.ElementsBeyondVlKeepTheirValues := by
  intro s t i x h hx hi
  obtain ⟨u, hu, rfl⟩ := done_of_next h
  refine hu.same_of_inactive ?_ ?_
  · cases i
    case veins => exact absurd rfl (hi _ _ _ _).1
    case vshlv => exact absurd rfl (hi _ _ _ _).2.1
    case vshrv => exact absurd rfl (hi _ _ _ _).2.2
    all_goals nofun
  · simp [State.active, show ¬ x.val < s.vl.val by omega]

/-! ## Along a run -/

/-- What holds of a state and is kept by every step holds of every state the machine comes to. -/
theorem holds_of_reaches {P : State → Prop} (hstep : ∀ t u, P t → step t = .next u → P u) {s t : State} (hs : P s)
    (h : Safety.Reaches s t) : P t := by
  induction h with
  | refl => exact hs
  | step _ hnext ih => exact hstep _ _ ih hnext

/-- What an instruction may have done keeps the canonical form of memory: stores write aligned data only (R55). -/
theorem Done.wf {s u : State} {i : Instr} (h : Done s i u) (hs : s.mem.wf = true) : u.mem.wf = true := by
  cases h
  case general => simpa using hs
  case stored hal _ => exact wf_storeElems hal hs
  all_goals exact hs

/-- Settles O44: an action of the environment leaves memory alone, and an instruction keeps its form. -/
theorem stepsKeepMemoryCanonical : Obligations.StepsKeepMemoryCanonical := by
  intro s t hs hreach
  refine holds_of_reaches (P := Safety.Inv) (fun t u ht hnext => ?_) hs hreach
  obtain ⟨_, ⟨a, _, rfl⟩ | ⟨_, i, _, hexec⟩⟩ := step_next hnext
  · exact ht
  · obtain ⟨v, hv, rfl⟩ := done_of_next hexec
    exact hv.wf ht

/-- What an instruction may have done leaves the program text as it was: a store that would meet it is refused (R66). -/
theorem Done.text {s u : State} {i : Instr} (h : Done s i u) {b : Nat} (hb : s.env.inText b = true) : u.mem.read b = s.mem.read b := by
  cases h
  case general => simp
  case stored seg r off _ hal htext =>
    refine (read_storeElems hal b).1 fun c hc ⟨a, ha, hcovers⟩ => ?_
    have hmeets : c.meetsText s.env = true := by
      rw [Access.meetsText, ha]
      exact meetsText_eq_true_iff.mpr ⟨b, hcovers, hb⟩
    simp [htext c hc] at hmeets
  all_goals rfl

/-- Settles O46: each step leaves the launch record as it is and, with it, what counts as program text and what stands there. -/
theorem stepsKeepProgramText : Obligations.StepsKeepProgramText := by
  intro s t hreach
  refine holds_of_reaches (P := fun t => t.env = s.env ∧ ∀ a, s.env.inText a = true → t.mem.read a = s.mem.read a)
    (fun t u ⟨henv, hmem⟩ hnext => ?_) ⟨rfl, fun _ _ => rfl⟩ hreach
  obtain ⟨_, ⟨a, _, rfl⟩ | ⟨_, i, _, hexec⟩⟩ := step_next hnext
  · exact ⟨henv, hmem⟩
  · obtain ⟨⟨_, henv', _⟩, _, _⟩ := frame_of_next hexec
    obtain ⟨v, hv, rfl⟩ := done_of_next hexec
    exact ⟨henv'.trans henv, fun a ha => (hv.text (henv ▸ ha)).trans (hmem a ha)⟩

/-! ## Faults -/

/-- Only a load or store faults: every other instruction raises nothing (60_exceptions.md section 1). -/
theorem isMemory_of_fault {s : State} {i : Instr} {f : Fault} (h : exec i s = .fault f) : IsMemory i := by
  cases i
  case lv | lvws | lvx | sv | svws | svx => exact fun _ => rfl
  case vcmp | vcmps => exact absurd h (writePredicate_not_fault _ _ _ _ _)
  case vex | veins | vshlv | vshrv =>
    obtain ⟨_, _, h⟩ := perform_fault h
    split at h <;> cases h
  case v2bits => cases (perform_fault h).2.2
  all_goals exact absurd h (writeVector_not_fault _ _ _ _ _)

/-- Settles O42: a step that faults runs an instruction that faults. -/
theorem onlyLoadsAndStoresFault : Obligations.OnlyLoadsAndStoresFault := by
  intro s f h
  obtain ⟨i, hi, hf⟩ := step_fault h
  exact ⟨i, hi, isMemory_of_fault hf⟩

/-- Where no byte is program text, an instruction that is fetched stands in the listing (R260). -/
theorem mem_listing_of_fetch {s : State} {i : Instr} (htext : s.env.text = []) (h : fetch s = .instr i) :
    ∃ l ∈ s.env.listing, l.2 = i := by
  unfold fetch at h
  split at h
  · next l hl =>
    split at h
    · cases h; exact ⟨l, List.mem_of_find?_eq_some hl, rfl⟩
    · cases h
  · have hwindow : fetchWindow s = [] := by simp [fetchWindow, textBytes, Env.inTextBytes, htext]
    split at h
    · next j hj =>
      have hlen := ilen_le_of_decode hj
      rw [hwindow] at hlen
      cases j <;> simp [Instr.ilen] at hlen
    · split at h <;> cases h

/-- Settles O43: the launch record never changes, so every instruction fetched along the run is one of the listing. -/
theorem listingWithoutMemoryNeverFaults : Obligations.ListingWithoutMemoryNeverFaults := by
  intro s htext hlisting t f hreach hfault
  have henv := (stepsKeepProgramText s t hreach).1
  obtain ⟨i, hi, hmemory⟩ := onlyLoadsAndStoresFault t f hfault
  obtain ⟨l, hl, rfl⟩ := mem_listing_of_fetch (henv ▸ htext) hi
  exact hlisting l (henv ▸ hl) hmemory

/-! ## The environment's actions -/

/-- In a run that has not ended, an action that is due is the step (R27). -/
theorem step_of_actionDue {s : State} {a : SetVLAction} (hrun : ¬ RunEnded s) (ha : s.actionDue = some a) :
    step s = .next (s.takeAction a) := by
  have hended : s.ended = false := Bool.eq_false_iff.mpr fun h => hrun (ended_iff.mp h)
  simp [step, hended, ha]

/-- In a run that has not ended and with no action due, the step is what is fetched (R120). -/
theorem step_of_fetch {s : State} {i : Instr} (hrun : ¬ RunEnded s) (hdue : NoActionDue s) (hi : fetch s = .instr i) :
    step s = exec i s := by
  have hended : s.ended = false := Bool.eq_false_iff.mpr fun h => hrun (ended_iff.mp h)
  simp [step, hended, actionDue_eq_none.mpr hdue, hi]

/-- There too, a fetch that is refused is a step that is refused (R100, R120). -/
theorem step_of_refused_fetch {s : State} {r : StaticRefusal} (hrun : ¬ RunEnded s) (hdue : NoActionDue s) (hr : fetch s = .reject r) :
    step s = .refused (.static r) := by
  have hended : s.ended = false := Bool.eq_false_iff.mpr fun h => hrun (ended_iff.mp h)
  simp [step, hended, actionDue_eq_none.mpr hdue, hr]

/-- A first action that is due sets `VL` and leaves the schedule, and nothing else happens (R27). -/
theorem step_of_first_due {s : State} {a : SetVLAction} {rest : List SetVLAction} (hp : s.pendingVL = a :: rest)
    (ha : a.after ≤ s.count) (hrun : ¬ RunEnded s) : step s = .next { s with vl := a.vl, pendingVL := rest } := by
  rw [step_of_actionDue hrun (actionDue_eq_some.mpr ⟨⟨rest, hp⟩, ha⟩), State.takeAction, hp]
  rfl

/-- A step at which no action is due is an instruction, which leaves `VL` and the schedule alone and is counted (R27). -/
theorem frame_of_step {s t : State} (hdue : NoActionDue s) (h : step s = .next t) :
    t.vl = s.vl ∧ t.pendingVL = s.pendingVL ∧ t.count = s.count + 1 := by
  obtain ⟨_, ⟨a, ha, _⟩ | ⟨_, i, _, hexec⟩⟩ := step_next h
  · rw [actionDue_eq_none.mpr hdue] at ha
    cases ha
  · obtain ⟨⟨hvl, _, hpending⟩, _, hcount⟩ := frame_of_next hexec
    exact ⟨hvl, hpending, hcount⟩

/-- Settles O47: an action timed for the next completion is not due before, and is due right after the instruction that completes. -/
theorem vlChangesOnlyBySetVL : Obligations.VlChangesOnlyBySetVL := by
  refine ⟨fun s a rest => step_of_first_due, fun s t => frame_of_step, ?timed⟩
  case timed =>
    intro s t n rest hp h hrun
    have hdue : NoActionDue s := by
      intro a rest' he
      rw [hp] at he
      cases he
      exact Nat.lt_succ_self _
    obtain ⟨_, hpending, hcount⟩ := frame_of_step hdue h
    exact step_of_first_due (hpending.trans hp) hcount.ge hrun

/-! ## The end of a run -/

/-- No instruction answers that the run has ended (R262): what it refuses, its static checks or its operands refuse. -/
theorem exec_ne_runEnded (s : State) (i : Instr) : exec i s ≠ .refused .runEnded := by
  intro h
  obtain ⟨r, _, hr⟩ | ⟨_, hr⟩ := exec_refused h
  · cases hr
  · simp at hr

/-- A step is refused as the end of the run exactly where the run has ended (R262). -/
theorem step_eq_runEnded_iff (s : State) : step s = .refused .runEnded ↔ RunEnded s := by
  obtain ⟨hended, h⟩ | ⟨hrun, a, _, h⟩ | ⟨hrun, _, r, _, h⟩ | ⟨hrun, _, i, _, h⟩ := step_cases s
  · exact iff_of_true h (ended_iff.mp hended)
  all_goals
    refine iff_of_false (fun hstep => ?_) (fun hended => by simp [ended_iff.mpr hended] at hrun)
    rw [h] at hstep
  · cases hstep
  · cases hstep
  · exact exec_ne_runEnded s i hstep

/-- A state whose step is no next state is the last of its run. -/
theorem eq_of_reaches {s : State} {q : Refusal} (h : step s = .refused q) {u : State} (hreach : Safety.Reaches s u) : u = s := by
  induction hreach with
  | refl => rfl
  | step _ hnext ih => subst ih; rw [h] at hnext; cases hnext

/-- Settles O57: an instruction that completes is counted, so its end address is the end of the run. -/
theorem runEndsAtTheEndAddress : Obligations.RunEndsAtTheEndAddress := by
  refine ⟨step_eq_runEnded_iff, ?final, exec_ne_runEnded⟩
  case final =>
    intro s t i h hend
    have hcount : 0 < t.count := (frame_of_next h).2.2 ▸ Nat.succ_pos s.count
    have hstep := (step_eq_runEnded_iff t).mpr ⟨hcount, hend⟩
    exact ⟨hstep, fun u => eq_of_reaches hstep⟩

/-! ## The instruction at the program counter -/

/-- An entry of the listing at the program counter is fetched where it fits below the top of the address space (R34, R260). -/
theorem fetch_of_listed {s : State} {i : Instr} (h : s.env.listing.find? (fun l => l.1 == s.pc) = some (s.pc, i)) :
    fetch s = if s.pc.toNat + i.ilen ≤ 2 ^ 64 then .instr i else .reject .notInScope := by
  simp only [fetch, h]

/-- An address that no entry of the listing has is not found in it (R260). -/
theorem find_eq_none_of_unlisted {s : State} (h : ∀ l ∈ s.env.listing, l.1 ≠ s.pc) :
    s.env.listing.find? (fun l => l.1 == s.pc) = none := by
  simpa [List.find?_eq_none] using h

/-- Settles O58: with no entry of the listing at the program counter, what the bytes decode to is fetched. -/
theorem stepRunsTheDecodedInstruction : Obligations.StepRunsTheDecodedInstruction := by
  intro s i hdue hrun hlisting hdecode
  refine step_of_fetch hrun hdue ?_
  simp only [fetch, find_eq_none_of_unlisted hlisting, hdecode]

/-- Settles O59: the entry of the listing is fetched. -/
theorem stepRunsTheListedInstruction : Obligations.StepRunsTheListedInstruction := by
  intro s i hdue hrun hfind hfits
  rw [length_encode] at hfits
  exact step_of_fetch hrun hdue ((fetch_of_listed hfind).trans (if_pos hfits))

/-! ## Reset and the general registers -/

/-- Settles O45: every component of the reset state by its definition. -/
theorem resetMemoryIsCanonical : Obligations.ResetMemoryIsCanonical := by
  refine ⟨rfl, fun _ => rfl, ?elements, ?registers, rfl, fun _ => rfl⟩
  case elements =>
    intro r x
    by_cases h : r.toNat < 8 <;> simp [State.elem, State.reset, h]
  case registers =>
    intro r
    simp [State.gpr, State.reset]

/-- Settles O50: the cases of a read after a write. -/
theorem hardWiredRegisterReadsZero : Obligations.HardWiredRegisterReadsZero := by
  intro s r q w
  exact ⟨fun h => ⟨if_pos h, if_pos h⟩, fun h => gpr_setGpr_of_not_hardWired h w, fun h => gpr_setGpr_other h w⟩

end Sys2Proof.WholeMachine
end

section
/-! PROOFS. The statements about decoding and encoding (30_encoding.md): each format as the fields of a word (R92 to R99), the candidates as
the instructions whose words the bytes begin with (R100), the round trips (R107), opcode 56h (R101), and the refusals by name. -/

namespace Sys2Proof.Encoding

open Sys2Proof.Machine Sys2Proof.Spec Sys2Proof.Arithmetic Sys2Proof.MoveConvert Sys2Proof.Laws.EncodeLength

/-! ## Fields -/

/-- A field of a field. -/
theorem extract_field (w : BitVec 48) {lo len k n : Nat} (h : k + n ≤ len) : (field w lo len).extractLsb' k n = field w (lo + k) n := by
  ext j hj
  simp [field, show k + j < len by omega, Nat.add_assoc]

/-- A field is a concatenation exactly where its high part and its low part are. -/
theorem field_eq_append_iff {m n : Nat} (w : BitVec 48) (lo : Nat) (a : BitVec m) (b : BitVec n) :
    field w lo (m + n) = a ++ b ↔ field w (lo + n) m = a ∧ field w lo n = b := by
  constructor
  · intro h
    have hhigh := extract_field w (lo := lo) (show n + m ≤ m + n by omega)
    have hlow := extract_field w (lo := lo) (show 0 + n ≤ m + n by omega)
    rw [h, extract_append_high _ _ _ _ le_rfl, Nat.sub_self, BitVec.extractLsb'_eq_self] at hhigh
    rw [h, extract_append_low _ _ _ _ (Nat.zero_add n).le, BitVec.extractLsb'_eq_self, Nat.add_zero] at hlow
    exact ⟨hhigh.symm, hlow.symm⟩
  · rintro ⟨rfl, rfl⟩
    ext j hj
    simp only [field, BitVec.getElem_extractLsb', BitVec.getElem_append]
    split
    · rfl
    · congr 1; omega

/-- The low byte of a word is a predicate byte exactly where the word has that predicate (R81). -/
theorem field_eq_predByte_iff (w : BitVec 48) (p : Pred) : field w 0 8 = p.byte ↔ predOf w = p := by
  refine ⟨predOf_of_low, ?_⟩
  rintro rfl
  exact (field_eq_append_iff w 0 _ _).mpr ⟨rfl, (Cond.code_ofCode _).symm⟩

/-- The bits of a shorter word that is brought to 48 bits are its own. -/
theorem field_setWidth {n : Nat} (x : BitVec n) (h : n ≤ 48) : field (x.setWidth 48) 0 n = x := by
  rw [field, extract_setWidth _ _ _ _ (by omega), BitVec.extractLsb'_eq_self]

/-- A field has a value where the number it is part of has that digit. -/
theorem extract_eq_iff {n : Nat} (b : BitVec n) (k len : Nat) (v : BitVec len) :
    b.extractLsb' k len = v ↔ b.toNat / 2 ^ k % 2 ^ len = v.toNat := by
  rw [← BitVec.toNat_inj, BitVec.extractLsb'_toNat, Nat.shiftRight_eq_div_pow]

/-! ## The formats -/

section Formats

variable {w : BitVec 48} {p : Pred}

/-- Formats VVV and VVS (R92, R93). -/
theorem field_eq_encVV_iff {op : Byte} {f t : BitVec 3} {vt b va : BitVec 6} :
    field w 0 40 = encVV op f t vt b va p ↔ field w 37 3 = f ∧ field w 34 3 = t ∧ field w 28 6 = vt ∧ field w 22 6 = b ∧
      field w 16 6 = va ∧ field w 8 8 = op ∧ predOf w = p := by
  show field w 0 (3 + 3 + 6 + 6 + 6 + 8 + 8) = _ ↔ _
  simp only [encVV, field_eq_append_iff, field_eq_predByte_iff, and_assoc]

/-- Format CMP (R94). -/
theorem field_eq_encCmp_iff {t : BitVec 3} {vb va : BitVec 6} {vpt : BitVec 4} :
    field w 0 32 = encCmp t vb va vpt p ↔ field w 31 1 = 1#1 ∧ field w 28 3 = t ∧ field w 22 6 = vb ∧ field w 16 6 = va ∧
      field w 12 4 = 1#4 ∧ field w 8 4 = vpt ∧ predOf w = p := by
  show field w 0 (1 + 3 + 6 + 6 + 4 + 4 + 8) = _ ↔ _
  simp only [encCmp, field_eq_append_iff, field_eq_predByte_iff, and_assoc]

/-- Format CMPS (R95). -/
theorem field_eq_encCmps_iff {t : BitVec 3} {vpt : BitVec 4} {rb va : BitVec 6} :
    field w 0 40 = encCmps t vpt rb va p ↔ field w 35 5 = 0#5 ∧ field w 32 3 = t ∧ field w 28 4 = vpt ∧ field w 22 6 = rb ∧
      field w 16 6 = va ∧ field w 8 8 = 0x5C#8 ∧ predOf w = p := by
  show field w 0 (5 + 3 + 4 + 6 + 6 + 8 + 8) = _ ↔ _
  simp only [encCmps, field_eq_append_iff, field_eq_predByte_iff, and_assoc]

/-- Format MAC (R96). -/
theorem field_eq_encMac_iff {sn : BitVec 5} {t : BitVec 3} {vt vc vb va : BitVec 6} :
    field w 0 48 = encMac sn t vt vc vb va p ↔ field w 43 5 = sn ∧ field w 40 3 = t ∧ field w 34 6 = vt ∧ field w 28 6 = vc ∧
      field w 22 6 = vb ∧ field w 16 6 = va ∧ field w 8 8 = 0x5A#8 ∧ predOf w = p := by
  show field w 0 (5 + 3 + 6 + 6 + 6 + 6 + 8 + 8) = _ ↔ _
  simp only [encMac, field_eq_append_iff, field_eq_predByte_iff, and_assoc]

/-- Format M3 (R97). -/
theorem field_eq_encM3_iff {f fa fb ra : BitVec 6} :
    field w 0 40 = encM3 f fa fb ra p ↔ field w 34 6 = f ∧ field w 28 6 = fa ∧ field w 22 6 = fb ∧ field w 16 6 = ra ∧
      field w 8 8 = 0x56#8 ∧ predOf w = p := by
  show field w 0 (6 + 6 + 6 + 6 + 8 + 8) = _ ↔ _
  simp only [encM3, field_eq_append_iff, field_eq_predByte_iff, and_assoc]

/-- Format M2 (R98). -/
theorem field_eq_encM2_iff {f : BitVec 4} {vt a : BitVec 6} :
    field w 0 32 = encM2 f vt a p ↔ field w 28 4 = f ∧ field w 22 6 = vt ∧ field w 16 6 = a ∧ field w 8 8 = 0x56#8 ∧
      predOf w = p := by
  show field w 0 (4 + 6 + 6 + 8 + 8) = _ ↔ _
  simp only [encM2, field_eq_append_iff, field_eq_predByte_iff, and_assoc]

/-- Format LS2 (R99). -/
theorem field_eq_encLS2_iff {op : Byte} {seg : BitVec 3} {v ra : BitVec 6} :
    field w 0 32 = encLS2 op seg v ra p ↔ field w 29 3 = seg ∧ field w 28 1 = 0#1 ∧ field w 22 6 = v ∧ field w 16 6 = ra ∧
      field w 8 8 = op ∧ predOf w = p := by
  show field w 0 (3 + 1 + 6 + 6 + 8 + 8) = _ ↔ _
  simp only [encLS2, field_eq_append_iff, field_eq_predByte_iff, and_assoc]

/-- Format LS3 (R99). -/
theorem field_eq_encLS3_iff {op : Byte} {seg : BitVec 3} {v b ra : BitVec 6} :
    field w 0 40 = encLS3 op seg v b ra p ↔ field w 37 3 = seg ∧ field w 34 3 = 0#3 ∧ field w 28 6 = v ∧ field w 22 6 = b ∧
      field w 16 6 = ra ∧ field w 8 8 = op ∧ predOf w = p := by
  show field w 0 (3 + 3 + 6 + 6 + 6 + 8 + 8) = _ ↔ _
  simp only [encLS3, field_eq_append_iff, field_eq_predByte_iff, and_assoc]

end Formats

/-! ## Words that spell an instruction -/

/-- A word begins with the encoding of an instruction, whatever stands above it and, for V2BITS, in the `Ra` field (R86, R107). -/
def Spells (w : BitVec 48) : Instr → Prop
  | .v2bits p rt va => ∃ ra, field w 0 40 = encM3 6#6 rt va ra p
  | i => field w 0 (8 * i.ilen) = field (encodeWord i) 0 (8 * i.ilen)

section Rows

variable {w : BitVec 48}

/-- A word whose low bits are a shorter word has those of that word brought to 48 bits. -/
theorem eq_field_setWidth {n : Nat} {x : BitVec n} (hn : n ≤ 48) (h : field w 0 n = x) : field w 0 n = field (x.setWidth 48) 0 n :=
  h.trans (field_setWidth x hn).symm

/-- A choice between lists has what each has where it is chosen. -/
theorem forall_mem_ite_of {α : Type} {P : α → Prop} {c : Prop} [Decidable c] {a b : List α} (ha : c → ∀ i ∈ a, P i)
    (hb : ¬ c → ∀ i ∈ b, P i) : ∀ i ∈ (if c then a else b), P i := by
  split
  · next h => exact ha h
  · next h => exact hb h

/-- The rows of formats VVV and VVS with one opcode differ in their function value alone (R92, R93). -/
theorem spells_of_func3 {op : Byte} {f : BitVec 3} (hop : field w 8 8 = op) (hf : field w 37 3 = f) :
    field w 0 40 = field ((encVV op f (field w 34 3) (field w 28 6) (field w 22 6) (field w 16 6) (predOf w)).setWidth 48) 0 40 :=
  eq_field_setWidth (by decide) (field_eq_encVV_iff.mpr ⟨hf, rfl, rfl, rfl, rfl, hop, rfl⟩)

/-- Every row of opcode 52h that is taken spells its instruction (R91). -/
theorem spells_rows52 (hop : field w 8 8 = 0x52#8) : ∀ i ∈ rows52 w, Spells w i := by
  unfold rows52
  repeat' refine forall_mem_ite_of (fun h => List.forall_mem_singleton.mpr (spells_of_func3 hop h)) (fun _ => ?_)
  exact List.forall_mem_nil _

/-- Every row of opcode 57h that is taken spells its instruction (R91). -/
theorem spells_rows57 (hop : field w 8 8 = 0x57#8) : ∀ i ∈ rows57 w, Spells w i := by
  unfold rows57
  repeat' refine forall_mem_ite_of (fun h => List.forall_mem_singleton.mpr (spells_of_func3 hop h)) (fun _ => ?_)
  exact List.forall_mem_nil _

/-- Every row of opcode 5Eh that is taken spells its instruction (R91). -/
theorem spells_rows5E (hop : field w 8 8 = 0x5E#8) : ∀ i ∈ rows5E w, Spells w i := by
  unfold rows5E
  repeat' refine forall_mem_ite_of (fun h => List.forall_mem_singleton.mpr (spells_of_func3 hop h)) (fun _ => ?_)
  exact List.forall_mem_nil _

/-- The row of format MAC spells its instruction (R96). -/
theorem spells_rows5A (hop : field w 8 8 = 0x5A#8) : ∀ i ∈ rows5A w, Spells w i :=
  List.forall_mem_singleton.mpr
    ((field_eq_encMac_iff.mpr ⟨rfl, rfl, rfl, rfl, rfl, rfl, hop, rfl⟩).trans (BitVec.extractLsb'_eq_self).symm)

/-- The row of format CMPS, where it is taken, spells its instruction (R95). -/
theorem spells_rows5C (hop : field w 8 8 = 0x5C#8) : ∀ i ∈ rows5C w, Spells w i := by
  refine forall_mem_ite_of (fun h => List.forall_mem_singleton.mpr ?_) (fun _ => List.forall_mem_nil _)
  exact eq_field_setWidth (n := 40) (by decide) (field_eq_encCmps_iff.mpr ⟨h, rfl, rfl, rfl, rfl, hop, rfl⟩)

/-- The row of format CMP, where it is taken, spells its instruction (R94). -/
theorem spells_rowsCmp (hop : field w 12 4 = 1#4) : ∀ i ∈ rowsCmp w, Spells w i := by
  refine forall_mem_ite_of (fun h => List.forall_mem_singleton.mpr ?_) (fun _ => List.forall_mem_nil _)
  exact eq_field_setWidth (n := 32) (by decide) (field_eq_encCmp_iff.mpr ⟨h, rfl, rfl, rfl, hop, rfl, rfl⟩)

/-- A row of format LS2, where it is taken, has the fields of its word (R99). -/
theorem spells_rowsLS2 {op : Byte} {build : Pred → BitVec 3 → BitVec 6 → BitVec 6 → Instr} (hop : field w 8 8 = op)
    (hbuild : ∀ p seg v ra, field w 0 32 = encLS2 op seg v ra p → Spells w (build p seg v ra)) :
    ∀ i ∈ rowsLS2 w build, Spells w i := by
  refine forall_mem_ite_of (fun h => List.forall_mem_singleton.mpr (hbuild _ _ _ _ ?_)) (fun _ => List.forall_mem_nil _)
  exact field_eq_encLS2_iff.mpr ⟨rfl, h, rfl, rfl, hop, rfl⟩

/-- A row of format LS3, where it is taken, has the fields of its word (R99). -/
theorem spells_rowsLS3 {op : Byte} {build : Pred → BitVec 3 → BitVec 6 → BitVec 6 → BitVec 6 → Instr} (hop : field w 8 8 = op)
    (hbuild : ∀ p seg v ra b, field w 0 40 = encLS3 op seg v b ra p → Spells w (build p seg v ra b)) :
    ∀ i ∈ rowsLS3 w build, Spells w i := by
  refine forall_mem_ite_of (fun h => List.forall_mem_singleton.mpr (hbuild _ _ _ _ _ ?_)) (fun _ => List.forall_mem_nil _)
  exact field_eq_encLS3_iff.mpr ⟨rfl, h, rfl, rfl, rfl, hop, rfl⟩

/-- The four-byte members of opcode 56h that a word matches have its fields (R98). -/
theorem spells_short56 (hop : field w 8 8 = 0x56#8) : ∀ m ∈ short56 w, Spells w (m.build w) := by
  have row {f : BitVec 4} (hf : field w 28 4 = f) :
      field w 0 32 = field ((encM2 f (field w 22 6) (field w 16 6) (predOf w)).setWidth 48) 0 32 :=
    eq_field_setWidth (by decide) (field_eq_encM2_iff.mpr ⟨hf, rfl, rfl, hop, rfl⟩)
  unfold short56
  refine forall_mem_ite_of (fun h => ?_) fun _ => forall_mem_ite_of (fun h => ?_) fun _ => forall_mem_ite_of (fun h => ?_) fun _ => ?_
  · exact List.forall_mem_singleton.mpr (row h)
  · exact List.forall_mem_singleton.mpr (row h)
  · exact List.forall_mem_cons.mpr ⟨row h, List.forall_mem_singleton.mpr (row h)⟩
  · exact List.forall_mem_nil _

/-- The five-byte members of opcode 56h that a word matches have its fields, V2BITS but for `Ra` (R86, R97). -/
theorem spells_long56 (hop : field w 8 8 = 0x56#8) : ∀ m ∈ long56 w, Spells w (m.build w) := by
  have word {f : BitVec 6} (hf : field w 34 6 = f) :
      field w 0 40 = encM3 f (field w 28 6) (field w 22 6) (field w 16 6) (predOf w) :=
    field_eq_encM3_iff.mpr ⟨hf, rfl, rfl, rfl, hop, rfl⟩
  unfold long56
  iterate 4 refine forall_mem_ite_of (fun h => List.forall_mem_singleton.mpr (eq_field_setWidth (n := 40) (by decide) (word h))) (fun _ => ?_)
  exact forall_mem_ite_of (fun h => List.forall_mem_singleton.mpr ⟨_, word h⟩) (fun _ => List.forall_mem_nil _)

/-- Every candidate is an instruction that the word spells: a row is taken only where its fixed bits match (R100). -/
theorem spells_of_mem_candidates (n : Nat) : ∀ i ∈ candidates n w, Spells w i := by
  have present {k : Nat} {rows : List Instr} (h : ∀ i ∈ rows, Spells w i) : ∀ i ∈ whenPresent n k rows, Spells w i :=
    forall_mem_ite h (List.forall_mem_nil _)
  unfold candidates
  refine forall_mem_ite_of (fun h => present (spells_rowsCmp h)) fun _ => ?_
  refine forall_mem_ite_of (fun h => present (spells_rows52 h)) fun _ => ?_
  refine forall_mem_ite_of (fun h => List.forall_mem_append.mpr ⟨present (List.forall_mem_map.mpr (spells_short56 h)),
    present (List.forall_mem_map.mpr (spells_long56 h))⟩) fun _ => ?_
  refine forall_mem_ite_of (fun h => present (spells_rows57 h)) fun _ => ?_
  refine forall_mem_ite_of (fun h => present (spells_rows5A h)) fun _ => ?_
  refine forall_mem_ite_of (fun h => present (spells_rows5C h)) fun _ => ?_
  refine forall_mem_ite_of (fun h => present (spells_rows5E h)) fun _ => ?_
  have ls2 {x : BitVec 32} : field w 0 32 = x → field w 0 32 = field (x.setWidth 48) 0 32 := eq_field_setWidth (by decide)
  have ls3 {x : BitVec 40} : field w 0 40 = x → field w 0 40 = field (x.setWidth 48) 0 40 := eq_field_setWidth (by decide)
  refine forall_mem_ite_of (fun h => present (spells_rowsLS2 h fun _ _ _ _ => ls2)) fun _ => ?_
  refine forall_mem_ite_of (fun h => present (spells_rowsLS3 h fun _ _ _ _ _ => ls3)) fun _ => ?_
  refine forall_mem_ite_of (fun h => present (spells_rowsLS3 h fun _ _ _ _ _ => ls3)) fun _ => ?_
  refine forall_mem_ite_of (fun h => present (spells_rowsLS2 h fun _ _ _ _ => ls2)) fun _ => ?_
  refine forall_mem_ite_of (fun h => present (spells_rowsLS3 h fun _ _ _ _ _ => ls3)) fun _ => ?_
  exact forall_mem_ite_of (fun h => present (spells_rowsLS3 h fun _ _ _ _ _ => ls3)) fun _ => List.forall_mem_nil _

end Rows

/-! ## The bytes of what decodes -/

/-- The low bytes of a word depend on its low bits alone. -/
theorem toBytes_congr {n : Nat} {v w : BitVec 48} (h : field v 0 (8 * n) = field w 0 (8 * n)) : toBytes n v = toBytes n w := by
  refine List.map_congr_left fun k hk => ?_
  have hlt : k < n := List.mem_range.mp hk
  have hbyte (u : BitVec 48) : u.extractLsb' (8 * k) 8 = (field u 0 (8 * n)).extractLsb' (8 * k) 8 := by
    rw [extract_field u (by omega), Nat.zero_add]
    rfl
  rw [hbyte v, hbyte w, h]

/-- The low bytes of the word of a sequence of bytes are the first of them (R54). -/
theorem toBytes_wordOf {n : Nat} {bs : List Byte} (hn : n ≤ bs.length) (h6 : n ≤ 6) : toBytes n (wordOf bs) = bs.take n := by
  refine List.ext_getElem (by simp [toBytes, hn]) fun k hk hk' => ?_
  have hlt : k < n := by simpa [toBytes] using hk
  simp only [toBytes, List.getElem_map, List.getElem_range, List.getElem_take]
  refine (field_byteAt bs (8 * k) 8 k (by omega) (by omega) (by omega)).trans ?_
  simp [byteAt, show k < bs.length by omega]

/-- An instruction that decoding finds is one that the bytes' word spells, all of its bytes being present (R100). -/
theorem spells_of_decode {bs : List Byte} {i : Instr} (h : decode none bs = .instr i) : Spells (wordOf bs) i ∧ i.ilen ≤ bs.length :=
  ⟨spells_of_mem_candidates _ i (decodeByTable_mem h), ilen_le_of_decode h⟩

/-- Settles O55: what is found is spelt by the word, and a word's low bytes are the first bytes of the sequence. -/
theorem encodeDecodeGivesTheBytesBack : Obligations.EncodeDecodeGivesTheBytesBack := by
  intro bs i h
  obtain ⟨hspells, hlen⟩ := spells_of_decode h
  refine ⟨fun hi => ?others, ?v2bits⟩
  case others =>
    have hword : field (wordOf bs) 0 (8 * i.ilen) = field (encodeWord i) 0 (8 * i.ilen) := by
      cases i
      case v2bits p rt va => exact absurd rfl (hi p rt va)
      all_goals exact hspells
    rw [length_encode, encode, toBytes_congr hword.symm, toBytes_wordOf hlen (by cases i <;> simp [Instr.ilen])]
  case v2bits =>
    rintro p rt va rfl
    obtain ⟨ra, hra⟩ := hspells
    have hword := toBytes_congr (n := 5) (eq_field_setWidth (n := 40) (by decide) hra)
    exact ⟨ra, (toBytes_wordOf (n := 5) hlen (by decide)).symm.trans hword⟩

/-! ## The word of an encoding decodes to the instruction -/

/-- The bytes of an encoding spell the instruction, whatever bytes follow (R107). -/
theorem spells_encode (i : Instr) (rest : List Byte) : Spells (wordOf (encode i ++ rest)) i := by
  cases i
  case v2bits p rt va =>
    have hword := field_encode (.v2bits p rt va) rest (lo := 0) (len := 40) (by simp [Instr.ilen]) (by decide)
    exact ⟨0#6, hword.trans (field_setWidth _ (by decide))⟩
  all_goals exact field_encode _ rest (lo := 0) (by simp [Instr.ilen]) (by simp [Instr.ilen])

/-- The high nibble of the second byte. -/
theorem nibble_of_opcode {w : BitVec 48} {op : Byte} (hop : field w 8 8 = op) : field w 12 4 = op.extractLsb' 4 4 := by
  rw [← hop, extract_field w (by decide)]

/-- The row of an instruction outside opcode 56h is taken where the word spells it and its bytes are present (R91, R100). -/
theorem mem_candidates_of_spells {n : Nat} {w : BitVec 48} {i : Instr} (hi : Outside56 i) (h : Spells w i) (hn : i.ilen ≤ n) :
    i ∈ candidates n w := by
  have fields40 {x y : BitVec 40} (h : y = field (x.setWidth 48) 0 40) : y = x := h.trans (field_setWidth x (by decide))
  have fields32 {x y : BitVec 32} (h : y = field (x.setWidth 48) 0 32) : y = x := h.trans (field_setWidth x (by decide))
  cases i
  case vex | veins | vshlv | vshrv | vbits2v | v2bits | vflt2int | vint2flt | vrec => cases hi
  case vmac =>
    obtain ⟨rfl, rfl, rfl, rfl, rfl, rfl, hop, rfl⟩ := field_eq_encMac_iff.mp (h.trans (BitVec.extractLsb'_eq_self))
    replace hn : 6 ≤ n := hn
    simp [candidates, nibble_of_opcode hop, hop, whenPresent, hn, rows5A]
  case vcmp =>
    obtain ⟨h31, rfl, rfl, rfl, hop, rfl, rfl⟩ := field_eq_encCmp_iff.mp (fields32 h)
    replace hn : 4 ≤ n := hn
    simp [candidates, hop, whenPresent, hn, rowsCmp, h31]
  case vcmps =>
    obtain ⟨hzero, rfl, rfl, rfl, rfl, hop, rfl⟩ := field_eq_encCmps_iff.mp (fields40 h)
    replace hn : 5 ≤ n := hn
    simp [candidates, nibble_of_opcode hop, hop, whenPresent, hn, rows5C, hzero]
  case lv | sv =>
    obtain ⟨rfl, hzero, rfl, rfl, hop, rfl⟩ := field_eq_encLS2_iff.mp (fields32 h)
    replace hn : 4 ≤ n := hn
    simp [candidates, nibble_of_opcode hop, hop, whenPresent, hn, rowsLS2, hzero]
  case lvws | lvx | svws | svx =>
    obtain ⟨rfl, hzero, rfl, rfl, rfl, hop, rfl⟩ := field_eq_encLS3_iff.mp (fields40 h)
    replace hn : 5 ≤ n := hn
    simp [candidates, nibble_of_opcode hop, hop, whenPresent, hn, rowsLS3, hzero]
  all_goals
    obtain ⟨hf, rfl, rfl, rfl, rfl, hop, rfl⟩ := field_eq_encVV_iff.mp (fields40 h)
    replace hn : 5 ≤ n := hn
    simp [candidates, nibble_of_opcode hop, hop, whenPresent, hn, rows52, rows57, rows5E, hf]

/-- Outside opcode 56h there is at most one candidate: an opcode's function values exclude each other (R91, R100). -/
theorem candidates_eq_singleton {n : Nat} {w : BitVec 48} {i : Instr} (hi : Outside56 i) (h : i ∈ candidates n w) :
    candidates n w = [i] := by
  have member56 (n : Nat) (w : BitVec 48) : ∀ j ∈ members56 n w, ¬ Outside56 j := by
    have members (k : Nat) (ms : List Member56) : ∀ j ∈ whenPresent n k (ms.map fun m => m.build w), ¬ Outside56 j :=
      forall_mem_ite (List.forall_mem_map.mpr fun m _ => by cases m <;> exact id) (List.forall_mem_nil _)
    exact List.forall_mem_append.mpr ⟨members 4 _, members 5 _⟩
  revert h
  unfold candidates
  refine ite_eq_of_mem ?_ <| ite_eq_of_mem ?_ <| ite_eq_of_mem (fun h => absurd hi (member56 n w i h)) ?_
  all_goals
    simp only [whenPresent, rowsCmp, rows52, rows57, rows5A, rows5C, rows5E, rowsLS2, rowsLS3]
    repeat' refine ite_eq_of_mem ?_ ?_
    all_goals simp +contextual

/-- Settles O52: the instruction is a candidate, and outside opcode 56h a candidate is the only one. -/
theorem decodeEncodeOutside56 : Obligations.DecodeEncodeOutside56 := by
  intro i rest hi
  have hlen : i.ilen ≤ (encode i ++ rest).length := by
    rw [List.length_append, length_encode]
    exact Nat.le_add_right _ _
  have hc := candidates_eq_singleton hi (mem_candidates_of_spells hi (spells_encode i rest) hlen)
  simp only [decode, decodeByTable, hc]

/-! ## Opcode 56h -/

/-- The candidates of a word of opcode 56h are those of its members that match (R91, R100). -/
theorem candidates_of_opcode56 {n : Nat} {w : BitVec 48} (hop : field w 8 8 = 0x56#8) : candidates n w = members56 n w := by
  simp [candidates, nibble_of_opcode hop, hop, members56]

/-- The predicate bytes that begin a vector instruction are not refused (R82). -/
theorem reject_of_predLegal {p : Pred} (hp : PredLegal p) : p.reject = none := by
  obtain ⟨vpn, c⟩ := p
  obtain ⟨rfl, rfl⟩ | ⟨rfl, rfl⟩ | rfl | ⟨hlo, hhi⟩ := hp
  · rfl
  · rfl
  · rfl
  · cases c
    case pf | pt | rsv12 | rsv14 | rsv15 => simp [Cond.code] at hlo hhi
    all_goals rfl

/-- Bytes with two or more candidates are refused, as ambiguous where their predicate byte is not (R100, R101). -/
theorem decode_of_two_candidates {bs : List Byte} (h : 2 ≤ (candidates bs.length (wordOf bs)).length) :
    (∃ r, decode none bs = .reject r) ∧ (PredLegal (predOf (wordOf bs)) → decode none bs = .reject .ambiguousEncoding) := by
  have hdecode : decode none bs = rejectAfterPred bs.length (wordOf bs) .ambiguousEncoding := by
    simp only [decode, decodeByTable]
    split
    · next hc => simp [hc] at h
    · next hc => simp [hc] at h
    · rfl
  refine ⟨⟨_, hdecode⟩, fun hp => ?_⟩
  rw [hdecode, rejectAfterPred, reject_of_predLegal hp, Option.getD_none, ite_self]

/-- Bytes with one candidate are that instruction (R100). -/
theorem decode_of_one_candidate {bs : List Byte} {i : Instr} (h : candidates bs.length (wordOf bs) = [i]) :
    decode none bs = .instr i := by
  simp only [decode, decodeByTable, h]

/-- A choice that begins with a row is empty where that row is not taken and the rest is empty. -/
theorem ite_cons_eq_nil_iff {α : Type} {c : Prop} [Decidable c] {x : α} {xs ys : List α} :
    (if c then x :: xs else ys) = [] ↔ ¬ c ∧ ys = [] := by split <;> simp [*]

/-- No four-byte member matches exactly where bits 31:28, the low ones of field A, name none (R98, R101). -/
theorem short56_eq_nil_iff {w : BitVec 48} : short56 w = [] ↔ LongIsUnique (field w 28 6) := by
  have hlow : field w 28 4 = (field w 28 6).extractLsb' 0 4 := (extract_field w (show 0 + 4 ≤ 6 by decide)).symm
  have hdigit (v : BitVec 4) : field w 28 4 = v ↔ (field w 28 6).toNat % 16 = v.toNat := by
    rw [hlow, extract_eq_iff, Nat.pow_zero, Nat.div_one]
    exact Iff.rfl
  simp only [short56, LongIsUnique, ite_cons_eq_nil_iff, hdigit, and_true]
  exact Iff.rfl

/-- A word of opcode 56h that matches one five-byte member is that member where no four-byte one matches, and ambiguous otherwise
(R101). -/
theorem decode_of_long56 {bs : List Byte} {i : Instr} (hlen : 5 ≤ bs.length) (hop : field (wordOf bs) 8 8 = 0x56#8)
    (hi : ((long56 (wordOf bs)).map fun m => m.build (wordOf bs)) = [i]) :
    (LongIsUnique (field (wordOf bs) 28 6) → decode none bs = .instr i) ∧
    (¬ LongIsUnique (field (wordOf bs) 28 6) → (∃ r, decode none bs = .reject r) ∧
      (PredLegal (predOf (wordOf bs)) → decode none bs = .reject .ambiguousEncoding)) := by
  have hc : candidates bs.length (wordOf bs) = ((short56 (wordOf bs)).map fun m => m.build (wordOf bs)) ++ [i] := by
    rw [candidates_of_opcode56 hop, members56, hi, whenPresent, whenPresent, if_pos (by omega), if_pos hlen]
  constructor
  · intro hu
    exact decode_of_one_candidate (by rw [hc, short56_eq_nil_iff.mpr hu]; rfl)
  · intro hu
    have hpos : 0 < (short56 (wordOf bs)).length := List.length_pos_iff.mpr fun h => hu (short56_eq_nil_iff.mp h)
    exact decode_of_two_candidates (by simp [hc]; omega)

/-- Bytes that spell a five-byte member of opcode 56h (R97, R101). -/
theorem decode_of_spells_long {bs : List Byte} {i : Instr} {a : BitVec 6} (hlen : 5 ≤ bs.length) (ha : fieldA i = some a)
    (h : Spells (wordOf bs) i) :
    (LongIsUnique a → decode none bs = .instr i) ∧
    (¬ LongIsUnique a → (∃ r, decode none bs = .reject r) ∧ (PredLegal i.pred → decode none bs = .reject .ambiguousEncoding)) := by
  have fields {f fa fb ra : BitVec 6} {p : Pred} (h : field (wordOf bs) 0 40 = field ((encM3 f fa fb ra p).setWidth 48) 0 40) :=
    field_eq_encM3_iff.mp (h.trans (field_setWidth _ (by decide)))
  cases i
  case vex | veins | vshlv | vshrv =>
    cases ha
    obtain ⟨hf, rfl, rfl, rfl, hop, rfl⟩ := fields h
    exact decode_of_long56 hlen hop (by simp [long56, hf, Member56.build])
  case v2bits =>
    cases ha
    obtain ⟨ra, h⟩ := h
    obtain ⟨hf, rfl, rfl, _, hop, rfl⟩ := field_eq_encM3_iff.mp h
    exact decode_of_long56 hlen hop (by simp [long56, hf, Member56.build])
  all_goals cases ha

/-- Settles O53: the bytes spell the member, with any value in the `Ra` field of V2BITS, and bits 31:28 decide whether it is alone. -/
theorem decodeEncodeLong56 : Obligations.DecodeEncodeLong56 := by
  constructor
  · intro i a rest ha
    have hlen : 5 ≤ (encode i ++ rest).length := by
      rw [List.length_append, length_encode]
      cases i
      case vex | veins | vshlv | vshrv | v2bits => exact Nat.le_add_right _ _
      all_goals cases ha
    exact decode_of_spells_long hlen ha (spells_encode i rest)
  · rintro p rt va ra rest _ rfl
    refine decode_of_spells_long (i := .v2bits p rt va) (by simp [length_toBytes]) rfl ⟨ra, ?_⟩
    exact (field_toBytes _ _ (by decide) (by decide)).trans (field_setWidth _ (by decide))

/-- No five-byte member matches exactly where no fifth byte is there or its bits 7:2 name none (R97, R101). -/
theorem present_long56_eq_nil_iff {bs : List Byte} (hlen : 4 ≤ bs.length) :
    whenPresent bs.length 5 ((long56 (wordOf bs)).map fun m => m.build (wordOf bs)) = [] ↔ ShortIsUnique (bs.drop 4) := by
  cases hrest : bs.drop 4 with
  | nil =>
    have hshort : bs.length ≤ 4 := List.drop_eq_nil_iff.mp hrest
    exact iff_of_true (if_neg (by omega)) nofun
  | cons b rest =>
    have hlen5 : 5 ≤ bs.length := by
      have := congrArg List.length hrest
      simp at this
      omega
    have hbyte : byteAt bs 4 = b := by
      have := congrArg List.head? hrest
      rw [List.head?_drop, List.head?_cons] at this
      simp [byteAt, this]
    have hfunc6 : field (wordOf bs) 34 6 = b.extractLsb' 2 6 := by
      rw [field_byteAt bs 34 6 4 rfl (by decide) (by decide), hbyte]
    have hdigit (v : BitVec 6) : field (wordOf bs) 34 6 = v ↔ b.toNat / 4 = v.toNat := by
      have := b.isLt
      rw [hfunc6, extract_eq_iff, Nat.mod_eq_of_lt (by omega)]
      exact Iff.rfl
    have hcons : ShortIsUnique (b :: rest) ↔
        b.toNat / 4 ≠ 0 ∧ b.toNat / 4 ≠ 1 ∧ b.toNat / 4 ≠ 2 ∧ b.toNat / 4 ≠ 3 ∧ b.toNat / 4 ≠ 6 :=
      ⟨fun h => h b rest rfl, fun h c cs he => by cases he; exact h⟩
    rw [hcons, whenPresent, if_pos hlen5, List.map_eq_nil_iff]
    simp only [long56, ite_cons_eq_nil_iff, hdigit, and_true]
    exact Iff.rfl

/-- A word of opcode 56h that matches one four-byte member is that member where no five-byte one matches, and ambiguous otherwise
(R101). -/
theorem decode_of_short56 {bs : List Byte} {i : Instr} (hlen : 4 ≤ bs.length) (hop : field (wordOf bs) 8 8 = 0x56#8)
    (hi : ((short56 (wordOf bs)).map fun m => m.build (wordOf bs)) = [i]) :
    (ShortIsUnique (bs.drop 4) → decode none bs = .instr i) ∧
    (¬ ShortIsUnique (bs.drop 4) → (∃ r, decode none bs = .reject r) ∧
      (PredLegal (predOf (wordOf bs)) → decode none bs = .reject .ambiguousEncoding)) := by
  have hc : candidates bs.length (wordOf bs) =
      i :: whenPresent bs.length 5 ((long56 (wordOf bs)).map fun m => m.build (wordOf bs)) := by
    rw [candidates_of_opcode56 hop, members56, hi, whenPresent, if_pos hlen, List.singleton_append]
  constructor
  · intro hu
    exact decode_of_one_candidate (by rw [hc, (present_long56_eq_nil_iff hlen).mpr hu])
  · intro hu
    have hpos := List.length_pos_iff.mpr fun h => hu ((present_long56_eq_nil_iff hlen).mp h)
    exact decode_of_two_candidates (by rw [hc, List.length_cons]; omega)

/-- Bytes that spell VFLT2INT or VINT2FLT (R98, R101). -/
theorem decode_of_spells_conversion {bs : List Byte} {i : Instr} {p : Pred} {vt a : BitVec 6} (hlen : 4 ≤ bs.length)
    (hi : i = .vflt2int p vt a ∨ i = .vint2flt p vt a) (h : Spells (wordOf bs) i) :
    (ShortIsUnique (bs.drop 4) → decode none bs = .instr i) ∧
    (¬ ShortIsUnique (bs.drop 4) → (∃ r, decode none bs = .reject r) ∧
      (PredLegal p → decode none bs = .reject .ambiguousEncoding)) := by
  obtain rfl | rfl := hi
  all_goals
    obtain ⟨hf, rfl, rfl, hop, rfl⟩ := field_eq_encM2_iff.mp (h.trans (field_setWidth _ (by decide)))
    exact decode_of_short56 hlen hop (by simp [short56, hf, Member56.build])

/-- Bytes that spell VREC spell VBITS2V as well, so both are candidates (R98, R101). -/
theorem decode_of_spells_vrec {bs : List Byte} {p : Pred} {vt a : BitVec 6} (hlen : 4 ≤ bs.length)
    (h : Spells (wordOf bs) (.vrec p vt a)) :
    (∃ r, decode none bs = .reject r) ∧ (PredLegal p → decode none bs = .reject .ambiguousEncoding) := by
  obtain ⟨hf, rfl, rfl, hop, rfl⟩ := field_eq_encM2_iff.mp (h.trans (field_setWidth _ (by decide)))
  refine decode_of_two_candidates ?_
  have hshort : short56 (wordOf bs) = [.vrec, .vbits2v] := by simp [short56, hf]
  rw [candidates_of_opcode56 hop, members56, hshort, whenPresent, if_pos hlen, List.length_append]
  exact Nat.le_add_right 2 _

/-- Settles O54: the bytes spell the member, the byte after them decides whether it is alone, and VREC and VBITS2V never are. -/
theorem decodeEncodeShort56 : Obligations.DecodeEncodeShort56 := by
  intro p vt a rest
  have hlen {i : Instr} (hi : i.ilen = 4) : 4 ≤ (encode i ++ rest).length ∧ (encode i ++ rest).drop 4 = rest := by
    have hencode : (encode i).length = 4 := (length_encode i).trans hi
    exact ⟨by simp [hencode], List.drop_left' hencode⟩
  refine ⟨fun i hi => ?conversion, rfl, decode_of_spells_vrec (hlen rfl).1 (spells_encode _ rest)⟩
  case conversion =>
    obtain ⟨hpresent, hdrop⟩ := hlen (i := i) (by obtain rfl | rfl := hi <;> rfl)
    have := decode_of_spells_conversion hpresent hi (spells_encode i rest)
    rwa [hdrop] at this

/-- Settles O60: each sequence of bytes by evaluation. -/
theorem writtenWordsDecode : Obligations.WrittenWordsDecode := by
  exact ⟨by decide, by decide, by decide, by decide, by decide, by decide, by decide, by decide, by decide⟩

/-! ## Refusals by name -/

/-- The predicate of a sequence of bytes is refused as its first byte is (R82, R102). -/
theorem reject_predOf (b : Byte) (bs : List Byte) : (predOf (wordOf (b :: bs))).reject = firstByteRefusal b := by
  obtain ⟨hcode, hvpn⟩ := CommonExecution.predOf_wordOf_cons b bs
  generalize predOf (wordOf (b :: bs)) = p at hcode hvpn
  obtain ⟨vpn, c⟩ := p
  have hv (v : BitVec 4) : vpn = v ↔ b.toNat / 16 = v.toNat := by rw [← BitVec.toNat_inj, ← hvpn]
  simp only [Pred.reject, firstByteRefusal, hv]
  cases c
  case pf =>
    have h90 : b.toNat / 16 = 9 ↔ b.toNat = 0x90 := by simp [Cond.code] at hcode; omega
    simp only [← hcode]
    simp [Cond.code, h90]
  case pt =>
    have h01 : b.toNat / 16 = 0 ↔ b.toNat = 0x01 := by simp [Cond.code] at hcode; omega
    simp only [← hcode]
    simp [Cond.code, h01]
  all_goals simp [← hcode, Cond.code]
/-- Bytes that no row matches are refused for their first byte or for the reason there is (R100). -/
theorem refusedAs_of_no_candidate {b : Byte} {bs : List Byte} {r : StaticRefusal}
    (hc : candidates (b :: bs).length (wordOf (b :: bs)) = []) (hr : noRowReason (b :: bs).length (wordOf (b :: bs)) = r) :
    RefusedAs b bs r := by
  simp only [RefusedAs, decode, decodeByTable, hc, rejectAfterPred, reject_predOf, hr]
  rw [if_neg (by simp)]

/-- A field within one byte has a value where that byte has that digit (R54). -/
theorem field_eq_iff_digit (bs : List Byte) {lo len k : Nat} (v : BitVec len) (hk : lo / 8 = k) (h6 : k < 6) (h : lo % 8 + len ≤ 8) :
    field (wordOf bs) lo len = v ↔ (byteAt bs k).toNat / 2 ^ (lo % 8) % 2 ^ len = v.toNat := by
  rw [field_byteAt bs lo len k hk h6 h, extract_eq_iff]

/-- The second byte is the opcode (R91). -/
theorem opcode_of_cons (b0 b1 : Byte) (bs : List Byte) : field (wordOf (b0 :: b1 :: bs)) 8 8 = b1 := by
  rw [field_byteAt _ 8 8 1 rfl (by decide) (by decide)]
  exact BitVec.extractLsb'_eq_self

/-- The high nibble of a byte is 1 where the byte is one of 1xh (R89). -/
theorem high_nibble_eq_one_iff (b : Byte) : b.extractLsb' 4 4 = 1#4 ↔ b.toNat / 16 = 1 := by
  have := b.isLt
  rw [extract_eq_iff, Nat.mod_eq_of_lt (by omega)]
  exact Iff.rfl

/-- A second byte that has rows of one length has candidates only where that many bytes are present (R83, R91). -/
theorem candidates_of_rowLength {w : BitVec 48} {k : Nat} (hk : rowLength (field w 8 8) = some k) :
    ∃ rows, ∀ n, candidates n w = whenPresent n k rows := by
  have hnibble : field w 12 4 = 1#4 ↔ (field w 8 8).toNat / 16 = 1 := by rw [nibble_of_opcode rfl, high_nibble_eq_one_iff]
  generalize hop : field w 8 8 = b at hk hnibble
  unfold rowLength at hk
  by_cases h1 : b.toNat / 16 = 1
  · rw [if_pos h1] at hk
    cases hk
    exact ⟨_, fun n => by rw [candidates, if_pos (hnibble.mpr h1)]⟩
  · rw [if_neg h1] at hk
    have hne : field w 12 4 ≠ 1#4 := fun h => h1 (hnibble.mp h)
    split_ifs at hk with h5 h6 h4
    · cases hk
      simp only [List.mem_cons, List.not_mem_nil, or_false] at h5
      obtain rfl | rfl | rfl | rfl | rfl | rfl | rfl | rfl := h5 <;> exact ⟨_, fun n => by simp [candidates, hne, hop]; rfl⟩
    · cases hk
      exact ⟨_, fun n => by simp [candidates, hne, hop, h6]; rfl⟩
    · cases hk
      simp only [List.mem_cons, List.not_mem_nil, or_false] at h4
      obtain rfl | rfl := h4 <;> exact ⟨_, fun n => by simp [candidates, hne, hop]; rfl⟩

/-- A second byte in no row of the opcode table has no candidate (R91). -/
theorem candidates_of_no_row {n : Nat} {w : BitVec 48} (hrow : rowLength (field w 8 8) = none) (h56 : field w 8 8 ≠ 0x56#8) :
    candidates n w = [] := by
  have hnibble : field w 12 4 = 1#4 ↔ (field w 8 8).toNat / 16 = 1 := by rw [nibble_of_opcode rfl, high_nibble_eq_one_iff]
  unfold rowLength at hrow
  split_ifs at hrow with h1 h5 h6 h4
  simp only [List.mem_cons, List.not_mem_nil, or_false, not_or] at h5 h4
  simp [candidates, hnibble, h1, h5, h6, h4, h56]

/-- The longest row of a second byte is its only length, or the five of opcode 56h (R83, R91). -/
theorem longestRow_eq (b : Byte) : longestRow b = if b = 0x56#8 then 5 else (rowLength b).getD 0 := by
  simp only [longestRow, rowLength, high_nibble_eq_one_iff, List.mem_cons, List.not_mem_nil, or_false]
  by_cases h56 : b = 0x56#8
  · subst h56; rfl
  · simp only [h56, if_false, false_or]
    split_ifs <;> rfl

/-- A second byte that has rows of one length has them as its longest (R83). -/
theorem longestRow_of_rowLength {b : Byte} {n : Nat} (h : rowLength b = some n) : longestRow b = n := by
  have h56 : b ≠ 0x56#8 := by rintro rfl; cases h
  rw [longestRow_eq, if_neg h56, h, Option.getD_some]

/-- A second byte in no row is out of scope (R100). -/
theorem noRowReason_of_no_row {b0 b1 : Byte} {bs : List Byte} (h : longestRow b1 = 0) :
    noRowReason (b0 :: b1 :: bs).length (wordOf (b0 :: b1 :: bs)) = .notInScope := by
  simp only [noRowReason, opcode_of_cons, List.length_cons, h]
  exact if_pos ⟨by omega, trivial⟩

/-- A second byte in a row other than those of VCMP, or one of those too short to look at bit 31, is reserved (R89, R100). -/
theorem noRowReason_of_row {b0 b1 : Byte} {bs : List Byte} (h : longestRow b1 ≠ 0) (hcmp : b1.toNat / 16 = 1 → bs.length < 2) :
    noRowReason (b0 :: b1 :: bs).length (wordOf (b0 :: b1 :: bs)) = .reservedEncoding := by
  have hnibble : field (wordOf (b0 :: b1 :: bs)) 12 4 = 1#4 ↔ b1.toNat / 16 = 1 := by
    rw [nibble_of_opcode (opcode_of_cons b0 b1 bs), high_nibble_eq_one_iff]
  simp only [noRowReason, opcode_of_cons, List.length_cons, hnibble]
  rw [if_neg fun hn => h hn.2, if_neg fun hn => by have := hcmp hn.2.1; omega]

/-- The lengths of the rows (R83). -/
theorem rowLength_pos {b : Byte} {n : Nat} (h : rowLength b = some n) : 4 ≤ n ∧ n ≤ 6 := by
  unfold rowLength at h
  split_ifs at h <;> cases h <;> decide

/-- A first byte alone is missing its row (U29). -/
theorem refusedAs_first_byte (b0 : Byte) : RefusedAs b0 [] .reservedEncoding := by
  refine refusedAs_of_no_candidate (List.eq_nil_iff_forall_not_mem.mpr fun i hi => ?_) rfl
  have := ilen_candidates _ _ i hi
  cases i <;> simp [Instr.ilen] at this

/-- A second byte in no row (R91, R100). -/
theorem refusedAs_no_row (b0 b1 : Byte) (bs : List Byte) (hrow : rowLength b1 = none) (h56 : b1 ≠ 0x56#8) :
    RefusedAs b0 (b1 :: bs) .notInScope := by
  refine refusedAs_of_no_candidate (candidates_of_no_row ?_ ?_) (noRowReason_of_no_row ?_)
  · rwa [opcode_of_cons]
  · rwa [opcode_of_cons]
  · rw [longestRow_eq, if_neg h56, hrow]; rfl

/-- Fewer bytes than the rows of the second byte have (U29). -/
theorem refusedAs_too_short (b0 b1 : Byte) (bs : List Byte) (n : Nat) (hrow : rowLength b1 = some n ∨ (b1 = 0x56#8 ∧ n = 4))
    (hlen : (b0 :: b1 :: bs).length < n) : RefusedAs b0 (b1 :: bs) .reservedEncoding := by
  obtain hrow | ⟨rfl, rfl⟩ := hrow
  · obtain ⟨rows, hc⟩ := candidates_of_rowLength (w := wordOf (b0 :: b1 :: bs)) (by rwa [opcode_of_cons])
    have hpos := rowLength_pos hrow
    refine refusedAs_of_no_candidate ((hc _).trans (if_neg (by omega))) (noRowReason_of_row ?_ fun h1 => ?_)
    · rw [longestRow_of_rowLength hrow]
      omega
    · rw [rowLength, if_pos h1] at hrow
      cases hrow
      simp only [List.length_cons] at hlen
      omega
  · refine refusedAs_of_no_candidate ?_ (noRowReason_of_row (by decide) fun h => absurd h (by decide))
    rw [candidates_of_opcode56 (opcode_of_cons _ _ _), members56, whenPresent, whenPresent, if_neg (by omega), if_neg (by omega)]
    rfl

/-- Bytes of 1xh with bit 31 clear (R89). -/
theorem refusedAs_base_compare (b0 b1 b2 b3 : Byte) (bs : List Byte) (h1 : b1.toNat / 16 = 1) (h3 : b3.toNat < 128) :
    RefusedAs b0 (b1 :: b2 :: b3 :: bs) .notInScope := by
  have hnibble : field (wordOf (b0 :: b1 :: b2 :: b3 :: bs)) 12 4 = 1#4 := by
    rw [nibble_of_opcode (opcode_of_cons _ _ _), high_nibble_eq_one_iff, h1]
  have h31 : field (wordOf (b0 :: b1 :: b2 :: b3 :: bs)) 31 1 = 0#1 := by
    rw [field_eq_iff_digit _ _ (k := 3) rfl (by decide) (by decide)]
    show b3.toNat / 128 % 2 = 0
    omega
  refine refusedAs_of_no_candidate ?_ ?_
  · rw [candidates, if_pos hnibble, rowsCmp, if_neg (by rw [h31]; decide), whenPresent, ite_self]
  · have hrow : longestRow b1 ≠ 0 := by simp [longestRow, high_nibble_eq_one_iff, h1]
    simp [noRowReason, opcode_of_cons, hrow, hnibble, h31]

/-- Bytes of an opcode other than 1xh that no row matches are reserved (R86, R91, R100). -/
theorem refusedAs_reserved {b0 b1 : Byte} {bs : List Byte} (hrow : longestRow b1 ≠ 0) (h1 : b1.toNat / 16 ≠ 1)
    (hc : candidates (b0 :: b1 :: bs).length (wordOf (b0 :: b1 :: bs)) = []) : RefusedAs b0 (b1 :: bs) .reservedEncoding :=
  refusedAs_of_no_candidate hc (noRowReason_of_row hrow fun h => absurd h h1)

/-- LV and SV with bit 28 set (R86, R99). -/
theorem refusedAs_unused_bit (b0 b1 b2 b3 : Byte) (bs : List Byte) (h1 : b1 ∈ [0xBD#8, 0xCD#8]) (h3 : b3.toNat / 16 % 2 = 1) :
    RefusedAs b0 (b1 :: b2 :: b3 :: bs) .reservedEncoding := by
  have h28 : field (wordOf (b0 :: b1 :: b2 :: b3 :: bs)) 28 1 = 1#1 :=
    (field_eq_iff_digit _ _ (k := 3) rfl (by decide) (by decide)).mpr h3
  have hop := opcode_of_cons b0 b1 (b2 :: b3 :: bs)
  simp only [List.mem_cons, List.not_mem_nil, or_false] at h1
  obtain rfl | rfl := h1
  all_goals
    refine refusedAs_reserved (by decide) (by decide) ?_
    simp [candidates, nibble_of_opcode hop, hop, whenPresent, rowsLS2, h28]

/-- No four-byte member of opcode 56h matches where bits 31:28 name none (R98). -/
theorem short56_of_not_shortMember {b0 b1 b2 b3 : Byte} {bs : List Byte} (h : ¬ ShortMember b3) :
    short56 (wordOf (b0 :: b1 :: b2 :: b3 :: bs)) = [] := by
  have hdigit (v : BitVec 4) : field (wordOf (b0 :: b1 :: b2 :: b3 :: bs)) 28 4 = v ↔ b3.toNat / 16 = v.toNat := by
    have := b3.isLt
    rw [field_eq_iff_digit _ v (k := 3) rfl (by decide) (by decide)]
    exact Eq.congr_left (Nat.mod_eq_of_lt (show b3.toNat / 16 < 16 by omega))
  simp only [ShortMember, not_or] at h
  simp only [short56, ite_cons_eq_nil_iff, hdigit, and_true]
  exact h

/-- No five-byte member of opcode 56h matches where bits 39:34 name none (R97). -/
theorem long56_of_not_longMember {b0 b1 b2 b3 b4 : Byte} {bs : List Byte} (h : ¬ LongMember b4) :
    long56 (wordOf (b0 :: b1 :: b2 :: b3 :: b4 :: bs)) = [] := by
  have hdigit (v : BitVec 6) : field (wordOf (b0 :: b1 :: b2 :: b3 :: b4 :: bs)) 34 6 = v ↔ b4.toNat / 4 = v.toNat := by
    have := b4.isLt
    rw [field_eq_iff_digit _ v (k := 4) rfl (by decide) (by decide)]
    exact Eq.congr_left (Nat.mod_eq_of_lt (show b4.toNat / 4 < 64 by omega))
  simp only [LongMember, not_or] at h
  simp only [long56, ite_cons_eq_nil_iff, hdigit, and_true]
  exact h

/-- Four bytes of opcode 56h that are no four-byte member (R91, R98). -/
theorem refusedAs_no_short_member (b0 b2 b3 : Byte) (h : ¬ ShortMember b3) : RefusedAs b0 [0x56#8, b2, b3] .reservedEncoding := by
  refine refusedAs_reserved (by decide) (by decide) ?_
  rw [candidates_of_opcode56 (opcode_of_cons _ _ _), members56, short56_of_not_shortMember h]
  rfl

/-- Five bytes of opcode 56h that are no member of either length (R91, R101). -/
theorem refusedAs_no_member (b0 b2 b3 b4 : Byte) (bs : List Byte) (h3 : ¬ ShortMember b3) (h4 : ¬ LongMember b4) :
    RefusedAs b0 (0x56#8 :: b2 :: b3 :: b4 :: bs) .reservedEncoding := by
  refine refusedAs_reserved (by decide) (by decide) ?_
  rw [candidates_of_opcode56 (opcode_of_cons _ _ _), members56, short56_of_not_shortMember h3, long56_of_not_longMember h4]
  simp [whenPresent]

/-- A function value of an opcode of formats VVV and VVS that has no member (R91). -/
theorem refusedAs_no_func3 (b0 b1 b2 b3 b4 : Byte) (bs : List Byte)
    (h : (b1 = 0x52#8 ∧ b4.toNat / 32 ∈ [3, 7]) ∨ (b1 = 0x57#8 ∧ b4.toNat / 32 ∈ [1, 3, 7]) ∨
      (b1 = 0x5E#8 ∧ b4.toNat / 32 ∈ [2, 3, 6, 7])) :
    RefusedAs b0 (b1 :: b2 :: b3 :: b4 :: bs) .reservedEncoding := by
  have hop := opcode_of_cons b0 b1 (b2 :: b3 :: b4 :: bs)
  have hdigit (v : BitVec 3) : field (wordOf (b0 :: b1 :: b2 :: b3 :: b4 :: bs)) 37 3 = v ↔ b4.toNat / 32 = v.toNat := by
    have := b4.isLt
    rw [field_eq_iff_digit _ v (k := 4) rfl (by decide) (by decide)]
    exact Eq.congr_left (Nat.mod_eq_of_lt (show b4.toNat / 32 < 8 by omega))
  simp only [List.mem_cons, List.not_mem_nil, or_false] at h
  obtain ⟨rfl, h4⟩ | ⟨rfl, h4⟩ | ⟨rfl, h4⟩ := h
  · refine refusedAs_reserved (by decide) (by decide) ?_
    obtain h4 | h4 := h4 <;> simp [candidates, nibble_of_opcode hop, hop, whenPresent, rows52, hdigit, h4]
  · refine refusedAs_reserved (by decide) (by decide) ?_
    obtain h4 | h4 | h4 := h4 <;> simp [candidates, nibble_of_opcode hop, hop, whenPresent, rows57, hdigit, h4]
  · refine refusedAs_reserved (by decide) (by decide) ?_
    obtain h4 | h4 | h4 | h4 := h4 <;> simp [candidates, nibble_of_opcode hop, hop, whenPresent, rows5E, hdigit, h4]

/-- VCMPS with an unused bit set (R86, R95). -/
theorem refusedAs_unused_cmps (b0 b2 b3 b4 : Byte) (bs : List Byte) (h : b4.toNat / 8 ≠ 0) :
    RefusedAs b0 (0x5C#8 :: b2 :: b3 :: b4 :: bs) .reservedEncoding := by
  have hop := opcode_of_cons b0 0x5C#8 (b2 :: b3 :: b4 :: bs)
  have hunused : field (wordOf (b0 :: 0x5C#8 :: b2 :: b3 :: b4 :: bs)) 35 5 ≠ 0#5 := by
    have := b4.isLt
    rw [ne_eq, field_eq_iff_digit _ _ (k := 4) rfl (by decide) (by decide)]
    exact (Nat.mod_eq_of_lt (show b4.toNat / 8 < 32 by omega)).trans_ne h
  refine refusedAs_reserved (by decide) (by decide) ?_
  simp [candidates, nibble_of_opcode hop, hop, whenPresent, rows5C, hunused]

/-- LVWS, LVX, SVWS or SVX with an unused bit set (R86, R99). -/
theorem refusedAs_unused_LS3 (b0 b1 b2 b3 b4 : Byte) (bs : List Byte) (h1 : b1 ∈ [0xBE#8, 0xBF#8, 0xCE#8, 0xCF#8])
    (h4 : b4.toNat / 4 % 8 ≠ 0) : RefusedAs b0 (b1 :: b2 :: b3 :: b4 :: bs) .reservedEncoding := by
  have hop := opcode_of_cons b0 b1 (b2 :: b3 :: b4 :: bs)
  have hunused : field (wordOf (b0 :: b1 :: b2 :: b3 :: b4 :: bs)) 34 3 ≠ 0#3 := by
    rw [ne_eq, field_eq_iff_digit _ _ (k := 4) rfl (by decide) (by decide)]
    exact h4
  simp only [List.mem_cons, List.not_mem_nil, or_false] at h1
  obtain rfl | rfl | rfl | rfl := h1
  all_goals
    refine refusedAs_reserved (by decide) (by decide) ?_
    simp [candidates, nibble_of_opcode hop, hop, whenPresent, rowsLS3, hunused]

/-- What a predicate byte is refused as (R82, R102). -/
theorem reject_cases (p : Pred) : p.reject = none ∨ p.reject = some .notInScope ∨ p.reject = some .reservedCondition := by
  obtain ⟨vpn, c⟩ := p
  cases c
  case pf | pt => simp only [Pred.reject]; split <;> simp
  all_goals simp [Pred.reject]

/-- Where one of four refusals is found, the bytes are refused as one of them: that one, or the predicate byte's (R100, R134). -/
theorem rejectAfterPred_named {r : StaticRefusal} (n : Nat) (w : BitVec 48)
    (hr : r ∈ [StaticRefusal.notInScope, .reservedCondition, .reservedEncoding, .ambiguousEncoding]) :
    ∃ q ∈ [StaticRefusal.notInScope, .reservedCondition, .reservedEncoding, .ambiguousEncoding], rejectAfterPred n w r = .reject q := by
  unfold rejectAfterPred
  split
  · exact ⟨r, hr, rfl⟩
  · obtain h | h | h := reject_cases (predOf w)
    · exact ⟨r, hr, by rw [h]; rfl⟩
    · exact ⟨.notInScope, by decide, by rw [h]; rfl⟩
    · exact ⟨.reservedCondition, by decide, by rw [h]; rfl⟩

/-- The refusal of a word that no row matches is one of two (R100). -/
theorem noRowReason_cases (n : Nat) (w : BitVec 48) : noRowReason n w = .notInScope ∨ noRowReason n w = .reservedEncoding := by
  simp only [noRowReason]
  split
  · exact .inl rfl
  · split
    · exact .inl rfl
    · exact .inr rfl

/-- Decoding answers an instruction or one of four refusals (R100 to R102). -/
theorem decode_cases (bs : List Byte) : (∃ i, decode none bs = .instr i) ∨
    ∃ r ∈ [StaticRefusal.notInScope, .reservedCondition, .reservedEncoding, .ambiguousEncoding], decode none bs = .reject r := by
  simp only [decode, decodeByTable]
  split
  · refine .inr (rejectAfterPred_named _ _ ?_)
    obtain h | h := noRowReason_cases bs.length (wordOf bs) <;> simp [h]
  · exact .inl ⟨_, rfl⟩
  · exact .inr (rejectAfterPred_named _ _ (by simp))

/-- Settles O56: each clause by the row it is about. -/
theorem decodeRefusesByName : Obligations.DecodeRefusesByName := by
  refine ⟨rfl, refusedAs_first_byte, refusedAs_no_row, refusedAs_too_short, refusedAs_base_compare, refusedAs_unused_bit,
    refusedAs_no_short_member, ?five, decode_cases⟩
  case five =>
    rintro b0 b1 b2 b3 b4 bs (h | h | h | ⟨rfl, h3, h4⟩ | ⟨rfl, h4⟩ | ⟨h1, h4⟩)
    · exact refusedAs_no_func3 b0 b1 b2 b3 b4 bs (.inl h)
    · exact refusedAs_no_func3 b0 b1 b2 b3 b4 bs (.inr (.inl h))
    · exact refusedAs_no_func3 b0 b1 b2 b3 b4 bs (.inr (.inr h))
    · exact refusedAs_no_member b0 b2 b3 b4 bs h3 h4
    · exact refusedAs_unused_cmps b0 b2 b3 b4 bs h4
    · exact refusedAs_unused_LS3 b0 b1 b2 b3 b4 bs h1 h4

end Sys2Proof.Encoding
end

section
/-! PROOFS. The statements about the static checks (R134), in their order and for every instruction, and about the program counter
(R34, R129): how far an instruction moves it, and what is refused at the top of the address space. -/

namespace Sys2Proof.ChecksAndFetch

open Sys2Proof.Machine Sys2Proof.Spec Sys2Proof.CommonExecution Sys2Proof.Arithmetic Sys2Proof.Logical Sys2Proof.WholeMachine
open Sys2Proof.Encoding Sys2Proof.Laws.EncodeLength

/-! ## Each static check in the terms of the statement -/

/-- The predicate bytes x0h other than 90h and x1h other than 01h (R82). -/
theorem reject_of_base_byte {p : Pred} (h : (p.cond = .pf ∧ p.vpn ≠ 9#4) ∨ (p.cond = .pt ∧ p.vpn ≠ 0#4)) :
    p.reject = some .notInScope := by
  obtain ⟨hc, hv⟩ | ⟨hc, hv⟩ := h <;> simp [Pred.reject, hc, hv]

/-- The predicate bytes with a blank condition (R122). -/
theorem reject_of_blank {p : Pred} (h : p.cond = .rsv12 ∨ p.cond = .rsv14 ∨ p.cond = .rsv15) : p.reject = some .reservedCondition := by
  obtain hc | hc | hc := h <;> simp [Pred.reject, hc]

/-- The type check of an arithmetic instruction or a compare looks at its type field (R88, R89). -/
theorem typeCheck_of_arithmeticTypeOf {i : Instr} {t : BitVec 3} (h : arithmeticTypeOf i = some t) : typeCheck i = arithmeticType t := by
  cases i
  case vadd | vadds | vsub | vsubs | vsubrs | vmul | vmuls | vdiv | vdivs | vmac | vcmp | vcmps => cases h; rfl
  all_goals cases h

/-- The type check refuses nothing where the type is legal for the instruction (R88, R127). -/
theorem typeCheck_of_typeLegal {i : Instr} (h : TypeLegal i) : typeCheck i = none := by
  obtain ⟨harithmetic, hlogical⟩ := h
  cases i
  case vadd | vadds | vsub | vsubs | vsubrs | vmul | vmuls | vdiv | vdivs | vmac | vcmp | vcmps =>
    exact arithmeticType_eq_none (harithmetic _ rfl)
  case vand | vands | vor | vors | veor | veors => exact logicalType_eq_none (hlogical _ rfl)
  all_goals rfl

/-- The vector register fields of the statement are those the check looks at (R92 to R99). -/
theorem vectorNumbers_eq (i : Instr) : vectorNumbers i = vectorFields i := by cases i <;> rfl

/-- A vector register field of 8 or more fails the check (R23). -/
theorem vectorCheck_of_out {i : Instr} (h : ∃ r ∈ vectorNumbers i, 8 ≤ r.toNat) : vectorCheck i = some .vectorRegisterOutOfRange := by
  obtain ⟨r, hr, hout⟩ := h
  rw [vectorNumbers_eq] at hr
  refine if_neg fun hall => ?_
  have hlt := of_decide_eq_true (List.all_eq_true.mp hall r hr)
  omega

/-- The conditions that read flags are those with codes 2 to 11 (R31, R122). -/
theorem readsFlags_iff (c : Cond) : c.readsFlags = true ↔ 2 ≤ c.code.toNat ∧ c.code.toNat ≤ 11 := by cases c <;> decide

/-- The target predicate register of the statement is the one the check looks at (R94, R95). -/
theorem targetOf_eq (i : Instr) : targetOf i = targetPredicate i := by cases i <;> rfl

/-- The check of the predicate registers refuses exactly where one that is written or read is out of range (R31). -/
theorem predicateCheck_passes_iff (i : Instr) : ((targetPredicate i).all (fun r => decide (r.toNat < 8)) &&
    (!i.pred.cond.readsFlags || decide (i.pred.vpn.toNat < 8))) = true ↔ ¬ PredicateOut i := by
  have htarget : (targetPredicate i).all (fun r => decide (r.toNat < 8)) = true ↔ ¬ ∃ r, targetOf i = some r ∧ 8 ≤ r.toNat := by
    rw [targetOf_eq]
    cases targetPredicate i <;> simp
  have hvpn : (!i.pred.cond.readsFlags || decide (i.pred.vpn.toNat < 8)) = true ↔
      ¬ (2 ≤ i.pred.cond.code.toNat ∧ i.pred.cond.code.toNat ≤ 11 ∧ 8 ≤ i.pred.vpn.toNat) := by
    rw [Bool.or_eq_true, Bool.not_eq_true', ← Bool.not_eq_true, readsFlags_iff, decide_eq_true_eq]
    omega
  rw [Bool.and_eq_true, htarget, hvpn, PredicateOut, not_or]

/-- Two predicate bytes are equal exactly where their fields are (R81). -/
theorem byte_eq_iff (p q : Pred) : p.byte = q.byte ↔ p = q := by
  refine ⟨fun h => ?_, congrArg _⟩
  have hlow : field (p.byte.setWidth 48) 0 8 = p.byte := field_setWidth _ (by decide)
  exact (predOf_of_low hlow).symm.trans (predOf_of_low (hlow.trans h))

/-- The check of the `Pn` instructions looks for the two bytes 01h and 90h (R124). -/
theorem pnCheck_fails_iff (i : Instr) : (isPn i && !(i.pred.byte == 0x01#8 || i.pred.byte == 0x90#8)) = true ↔ PnOpen i := by
  have hpn : isPn i = true ↔ IsPn i := by cases i <;> simp [isPn, IsPn]
  have h01 : (i.pred.byte == 0x01#8) = true ↔ i.pred = ⟨0#4, .pt⟩ := beq_iff_eq.trans (byte_eq_iff _ ⟨0#4, .pt⟩)
  have h90 : (i.pred.byte == 0x90#8) = true ↔ i.pred = ⟨9#4, .pf⟩ := beq_iff_eq.trans (byte_eq_iff _ ⟨9#4, .pf⟩)
  rw [Bool.and_eq_true, hpn, Bool.not_eq_true', ← Bool.not_eq_true, Bool.or_eq_true, h01, h90, not_or, PnOpen]

/-- VMAC with signs that cannot be decoded fails its own check (R149). -/
theorem ownCheck_of_snOpen {s : State} {i : Instr} (h : SnOpen s i) : ownCheck s.env.snDecode.isSome i = some .snNotDecoded := by
  obtain ⟨p, sn, t, vt, va, vb, vc, rfl, hsn, hnone⟩ := h
  simp [ownCheck, hsn, hnone]

/-- A shift onto its own source fails its own check (R193, R194). -/
theorem ownCheck_of_aliased {i : Instr} (snSupplied : Bool) (h : Aliased i) : ownCheck snSupplied i = some .shiftAliasing := by
  obtain ⟨p, v, ra, rfl | rfl⟩ := h <;> exact if_pos rfl

/-- Every other instruction passes its own check (R134). -/
theorem ownCheck_eq_none {s : State} {i : Instr} (hsn : ¬ SnOpen s i) (hshift : ¬ Aliased i) :
    ownCheck s.env.snDecode.isSome i = none := by
  cases i
  case vmac p sn t vt va vb vc =>
    refine if_pos (or_iff_not_imp_left.mpr fun hne => Option.isSome_iff_ne_none.mpr fun hnone => ?_)
    exact hsn ⟨p, sn, t, vt, va, vb, vc, rfl, hne, hnone⟩
  case vshlv p vt va ra => exact if_neg fun he => hshift ⟨p, vt, ra, .inl (by rw [he])⟩
  case vshrv p vt va ra => exact if_neg fun he => hshift ⟨p, vt, ra, .inr (by rw [he])⟩
  all_goals rfl

/-- Where the predicate byte, the type and the vector registers are in order, three checks are left (R134). -/
theorem staticCheck_of_legal {i : Instr} (snSupplied : Bool) (hp : PredLegal i.pred) (htype : TypeLegal i)
    (hv : ∀ r ∈ vectorNumbers i, r.toNat < 8) :
    staticCheck snSupplied i = (predicateCheck i).or ((pnCheck i).or (ownCheck snSupplied i)) := by
  rw [staticCheck, reject_of_predLegal hp, typeCheck_of_typeLegal htype, vectorCheck_eq_none (vectorNumbers_eq i ▸ hv)]
  simp only [Option.none_or]

/-- Settles O51: the checks in their order, each where all before it pass. -/
theorem staticChecksRefuseFirst : Obligations.StaticChecksRefuseFirst := by
  intro s i
  refine ⟨fun h => exec_of_staticCheck_eq_some (staticCheck_of_reject _ (reject_of_base_byte h)),
    fun h => exec_of_staticCheck_eq_some (staticCheck_of_reject _ (reject_of_blank h)), fun hp => ?legal⟩
  have hreject := reject_of_predLegal hp
  have typeRefused {r : StaticRefusal} (h : typeCheck i = some r) : exec i s = .refused (.static r) :=
    exec_of_staticCheck_eq_some (by rw [staticCheck, hreject, h]; rfl)
  refine ⟨fun t ht => ⟨?quad, ?reserved⟩, ?logical, fun htype => ?vector, fun htype hv => ?fields⟩
  case quad =>
    rintro rfl
    exact typeRefused (typeCheck_of_arithmeticTypeOf ht)
  case reserved =>
    intro hmem
    refine typeRefused ((typeCheck_of_arithmeticTypeOf ht).trans ?_)
    clear ht
    revert t
    decide
  case logical =>
    intro t ht hne
    exact typeRefused ((checks_of_logicalTypeOf ht false).1.trans (if_neg hne))
  case vector =>
    intro hout
    refine exec_of_staticCheck_eq_some ?_
    rw [staticCheck, hreject, typeCheck_of_typeLegal htype, vectorCheck_of_out hout]
    rfl
  case fields =>
    have hlegal := staticCheck_of_legal s.env.snDecode.isSome hp htype hv
    refine ⟨fun hout => ?predicate, fun hin hopen => ?pn, fun hin hclosed => ?own⟩
    case predicate =>
      have hcheck : predicateCheck i = some .predicateRegisterOutOfRange :=
        if_neg fun h => (predicateCheck_passes_iff i).mp h hout
      exact exec_of_staticCheck_eq_some (by rw [hlegal, hcheck, Option.some_or])
    case pn =>
      have hpredicate : predicateCheck i = none := if_pos ((predicateCheck_passes_iff i).mpr hin)
      have hcheck : pnCheck i = some .pnReadingOpen := if_pos ((pnCheck_fails_iff i).mpr hopen)
      exact exec_of_staticCheck_eq_some (by rw [hlegal, hpredicate, hcheck, Option.none_or, Option.some_or])
    case own =>
      have hpredicate : predicateCheck i = none := if_pos ((predicateCheck_passes_iff i).mpr hin)
      have hpn : pnCheck i = none := if_neg fun h => hclosed ((pnCheck_fails_iff i).mp h)
      have hstatic : staticCheck s.env.snDecode.isSome i = ownCheck s.env.snDecode.isSome i := by
        rw [hlegal, hpredicate, hpn, Option.none_or, Option.none_or]
      refine ⟨fun h => exec_of_staticCheck_eq_some (hstatic.trans (ownCheck_of_snOpen h)),
        fun h => exec_of_staticCheck_eq_some (hstatic.trans (ownCheck_of_aliased _ h)), fun hsn hshift r h => ?_⟩
      obtain ⟨q, hq, _⟩ | ⟨_, hr⟩ := exec_refused h
      · rw [hstatic, ownCheck_eq_none hsn hshift] at hq
        cases hq
      · simp at hr

/-! ## The top of the address space -/

/-- A platform's own rule refuses what is too short for any member of opcode 56h (R83, log entry 18). -/
theorem decodeByRules_of_short {rules : List Rule56} {n : Nat} {w : BitVec 48} (hn : n < 4) :
    decodeByRules rules n w = rejectAfterPred n w .reservedEncoding := by
  unfold decodeByRules
  split
  · next r _ =>
    have hlen : 4 ≤ (r.member.build w).ilen := by cases r.member <;> simp [Member56.build, Instr.ilen]
    exact if_neg (by omega)
  · rfl

/-- A platform's rule is asked about opcode 56h alone (R101). -/
theorem decode_of_not_opcode56 (rules : Option (List Rule56)) {bs : List Byte} (h : ¬ (2 ≤ bs.length ∧ field (wordOf bs) 8 8 = 0x56#8)) :
    decode rules bs = decode none bs := by
  cases rules with
  | none => rfl
  | some rs => exact if_neg h

/-- Bytes of a legal first byte that are fewer than any row, or than the rows of their second byte, are refused as out of scope or, where
a row of the second byte is longer, as reserved, also under a platform's own rule (R91, R100, U29). -/
theorem decode_of_missing (rules : Option (List Rule56)) {b : Byte} {bs : List Byte} (hb : firstByteRefusal b = none)
    (hmissing : (b :: bs).length < 4 ∨ ∃ b1 cs n, bs = b1 :: cs ∧ rowLength b1 = some n ∧ (b :: bs).length < n) :
    decode rules (b :: bs) = .reject .notInScope ∨
    (decode rules (b :: bs) = .reject .reservedEncoding ∧
      ((b :: bs).length < 2 ∨ (b :: bs).length < longestRow (byteAt (b :: bs) 1))) := by
  have named {r : StaticRefusal} (h : RefusedAs b bs r) : decode none (b :: bs) = .reject r := by
    rw [h, hb, Option.getD_none]
  cases bs with
  | nil =>
    rw [decode_of_not_opcode56 rules fun h => absurd h.1 (by simp)]
    exact .inr ⟨named (refusedAs_first_byte b), .inl (by simp)⟩
  | cons b1 cs =>
    by_cases h56 : b1 = 0x56#8
    · subst h56
      have hlen : (b :: 0x56#8 :: cs).length < 4 := by
        obtain h | ⟨_, _, n, he, hrow, _⟩ := hmissing
        · exact h
        · cases he; cases hrow
      refine .inr ⟨?_, .inr (Nat.lt_of_lt_of_le hlen (show 4 ≤ longestRow 0x56#8 by decide))⟩
      cases rules with
      | none => exact named (refusedAs_too_short b 0x56#8 cs 4 (.inr ⟨rfl, rfl⟩) hlen)
      | some rs =>
        have hrules : decode (some rs) (b :: 0x56#8 :: cs) = decodeByRules rs (b :: 0x56#8 :: cs).length (wordOf (b :: 0x56#8 :: cs)) :=
          if_pos ⟨by simp, opcode_of_cons _ _ _⟩
        rw [hrules, decodeByRules_of_short hlen, rejectAfterPred, reject_predOf, hb, Option.getD_none, ite_self]
    · rw [decode_of_not_opcode56 rules fun h => h56 ((opcode_of_cons b b1 cs).symm.trans h.2)]
      cases hrow : rowLength b1 with
      | none => exact .inl (named (refusedAs_no_row b b1 cs hrow h56))
      | some n =>
        have hlen : (b :: b1 :: cs).length < n := by
          obtain h | ⟨_, _, k, he, hk, h⟩ := hmissing
          · exact Nat.lt_of_lt_of_le h (rowLength_pos hrow).1
          · cases he; rw [hrow] at hk; cases hk; exact h
        refine .inr ⟨named (refusedAs_too_short b b1 cs n (.inl hrow) hlen), .inr ?_⟩
        show _ < longestRow b1
        rwa [longestRow_of_rowLength hrow]

/-- Such bytes, ending at the top of the address space, are a fetch that is out of scope (R34, R100). -/
theorem fetch_of_missing {s : State} {b : Byte} {bs : List Byte} (hlisting : ∀ l ∈ s.env.listing, l.1 ≠ s.pc)
    (hwindow : fetchWindow s = b :: bs) (hb : firstByteRefusal b = none)
    (hmissing : (b :: bs).length < 4 ∨ ∃ b1 cs n, bs = b1 :: cs ∧ rowLength b1 = some n ∧ (b :: bs).length < n)
    (htop : s.pc.toNat + (b :: bs).length = 2 ^ 64) : fetch s = .reject .notInScope := by
  simp only [fetch, find_eq_none_of_unlisted hlisting, hwindow]
  obtain h | ⟨h, hshort⟩ := decode_of_missing s.env.decode56 hb hmissing
  · simp [h]
  · have hstraddles : straddlesTop s (b :: bs) = true := by
      rw [straddlesTop, Bool.and_eq_true, Bool.or_eq_true, decide_eq_true_eq, decide_eq_true_eq, decide_eq_true_eq]
      exact ⟨htop, hshort⟩
    simp [h, hstraddles]

/-- Every instruction has four, five or six bytes (R83). -/
theorem ilen_mem (i : Instr) : i.ilen ∈ [4, 5, 6] := by cases i <;> simp [Instr.ilen]

/-- Settles O41: the frame of an instruction, the fit of a fetch, and the two fetches that do not fit. -/
theorem programCounterOnlyAdvances : Obligations.ProgramCounterOnlyAdvances := by
  refine ⟨fun s t i h => ?advances, fun s i h => ?fits, fun s hdue hrun => ⟨fun i hfind hlong => ?listed, ?bytes⟩⟩
  case advances =>
    rw [length_encode]
    exact ⟨(frame_of_next h).2.1, ilen_mem i⟩
  case fits =>
    rw [length_encode]
    exact fetch_fits h
  case listed =>
    rw [length_encode] at hlong
    exact step_of_refused_fetch hrun hdue ((fetch_of_listed hfind).trans (if_neg (by omega)))
  case bytes =>
    intro b bs hlisting hwindow hb hmissing htop
    exact step_of_refused_fetch hrun hdue (fetch_of_missing hlisting hwindow hb hmissing htop)

end Sys2Proof.ChecksAndFetch
end
